-- ==== Sys2Proof/Word.lean ====
section
/-! DEFINITION. The byte, the bit-string and `ceil8`: the words every other file is written in (00_scope.md rules R11, R12). -/

namespace Sys2Proof

/-- A byte: 8 bits, an unsigned value 0 to 255, bit 7 the most significant (R11). A symbol is a byte value (R16). -/
abbrev Byte := BitVec 8

/-- A bit-string: a finite sequence of bits, the FIRST (leftmost, earliest) bit at index 0 (R12). `false` is the
document's '0', `true` its '1'. -/
abbrev BitString := List Bool

/-- `ceil8(l)`: the least integer not below `l/8` (R11). -/
def ceil8 (l : Nat) : Nat := (l + 7) / 8

end Sys2Proof
end

