-- ==== Sys2Proof/Config.lean ====
section
/-! DEFINITION. The parameters of the block: the table of 00_scope.md rule R10, every row of it. -/

namespace Sys2Proof.Config

/-- Width of a symbol in bits (R10). -/
abbrev SYMW : Nat := 8
/-- Number of possible symbols (R10). -/
abbrev NSYMVALS : Nat := 256
/-- Width of the header's `code_length` field in bits (R10). -/
abbrev LENW : Nat := 8
/-- Longest representable code, in bits (R10). -/
abbrev MAXLEN : Nat := 255
/-- The terminator byte (R10, R86; the spec's decision D1). -/
abbrev TERM : Byte := 0x00#8
/-- Width of a frequency count and of a node frequency, in bits (R10; the spec's decision D7, its default). -/
abbrev CW : Nat := 64
/-- Capacity of the node arena (R10, R128). -/
abbrev NODE_CAP : Nat := 511
/-- Capacity of the decode table, in entries (R10; the spec's decision D11). DESIGN CHOICE, safe (log 22): the finite
value of the two the spec allows a model to take. -/
abbrev DTAB_CAP : Nat := 256
/-- Most bits the payload accumulator ever holds (R10, R170). -/
abbrev ACC_CAP : Nat := 262
/-- Width of the `LEN_ARG` operand, in bits (R10). -/
abbrev ARGW : Nat := 32
/-- Number of bytes of the entry buffer `E_BUF` (R36). -/
abbrev EBUF_CAP : Nat := 32

/-- The orders of header entries the spec names: one (R10, decision D3). -/
inductive HdrOrder where
  | ascendingSymbol
deriving DecidableEq, Repr

/-- The order of header entries (R10). -/
abbrev HDR_ORDER : HdrOrder := .ascendingSymbol

/-- The priority-queue orders the spec names: one (R10, decision D4). -/
inductive Tie where
  | frequencyThenArrival
deriving DecidableEq, Repr

/-- The priority-queue order (R10, R121). -/
abbrev TIE : Tie := .frequencyThenArrival

/-- The signal-level protocols 92_eei_decisions.md D20 and D29 name. -/
inductive Handshake where
  | transactionLevel
  | validReady
  | fifo
  | memoryMapped
deriving DecidableEq, Repr

/-- The signal-level protocol of the source and sink ports: OPEN in the spec, default "none, transaction level" (D29);
no rule depends on it and nothing in the model reads it (log 25). DESIGN CHOICE, safe. -/
abbrev HANDSHAKE : Handshake := .transactionLevel

end Sys2Proof.Config
end

