-- ==== Sys2Proof/Syntax.lean ====
section
/-! DEFINITION. The instructions: one constructor per row of spec/opcode_table.json (30_encoding.md rule R99), in the table's
order. -/

namespace Sys2Proof

/-- The block's instructions in the sense of 00_scope.md rule R4: the host commands, the records of the compressed stream, and
the component operations. -/
inductive Instr where
  /-- `COMPRESS`, a `CMD` write `1xxxx001` (R202). Bits 6:3 are ignored (R22) and are no operand (log 21). -/
  | compress
  /-- `DECOMPRESS`, a `CMD` write `1xxxx010` (R203). -/
  | decompress
  /-- `PACK`, a `CMD` write `1xxxx011` (R204). -/
  | pack
  /-- `UNPACK`, a `CMD` write `1xxxx100` (R205). -/
  | unpack
  /-- `CMD_RESERVED`, a `CMD` write with `START` = 1 and `OP` in {0, 5, 6, 7} (R209). -/
  | cmdReserved (op : BitVec 3)
  /-- `CMD_NO_START`, a `CMD` write `0xxxxooo` (R22, R201). -/
  | cmdNoStart (op : BitVec 3)
  /-- `HDR_TERM`, the byte 0x00 at a record boundary of the header (R86). -/
  | hdrTerm
  /-- `HDR_ENTRY`: symbol, code_length, and the ceil8(code_length) bytes of code_bits as they stand, pad bits included (R81). -/
  | hdrEntry (symbol codeLength : Byte) (codeBits : List Byte)
  /-- `PAYLOAD_BYTE`: eight payload bits, bit 7 first (R88). -/
  | payloadByte (bits : Byte)
  /-- `FREQ_SCAN`, selected by `PHASE` = `C_FREQ` (R111). -/
  | freqScan
  /-- `TREE_SEED`, first operation of `PHASE` = `C_BUILD` (R122). -/
  | treeSeed
  /-- `TREE_MERGE`, repeated operation of `PHASE` = `C_BUILD` (R124). -/
  | treeMerge
  /-- `CODE_ASSIGN`, selected by `PHASE` = `C_ASSIGN` (R136, R137). -/
  | codeAssign
  /-- `PACK_BITS`, the packer, which `PHASE` = `P_PACK` runs on the source (R147, R148, R204; log 7). -/
  | packBits
  /-- `UNPACK_BITS`, the unpacker, which `PHASE` = `U_UNPACK` runs on the source (R156, R205; log 7). -/
  | unpackBits
  /-- `SER_HEADER`, selected by `PHASE` = `C_HEADER` (R164). -/
  | serHeader
  /-- `SER_TERM`, selected by `PHASE` = `C_TERM` (R166). -/
  | serTerm
  /-- `SER_PAYLOAD`, selected by `PHASE` = `C_PAYLOAD`, one step per source byte (R168). -/
  | serPayload
  /-- `SER_FLUSH`, selected by `PHASE` = `C_FLUSH` (R171). -/
  | serFlush
  /-- `DES_HEADER`, selected by `PHASE` = `D_HEADER`, one step per record (R181). -/
  | desHeader
  /-- `DES_PAYLOAD`, selected by `PHASE` = `D_PAYLOAD`, one step per payload byte (R189). -/
  | desPayload
deriving DecidableEq, Repr

end Sys2Proof
end

