-- ==== Sys2Proof/WellFormed.lean ====
section
/-! DEFINITION. Which instruction terms an encoding stands for: the constraints the records and the command register put on
their fields. -/

namespace Sys2Proof

/-- The reserved values of `CMD.OP` (30_encoding.md rules R91, R92). -/
def reservedOp (op : BitVec 3) : Bool := op = 0 || op = 5 || op = 6 || op = 7

/-- An instruction term is well formed when an encoding stands for it: a reserved command names a reserved `OP` (R209); a
header entry's symbol is not the terminator (R82, R87) and it has exactly ceil8(code_length) code bytes (R81). Every other
operand takes every value. -/
def Instr.wellFormed : Instr → Bool
  | .cmdReserved op => reservedOp op
  | .hdrEntry symbol codeLength codeBits =>
    decide (symbol ≠ Config.TERM) && decide (codeBits.length = ceil8 codeLength.toNat)
  | .compress | .decompress | .pack | .unpack | .cmdNoStart _ | .hdrTerm | .payloadByte _
  | .freqScan | .treeSeed | .treeMerge | .codeAssign | .packBits | .unpackBits
  | .serHeader | .serTerm | .serPayload | .serFlush | .desHeader | .desPayload => true

end Sys2Proof
end

