-- ==== Sys2Proof/Decode.lean ====
section
/-! DEFINITION. From bytes to instructions and back: the `CMD` format, the records of the stream, and the encoder
(30_encoding.md). -/

namespace Sys2Proof

/-- What the bytes are, which the block knows by position, never from the bytes (R87, R99): a value the host writes to `CMD`; a
record of the header; a byte of the payload. -/
inductive Context where
  | command
  | header
  | payload
deriving DecidableEq, Repr

/-- Why bytes are no instruction. Only the stream can run short; there is no illegal byte (R92, R96). -/
inductive DecodeError where
  /-- no byte at all: in the header, case 1 of R184 -/
  | noByte
  /-- no `code_length` byte after a symbol: case 2 of R184 -/
  | noLength
  /-- fewer code bytes than ceil8(code_length): case 3 of R184 -/
  | codeCut
deriving DecidableEq, Repr

/-- Field `OP` of a `CMD` value: bits 2:0 (R90). -/
def opField (b : Byte) : BitVec 3 := b.extractLsb' 0 3

/-- Field `START` of a `CMD` value: bit 7 (R90). -/
def startField (b : Byte) : Bool := b.getLsbD 7

/-- The instruction a `CMD` value stands for. Total: the six `CMD` rows partition all 256 values (R99); bits 6:3 are ignored. -/
def decodeCmd (b : Byte) : Instr :=
  let op := opField b
  if startField b then
    if op = 1 then .compress
    else if op = 2 then .decompress
    else if op = 3 then .pack
    else if op = 4 then .unpack
    else .cmdReserved op
  else .cmdNoStart op

/-- One record of the header and what follows it (R81, R85, R86, R87): HDR_TERM is tried before HDR_ENTRY, and only on the
first byte of a record. -/
def decodeRecord : List Byte → Except DecodeError (Instr × List Byte)
  | [] => .error .noByte
  | b :: bs =>
    if b = Config.TERM then .ok (.hdrTerm, bs)
    else match bs with
      | [] => .error .noLength
      | l :: cs =>
        if cs.length < ceil8 l.toNat then .error .codeCut
        else .ok (.hdrEntry b l (cs.take (ceil8 l.toNat)), cs.drop (ceil8 l.toNat))

/-- One instruction and the bytes after it, or why there is none. -/
def decode : Context → List Byte → Except DecodeError (Instr × List Byte)
  | .command, [] => .error .noByte
  | .command, b :: bs => .ok (decodeCmd b, bs)
  | .header, bs => decodeRecord bs
  | .payload, [] => .error .noByte
  | .payload, b :: bs => .ok (.payloadByte b, bs)

/-- The `CMD` value with a given `START` and `OP`, bits 6:3 zero: `S0000ooo` (R90). -/
def encodeCmd (start : Bool) (op : BitVec 3) : Byte :=
  (BitVec.ofBool start).setWidth 8 <<< 7 ||| op.setWidth 8

/-- The bytes of an instruction and the context they are read in (R81, R86, R88, R90); none for a component operation, which
has no bit pattern (R99). -/
def encode : Instr → Option (Context × List Byte)
  | .compress => some (.command, [encodeCmd true 1])
  | .decompress => some (.command, [encodeCmd true 2])
  | .pack => some (.command, [encodeCmd true 3])
  | .unpack => some (.command, [encodeCmd true 4])
  | .cmdReserved op => some (.command, [encodeCmd true op])
  | .cmdNoStart op => some (.command, [encodeCmd false op])
  | .hdrTerm => some (.header, [Config.TERM])
  | .hdrEntry symbol codeLength codeBits => some (.header, symbol :: codeLength :: codeBits)
  | .payloadByte bits => some (.payload, [bits])
  | .freqScan | .treeSeed | .treeMerge | .codeAssign | .packBits | .unpackBits
  | .serHeader | .serTerm | .serPayload | .serFlush | .desHeader | .desPayload => none

/-- The first `n` bytes of a number, least significant first: how spec/opcode_table.json numbers an instruction's bits. -/
def wordBytes : Nat → Nat → List Byte
  | 0, _ => []
  | n + 1, w => BitVec.ofNat 8 w :: wordBytes n (w / 256)

/-- The instruction an opcode-table word stands for, read as the host writes it: in the `CMD` context, which is the only one the
block is in after reset (log 5). The first byte is the `CMD` value; a word of no bits is none. -/
def decodeTableWord (nbits w : Nat) : Option Instr :=
  match decode .command (wordBytes ((nbits + 7) / 8) w) with
  | .ok (i, _) => some i
  | .error _ => none

end Sys2Proof
end

