-- ==== Sys2Proof/Machine/State.lean ====
section
/-! DEFINITION. The state of the block (10_state.md), the two streams (20_memory.md), the host's acts, the reasons a step can
stop, and the state after reset (70_reset_and_hazards.md rule R251). -/

namespace Sys2Proof.Machine

/-- `PHASE`: which component operation is current (R26). -/
inductive Phase where
  | idle
  | cFreq
  | cBuild
  | cAssign
  | cHeader
  | cTerm
  | cPayload
  | cFlush
  | dHeader
  | dPayload
  | pPack
  | uUnpack
  | done
  | error
deriving DecidableEq, Repr

/-- `STATUS`: the block's only flags (R24). -/
structure Status where
  /-- bit 0: a run is in progress -/
  busy : Bool
  /-- bit 1: the last run ended without error -/
  done : Bool
  /-- bit 2: the last run ended with `raise` -/
  err  : Bool
deriving DecidableEq, Repr

/-- The error causes (R220). Codes 7 to 15 are reserved and have no constructor (V3). -/
inductive Err where
  | inputUnavailable
  | formatTruncated
  | formatDuplicateKey
  | encInternal
  | formatTableFull
  | badCmd
deriving DecidableEq, Repr

/-- A frequency count or node frequency: `CW` bits, unsigned (R27, R29). -/
abbrev Count := BitVec Config.CW

/-- An arena index: 0 to 510 (R29). -/
abbrev ArenaIx := Fin Config.NODE_CAP

/-- `NODE[i].kind` (R29). -/
inductive NodeKind where
  | leaf
  | internal
deriving DecidableEq, Repr

/-- An entry of the node arena `NODE` (R29). -/
structure Node where
  kind  : NodeKind
  /-- meaningful only in a leaf -/
  sym   : Byte
  freq  : Count
  /-- meaningful only in an internal node -/
  left  : ArenaIx
  /-- meaningful only in an internal node -/
  right : ArenaIx
deriving DecidableEq, Repr

/-- An entry of the code table `CODE` (R32). -/
structure CodeEntry where
  valid : Bool
  len   : Byte
  bits  : BitString
deriving DecidableEq, Repr

/-- An entry of the decode table `DTAB` (R34). -/
structure DecEntry where
  keylen : Byte
  key    : BitString
  sym    : Byte
deriving DecidableEq, Repr

/-- The source stream: the host's, read by the block (R38, R52). -/
structure Source where
  avail : Bool
  data  : List Byte
  pos   : Nat
deriving DecidableEq, Repr

/-- The sink stream: the host's, written by the block (R39, R55). -/
structure Sink where
  data : List Byte
deriving DecidableEq, Repr

/-- The well-formedness of the block's memory. The block has no addressed memory (R50, R51): its external memory is the two
streams, and the one constraint the spec puts on them is R52's `pos <= |data|`. -/
abbrev Memory.wf (src : Source) : Prop := src.pos ≤ src.data.length

/-- One access to a stream, as an observer of both streams sees it (R19, R62). -/
inductive Access where
  /-- a `SrcRead` that returned a byte -/
  | read (b : Byte)
  /-- a `SrcRead` that returned EOS -/
  | eos
  /-- a `SrcRewind` -/
  | rewind
  /-- a `SinkWrite` -/
  | write (b : Byte)
deriving DecidableEq, Repr

/-- What the host can do to the block (R211, R250, R254, R257; log 3). DESIGN CHOICE, unsafe: the spec names the acts, the
list that holds them in the state is the model's. -/
inductive HostAct where
  /-- write `CMD` (R201, R210, R22) -/
  | writeCmd (b : Byte)
  /-- write `LEN_ARG` (R23) -/
  | writeLenArg (v : BitVec Config.ARGW)
  /-- assert `rst` (R250) -/
  | assertRst
  /-- release `rst` (R250) -/
  | releaseRst
  /-- present a source: availability, content, cursor (R38, R254) -/
  | presentSource (avail : Bool) (data : List Byte) (pos : Nat)
  /-- change the source's content in the middle of a COMPRESS run (R66, R257, V6; log 13) -/
  | changeSource (data : List Byte)
  /-- present a sink with some content, empty as R254 asks or not (V9) -/
  | presentSink (data : List Byte)
  /-- do nothing while the block does one component operation -/
  | pass
  /-- poll `STATUS` until the block is not busy (R254) -/
  | poll
deriving DecidableEq, Repr

/-- Why the machine stops with a fault. Both are raised only in states no run reaches, where the pseudocode of a rule has no
meaning (log 15); the errors of 60_exceptions.md are NOT faults, they are next states (R230). -/
inductive Fault where
  /-- TREE_SEED or TREE_MERGE would write `NODE[511]`, which does not exist (R29, R128). Safe. -/
  | arenaFull
  /-- TREE_MERGE takes the argmin of an empty queue, which does not exist (R14, R124). Safe. -/
  | queueEmpty
deriving DecidableEq, Repr

/-- Why the model gives a step no meaning. -/
inductive Refusal where
  /-- an arm of `exec` that has no meaning yet. Safe. -/
  | notModelled (mnemonic : String)
  /-- FREQ_SCAN has more than 2^CW - 1 bytes to count: "a model refuses it" (R113, V8; log 14). Safe. -/
  | inputTooLong
  /-- CODE_ASSIGN meets a path longer than `MAXLEN`, which `CODE[s].len` cannot hold: only in states no run reaches (R129,
  R139, U6; log 16). Safe. -/
  | codeTooLong
  /-- the host changes what it must not change while `STATUS.BUSY` = 1: "the model has no such transition" (R262, V5; log 12).
  Safe. -/
  | hostDuty
  /-- the host presents a source whose cursor is past its end, which R52 says is no source (log 29). Safe. -/
  | cursorPastEnd
deriving DecidableEq, Repr

/-- The state of the block, of the two streams it reads and writes, and of what the host is still to do (R20). -/
structure State where
  /-- `CMD` (R22) -/
  cmd     : BitVec 8
  /-- `LEN_ARG` (R23) -/
  lenArg  : BitVec Config.ARGW
  /-- `STATUS` (R24) -/
  status  : Status
  /-- `ERRCODE` (R25) -/
  errcode : BitVec 4
  /-- `PHASE` (R26) -/
  phase   : Phase
  /-- `FREQ[0..255]` (R27) -/
  freq    : Vector Count Config.NSYMVALS
  /-- `NSYM`, 9 bits, 0 to 256 (R28; a natural number by R15, log 17) -/
  nsym    : Nat
  /-- `NODE[0..510]` (R29) -/
  node    : Vector Node Config.NODE_CAP
  /-- `INQ[0..510]` (R30) -/
  inq     : Vector Bool Config.NODE_CAP
  /-- `NNODES`, 10 bits, 0 to 511 (R31; log 17) -/
  nnodes  : Nat
  /-- `ROOT` (R31) -/
  root    : ArenaIx
  /-- `CODE[0..255]` (R32) -/
  code    : Vector CodeEntry Config.NSYMVALS
  /-- `ACC`: the serializer's accumulator, and the working buffer of PACK (R33; log 11) -/
  acc     : BitString
  /-- `DTAB[0..255]` (R34) -/
  dtab    : Vector DecEntry Config.DTAB_CAP
  /-- `DN`, 9 bits, 0 to 256 (R34; log 17) -/
  dn      : Nat
  /-- `CAND` (R35) -/
  cand    : BitString
  /-- `E_SYM` (R36) -/
  eSym    : Byte
  /-- `E_LEN` (R36) -/
  eLen    : Byte
  /-- `E_NB`, 6 bits, 0 to 32 (R36; log 17) -/
  eNb     : Nat
  /-- `E_BUF[0..31]` (R36) -/
  eBuf    : Vector Byte Config.EBUF_CAP
  /-- `SRC` (R38) -/
  src     : Source
  /-- `SNK` (R39) -/
  snk     : Sink
  /-- `rst`: the level of the reset input; while it is asserted the block is held in reset (R250; log 28) -/
  rst     : Bool
  /-- the model's own: the host's acts still to come, oldest first (log 3) -/
  inbox   : List HostAct
  /-- the model's own: the accesses made so far, NEWEST first (R19, R62; log 6) -/
  trace   : List Access
deriving DecidableEq, Repr

/-- The state after reset (R251). Where R251 says "unspecified" the value is the model's: DESIGN CHOICE, unsafe (log 1). The
source and the sink are the host's and have no reset value: DESIGN CHOICE, unsafe (log 2). `rst` has been released: DESIGN CHOICE,
unsafe (log 28). -/
def State.reset : State where
  cmd     := 0x00#8
  lenArg  := 0
  status  := { busy := false, done := false, err := false }
  errcode := 0
  phase   := .idle
  freq    := Vector.replicate _ 0
  nsym    := 0
  node    := Vector.replicate _ { kind := .leaf, sym := 0, freq := 0, left := 0, right := 0 }
  inq     := Vector.replicate _ false
  nnodes  := 0
  root    := 0
  code    := Vector.replicate _ { valid := false, len := 0, bits := [] }
  acc     := []
  dtab    := Vector.replicate _ { keylen := 0, key := [], sym := 0 }
  dn      := 0
  cand    := []
  eSym    := 0
  eLen    := 0
  eNb     := 0
  eBuf    := Vector.replicate _ 0
  src     := { avail := true, data := [], pos := 0 }
  snk     := { data := [] }
  rst     := false
  inbox   := []
  trace   := []

end Sys2Proof.Machine
end

