-- ==== Sys2Proof/Machine/Operands.lean ====
section
/-! DEFINITION. The operands: bit-strings, the bytes that pack them, the characters that spell them, and the entries of the
tables the operations index (43_bit_packer.md, 44_bit_unpacker.md; 20_memory.md rules R58 to R60, R69). -/

namespace Sys2Proof.Machine

/-- Bit `i` of a bit-string, counted from the first; 0 past its end: a pad bit (R60, R147). -/
def bitAt (s : BitString) (i : Nat) : Bool := s.getD i false

/-- The byte whose bit 7 is the first of eight bits and whose bit 0 is the last (R58). -/
def byteOfBits (b7 b6 b5 b4 b3 b2 b1 b0 : Bool) : Byte :=
  BitVec.ofNat 8 (128 * b7.toNat + 64 * b6.toNat + 32 * b5.toNat + 16 * b4.toNat + 8 * b3.toNat + 4 * b2.toNat
    + 2 * b1.toNat + b0.toNat)

/-- The byte that holds the first eight bits of a bit-string, zero pad bits after its end (R58, R60). -/
def byteOf (s : BitString) : Byte :=
  byteOfBits (bitAt s 0) (bitAt s 1) (bitAt s 2) (bitAt s 3) (bitAt s 4) (bitAt s 5) (bitAt s 6) (bitAt s 7)

/-- The eight bits of a byte, bit 7 first (R58, R189). -/
def byteBits (b : Byte) : BitString :=
  [b.getLsbD 7, b.getLsbD 6, b.getLsbD 5, b.getLsbD 4, b.getLsbD 3, b.getLsbD 2, b.getLsbD 1, b.getLsbD 0]

/-- The first `n` bytes that pack a bit-string, eight bits each. -/
def packBytes : Nat → BitString → List Byte
  | 0, _ => []
  | n + 1, s => byteOf s :: packBytes n (s.drop 8)

/-- `pack(s)`: the minimal byte list that holds the bits of `s`, MSB-first, zero pad bits after the last (R147). -/
def pack (s : BitString) : List Byte := packBytes (ceil8 s.length) s

/-- `unpack(bs, l)`: the first `l` bits of the bytes `bs`, MSB-first; used with `|bs| >= ceil8(l)` (R156). -/
def unpack (bs : List Byte) (l : Nat) : BitString := (bs.flatMap byteBits).take l

/-- The bit a character of the PACK command's input stands for; none for "some other character" (R97, R146; the byte values
are the spec's own general knowledge, G1, log 26). -/
def charBit (c : Byte) : Option Bool :=
  if c = 0x30 then some false else if c = 0x31 then some true else none

/-- The character that stands for a bit at the UNPACK command's output (R97, R160; log 26). -/
def bitChar (b : Bool) : Byte := if b then 0x31 else 0x30

/-- All symbols in ascending order: `for s in 0..255 ascending` (R14). -/
def allSymbols : List Byte := (List.range Config.NSYMVALS).map (BitVec.ofNat 8)

/-- Entry `c` of a table indexed by symbol value (R69). -/
def lookSym {α : Type} (t : Vector α Config.NSYMVALS) (c : Byte) : α := t[c.toNat]'c.isLt

/-- A table indexed by symbol value with entry `c` written (R69). -/
def putSym {α : Type} (t : Vector α Config.NSYMVALS) (c : Byte) (x : α) : Vector α Config.NSYMVALS := t.set c.toNat x c.isLt

/-- A table with the same change made to every entry. -/
def mapTable {α : Type} {n : Nat} (f : α → α) (t : Vector α n) : Vector α n := ⟨⟨t.toList.map f⟩, by simp⟩

/-- The buffer with bytes written to its entries `j`, `j + 1`, ... in order; an entry past its end does not exist. -/
def putBytes {n : Nat} (buf : Vector Byte n) : Nat → List Byte → Vector Byte n
  | _, [] => buf
  | j, c :: cs => putBytes (buf.setIfInBounds j c) (j + 1) cs

end Sys2Proof.Machine
end

