-- ==== Sys2Proof/Machine/Flags.lean ====
section
/-! DEFINITION. The flags: the values `STATUS` takes, its readable image, and the numbers of `ERRCODE` (10_state.md rules R24,
R25; 60_exceptions.md rule R220). -/

namespace Sys2Proof.Machine

/-- `STATUS` with no flag set: after reset (R251). -/
def Status.clear : Status := { busy := false, done := false, err := false }

/-- `STATUS` = {`BUSY`}: a run in progress (R43). -/
def Status.running : Status := { busy := true, done := false, err := false }

/-- `STATUS` = {`DONE`}: the run ended without error (R208). -/
def Status.ended : Status := { busy := false, done := true, err := false }

/-- `STATUS` = {`ERR`}: the run ended with `raise` (R230). -/
def Status.failed : Status := { busy := false, done := false, err := true }

/-- `STATUS` as the host reads it: bit 0 `BUSY`, bit 1 `DONE`, bit 2 `ERR` (R24). -/
def Status.word (f : Status) : BitVec 3 := BitVec.ofNat 3 (f.busy.toNat + 2 * f.done.toNat + 4 * f.err.toNat)

/-- The number of an error cause in `ERRCODE` (R220). -/
def errCode : Err → BitVec 4
  | .inputUnavailable => 1
  | .formatTruncated => 2
  | .formatDuplicateKey => 3
  | .encInternal => 4
  | .formatTableFull => 5
  | .badCmd => 6

end Sys2Proof.Machine
end

