-- ==== Sys2Proof/Machine/Ops.lean ====
section
/-! DEFINITION. The shared operations: the accesses to the two streams (20_memory.md), `raise` (60_exceptions.md rule R230), the
end of a run (R208), START (R43, R201), and what several operations do to the tables. -/

namespace Sys2Proof.Machine

/-- The answer of every meaning here: a next state, a fault or a refusal. -/
abbrev Answer := Host.Outcome State Fault Refusal

/-! ### The streams -/

/-- `SrcRead()`: the next byte and the cursor moved, or EOS and the cursor as it was (R53). -/
def srcRead (s : State) : Option Byte × State :=
  match s.src.data[s.src.pos]? with
  | some b => (some b, { s with src := { s.src with pos := s.src.pos + 1 }, trace := .read b :: s.trace })
  | none => (none, { s with trace := .eos :: s.trace })

/-- `SrcRewind()`: the cursor back to the first byte (R54). -/
def srcRewind (s : State) : State :=
  { s with src := { s.src with pos := 0 }, trace := .rewind :: s.trace }

/-- `SinkWrite(b)`: a byte appended to the sink (R56). -/
def sinkWrite (b : Byte) (s : State) : State :=
  { s with snk := { data := s.snk.data ++ [b] }, trace := .write b :: s.trace }

/-- Bytes written to the sink one after another, in order. -/
def sinkWrites : List Byte → State → State
  | [], s => s
  | b :: bs, s => sinkWrites bs (sinkWrite b s)

/-- How many bytes of the source are still to be read. -/
def srcLeft (s : State) : Nat := s.src.data.length - s.src.pos

/-- `n` bytes read one after another; none when the source ends before the last of them (R205). -/
def srcTake : Nat → State → Option (List Byte) × State
  | 0, s => (some [], s)
  | n + 1, s =>
    match srcRead s with
    | (none, s1) => (none, s1)
    | (some c, s1) =>
      match srcTake n s1 with
      | (some cs, s2) => (some (c :: cs), s2)
      | (none, s2) => (none, s2)

/-! ### The two ends of a run -/

/-- `raise E`: what taking an error does, all at once; no state is saved and control goes nowhere (R230). There is no return
from it (R232): only START and reset go on. -/
def raise (e : Err) (s : State) : State :=
  { s with errcode := errCode e, status := .failed, phase := .error }

/-- The end of a run without error: entry to `PHASE` = `DONE`; `ERRCODE` stays (R208). -/
def finish (s : State) : State :=
  { s with status := .ended, phase := .done }

/-! ### START -/

/-- What an accepted START clears before the first component operation (R43). It touches neither stream. R32 leaves `CODE[s].len` and
`CODE[s].bits` unspecified at START; that they keep what they held is the model's choice: DESIGN CHOICE, unsafe (log 30). -/
def initRun (s : State) : State :=
  { s with
    freq := Vector.replicate _ 0
    nsym := 0
    nnodes := 0
    inq := Vector.replicate _ false
    code := mapTable (fun e => { e with valid := false }) s.code
    acc := []
    dn := 0
    cand := []
    status := .running
    errcode := 0 }

/-- Storing `OP` in `CMD`: `START` and bits 6:3 read as 0 (R22). -/
def latchOp (op : BitVec 3) (s : State) : State := { s with cmd := encodeCmd false op }

/-- The first phase of a command; none for a reserved `OP` (R91, R201). -/
def firstPhase (op : BitVec 3) : Option Phase :=
  if op = 1 then some .cFreq
  else if op = 2 then some .dHeader
  else if op = 3 then some .pPack
  else if op = 4 then some .uUnpack
  else none

/-- An accepted START (R201): `OP` latched, the run-owned state cleared, then BAD_CMD before INPUT_UNAVAILABLE (R229), else
the first phase. -/
def start (op : BitVec 3) (s : State) : State :=
  let s1 := initRun (latchOp op s)
  match firstPhase op with
  | none => raise .badCmd s1
  | some p => if s1.src.avail then { s1 with phase := p } else raise .inputUnavailable s1

/-- A write to `CMD` with `START` = 1: an accepted START, or ignored entirely while busy (R201, R210). -/
def writeStart (op : BitVec 3) (s : State) : State :=
  if s.status.busy then s else start op s

/-! ### The encoder's tables -/

/-- All arena indices, ascending (R69). Irreducible, so that no proof walks the 511 of them by accident. -/
@[irreducible] def allIndices : List ArenaIx := List.finRange Config.NODE_CAP

/-- The priority queue `Q`: the indices `i < NNODES` with `INQ[i]` = 1, ascending (R30). -/
def queue (s : State) : List ArenaIx := allIndices.filter (fun i => decide (i.val < s.nnodes) && s.inq[i])

/-- The queue's order: lower frequency first, then lower index, which is earlier arrival (R121). -/
def before (node : Vector Node Config.NODE_CAP) (i j : ArenaIx) : Bool :=
  decide (node[i].freq < node[j].freq) || (decide (node[i].freq = node[j].freq) && decide (i < j))

/-- `argmin_{i in q} (NODE[i].freq, i)`; none of no index (R14, R121). -/
def least (node : Vector Node Config.NODE_CAP) : List ArenaIx → Option ArenaIx
  | [] => none
  | i :: is =>
    match least node is with
    | none => some i
    | some j => if before node i j then some i else some j

/-- A node given the next arena index and put in the queue (R122, R124); none when the arena has no next index. The node is
made from the entry that stands there, so a field its rule does not write keeps its value (log 18). -/
def pushNode (make : Node → Node) (s : State) : Option State :=
  if h : s.nnodes < Config.NODE_CAP then
    some { s with
      node := s.node.set s.nnodes (make (s.node[s.nnodes]'h)) h
      inq := s.inq.set s.nnodes true h
      nnodes := s.nnodes + 1 }
  else none

/-- A node taken out of the queue (R124). -/
def dequeue (i : ArenaIx) (s : State) : State := { s with inq := s.inq.set i.val false i.isLt }

/-- The end of the Tree Builder: when the queue holds one node it is the root and the phase is over (R125, R207). -/
def endBuild (s : State) : State :=
  match queue s with
  | [r] => { s with root := r, phase := .cAssign }
  | _ => s

/-- The bytes of a header entry: symbol, length, packed code (R165). -/
def entryBytes (c : Byte) (e : CodeEntry) : List Byte := c :: e.len :: pack e.bits

/-- The bytes of the header: an entry per valid symbol, ascending (R164; the spec's decision D3). -/
def headerBytes (code : Vector CodeEntry Config.NSYMVALS) : List Byte :=
  allSymbols.flatMap (fun c => if (lookSym code c).valid then entryBytes c (lookSym code c) else [])

/-- The leading bytes of the accumulator written out, `n` of them, the rest retained (R168). -/
def emitBytes : Nat → State → State
  | 0, s => s
  | n + 1, s => emitBytes n { sinkWrite (byteOf s.acc) s with acc := s.acc.drop 8 }

/-! ### The decoder's table -/

/-- The entries of `DTAB` in use: those at indices below `DN` (R34). -/
def usedEntries (s : State) : List DecEntry := s.dtab.toList.take s.dn

/-- The effect of a header entry once its bytes stand in `E_SYM`, `E_LEN`, `E_NB` and `E_BUF`: the key is unpacked, and the
entry inserted unless its key is already there or the table is full, tested in this order (R181, R185, R186, R229). -/
def insertEntry (s : State) : State :=
  let key := unpack (s.eBuf.toList.take s.eNb) s.eLen.toNat
  if (usedEntries s).any (fun e => decide (e.key = key)) then raise .formatDuplicateKey s
  else if h : s.dn < Config.DTAB_CAP then
    { s with dtab := s.dtab.set s.dn { keylen := s.eLen, key := key, sym := s.eSym } h, dn := s.dn + 1 }
  else raise .formatTableFull s

/-- One payload bit given to the matcher: the candidate grows by it and is then looked up; on a match the symbol is written
and the candidate emptied (R189, R190). -/
def matchBit (s : State) (bit : Bool) : State :=
  let cand := s.cand ++ [bit]
  match (usedEntries s).find? (fun e => decide (e.key = cand)) with
  | some e => { sinkWrite e.sym s with cand := [] }
  | none => { s with cand := cand }

/-- The effect of a payload byte once it has been read: its eight bits given to the matcher, bit 7 first (R189). -/
def matchByte (b : Byte) (s : State) : State := (unpack [b] 8).foldl matchBit s

end Sys2Proof.Machine
end

