-- ==== Sys2Proof/Machine/Analyzer.lean ====
section
/-! DEFINITION. The Frequency Analyzer (40_frequency_analyzer.md). -/

namespace Sys2Proof.Machine

/-- `FREQ[b] <- FREQ[b] + 1`, in `CW` bits (R111, R113). -/
def countByte (b : Byte) (s : State) : State := { s with freq := putSym s.freq b (lookSym s.freq b + 1) }

/-- The loop of FREQ_SCAN: read and count until EOS (R111). The first argument is the number of bytes left, so the last read
is the one that returns EOS. -/
def countLoop : Nat → State → State
  | 0, s => (srcRead s).2
  | n + 1, s =>
    match srcRead s with
    | (none, s1) => s1
    | (some b, s1) => countLoop n (countByte b s1)

/-- The number of symbols with a non-zero count (R28, R111). -/
def countSymbols (freq : Vector Count Config.NSYMVALS) : Nat :=
  (allSymbols.filter (fun c => decide (lookSym freq c ≠ 0))).length

/-- FREQ_SCAN (R111). An input longer than the counters can count is refused, as R113 asks (log 14). -/
def execFreqScan (s : State) : Answer :=
  if 2 ^ Config.CW ≤ srcLeft s then .refused .inputTooLong
  else
    let s1 := countLoop (srcLeft s) s
    let k := countSymbols s1.freq
    .next { s1 with nsym := k, phase := if k = 0 then .cHeader else .cBuild }

end Sys2Proof.Machine
end

