-- ==== Sys2Proof/Machine/Coder.lean ====
section
/-! DEFINITION. The Code Assigner (42_code_assigner.md). -/

namespace Sys2Proof.Machine

/-- `visit(i, path)` (R136): pre-order, left before right (R138). The first argument bounds the depth: a path of more than
`MAXLEN` bits has no `len` (R139, U6), and the visit answers none (log 16). -/
def visit (node : Vector Node Config.NODE_CAP) :
    Nat → ArenaIx → BitString → Vector CodeEntry Config.NSYMVALS → Option (Vector CodeEntry Config.NSYMVALS)
  | 0, _, _, _ => none
  | n + 1, i, path, code =>
    match node[i].kind with
    | .leaf => some (putSym code node[i].sym { valid := true, len := BitVec.ofNat 8 path.length, bits := path })
    | .internal =>
      match visit node n node[i].left (path ++ [false]) code with
      | none => none
      | some code1 => visit node n node[i].right (path ++ [true]) code1

/-- CODE_ASSIGN: for one symbol the fixed code "0" (R137), else the walk from `ROOT` (R136). -/
def execCodeAssign (s : State) : Answer :=
  if s.nsym = 1 then
    .next { s with
      code := putSym s.code s.node[(0 : ArenaIx)].sym { valid := true, len := 1, bits := [false] }
      phase := .cHeader }
  else
    match visit s.node (Config.MAXLEN + 1) s.root [] s.code with
    | none => .refused .codeTooLong
    | some code => .next { s with code := code, phase := .cHeader }

end Sys2Proof.Machine
end

