-- ==== Sys2Proof/Machine/Command.lean ====
section
/-! DEFINITION. The meanings of the six `CMD` rows: what the host's write of `CMD` does (47_top_level_operations.md rules R201 to
R210). The run it starts is done by the component operations that `PHASE` selects. -/

namespace Sys2Proof.Machine

/-- COMPRESS: START with `OP` = 1 (R201, R202). -/
def execCompress (s : State) : Answer := .next (writeStart 1 s)

/-- DECOMPRESS: START with `OP` = 2 (R201, R203). -/
def execDecompress (s : State) : Answer := .next (writeStart 2 s)

/-- PACK: START with `OP` = 3 (R201, R204). -/
def execPack (s : State) : Answer := .next (writeStart 3 s)

/-- UNPACK: START with `OP` = 4 (R201, R205). -/
def execUnpack (s : State) : Answer := .next (writeStart 4 s)

/-- CMD_RESERVED: START with a reserved `OP` raises BAD_CMD after the initialisation (R209). -/
def execCmdReserved (op : BitVec 3) (s : State) : Answer := .next (writeStart op s)

/-- CMD_NO_START: while idle only `OP` is stored; while busy the write is ignored (R22, R210). -/
def execCmdNoStart (op : BitVec 3) (s : State) : Answer :=
  .next (if s.status.busy then s else latchOp op s)

end Sys2Proof.Machine
end

