-- ==== Sys2Proof/Machine/Deserializer.lean ====
section
/-! DEFINITION. The Stream Deserializer (46_stream_deserializer.md) and the records it executes (30_encoding.md). -/

namespace Sys2Proof.Machine

/-- HDR_TERM, once its byte has been read: the decoder goes to the payload phase (R86, R181, R182). -/
def execHdrTerm (s : State) : Answer := .next { s with phase := .dPayload }

/-- HDR_ENTRY, once its bytes have been read: they stand in the entry registers and the entry is inserted (R81, R181). -/
def execHdrEntry (symbol codeLength : Byte) (codeBits : List Byte) (s : State) : Answer :=
  .next (insertEntry { s with
    eSym := symbol
    eLen := codeLength
    eNb := ceil8 codeLength.toNat
    eBuf := putBytes s.eBuf 0 codeBits })

/-- PAYLOAD_BYTE, once it has been read: its bits are matched (R88, R189). -/
def execPayloadByte (bits : Byte) (s : State) : Answer := .next (matchByte bits s)

/-- The code bytes of an entry read into `E_BUF[j]`, `E_BUF[j+1]`, ...; false when the source ends first, with the bytes that
were read in place (R181, R184 case 3). -/
def readCode : Nat → Nat → State → Bool × State
  | 0, _, s => (true, s)
  | n + 1, j, s =>
    match srcRead s with
    | (none, s1) => (false, s1)
    | (some c, s1) => readCode n (j + 1) { s1 with eBuf := s1.eBuf.setIfInBounds j c }

/-- DES_HEADER: one record of the header read and executed (R181 to R187). -/
def execDesHeader (s : State) : Answer :=
  match srcRead s with
  | (none, s1) => .next (raise .formatTruncated s1)
  | (some b, s1) =>
    if b = Config.TERM then .next { s1 with phase := .dPayload }
    else
      match srcRead { s1 with eSym := b } with
      | (none, s2) => .next (raise .formatTruncated s2)
      | (some l, s2) =>
        match readCode (ceil8 l.toNat) 0 { s2 with eLen := l, eNb := ceil8 l.toNat } with
        | (false, s3) => .next (raise .formatTruncated s3)
        | (true, s3) => .next (insertEntry s3)

/-- DES_PAYLOAD: one payload byte read and matched; at EOS the candidate is dropped and the run is over (R189 to R191). -/
def execDesPayload (s : State) : Answer :=
  match srcRead s with
  | (none, s1) => .next (finish { s1 with cand := [] })
  | (some b, s1) => .next (matchByte b s1)

end Sys2Proof.Machine
end

