-- ==== Sys2Proof/Machine/Packer.lean ====
section
/-! DEFINITION. The Bit Packer and the Bit Unpacker as the PACK and UNPACK commands run them (43_bit_packer.md,
44_bit_unpacker.md, 47_top_level_operations.md rules R204, R205; log 7). -/

namespace Sys2Proof.Machine

/-- The loop of PACK: characters read until EOS, their bits appended to the working buffer `ACC`; false when one is neither '0' nor
'1', with the bits before it in `ACC` (R33, R146, R148, R204). The first argument is the number of bytes left. -/
def readChars : Nat → State → Bool × State
  | 0, s => (true, (srcRead s).2)
  | n + 1, s =>
    match srcRead s with
    | (none, s1) => (true, s1)
    | (some c, s1) =>
      match charBit c with
      | some b => readChars n { s1 with acc := s1.acc ++ [b] }
      | none => (false, s1)

/-- PACK_BITS on the source's characters: everything is read into `ACC` and checked, then `pack` of it is written and `ACC` is empty
again; an error leaves `ACC` as it is (R33, R147, R148, R204, R230, R253; log 11). -/
def execPackBits (s : State) : Answer :=
  match readChars (srcLeft s) { s with acc := [] } with
  | (false, s1) => .next (raise .encInternal s1)
  | (true, s1) => .next (finish { sinkWrites (pack s1.acc) s1 with acc := [] })

/-- UNPACK_BITS on the source's bytes: ceil8(`LEN_ARG`) bytes are read, then the first `LEN_ARG` bits are written as
characters (R156, R157, R160, R205). -/
def execUnpackBits (s : State) : Answer :=
  match srcTake (ceil8 s.lenArg.toNat) s with
  | (none, s1) => .next (raise .formatTruncated s1)
  | (some buf, s1) => .next (finish (sinkWrites ((unpack buf s.lenArg.toNat).map bitChar) s1))

end Sys2Proof.Machine
end

