-- ==== Sys2Proof/Machine/Serializer.lean ====
section
/-! DEFINITION. The Stream Serializer (45_stream_serializer.md). -/

namespace Sys2Proof.Machine

/-- SER_HEADER (R164, R165). -/
def execSerHeader (s : State) : Answer :=
  .next { sinkWrites (headerBytes s.code) s with phase := .cTerm }

/-- SER_TERM (R166), and what entering `C_PAYLOAD` does once: the rewind and the empty accumulator (R167, R207; log 9). -/
def execSerTerm (s : State) : Answer :=
  .next { srcRewind (sinkWrite Config.TERM s) with phase := .cPayload, acc := [] }

/-- SER_PAYLOAD: one input byte (R168); a byte without a code raises ENC_INTERNAL (R169). -/
def execSerPayload (s : State) : Answer :=
  match srcRead s with
  | (none, s1) => .next { s1 with phase := .cFlush }
  | (some b, s1) =>
    if (lookSym s1.code b).valid then
      let acc := s1.acc ++ (lookSym s1.code b).bits
      .next (emitBytes (acc.length / 8) { s1 with acc := acc })
    else .next (raise .encInternal s1)

/-- SER_FLUSH: the leftover bits zero-padded to one byte, if there are any; then the run is over (R171, R208). -/
def execSerFlush (s : State) : Answer :=
  .next (finish (if s.acc = [] then s else { sinkWrite (byteOf s.acc) s with acc := [] }))

end Sys2Proof.Machine
end

