-- ==== Sys2Proof/Machine/Tree.lean ====
section
/-! DEFINITION. The Tree Builder (41_tree_builder.md). -/

namespace Sys2Proof.Machine

/-- The loop of TREE_SEED: a leaf for every symbol with a non-zero count (R122). -/
def seedLeaves : List Byte → State → Option State
  | [], s => some s
  | c :: cs, s =>
    if lookSym s.freq c = 0 then seedLeaves cs s
    else
      match pushNode (fun old => { old with kind := .leaf, sym := c, freq := lookSym s.freq c }) s with
      | none => none
      | some s1 => seedLeaves cs s1

/-- TREE_SEED (R122), and the end of the phase when one leaf is all there is (R125, R126; log 9). -/
def execTreeSeed (s : State) : Answer :=
  match seedLeaves allSymbols s with
  | none => .fault .arenaFull
  | some s1 => .next (endBuild s1)

/-- The new internal node of a merge: its frequency is the sum, its children the removed nodes, first removed left (R124). -/
def mergeNode (node : Vector Node Config.NODE_CAP) (a b : ArenaIx) (old : Node) : Node :=
  { old with kind := .internal, freq := node[a].freq + node[b].freq, left := a, right := b }

/-- TREE_MERGE (R124), and the end of the phase when one node remains (R123, R125). A queue of one node is merged no further; a
queue of none, which no run has, is a fault (log 15). -/
def execTreeMerge (s : State) : Answer :=
  match least s.node (queue s) with
  | none => .fault .queueEmpty
  | some a =>
    let s1 := dequeue a s
    match least s1.node (queue s1) with
    | none => .next (endBuild s)
    | some b =>
      match pushNode (mergeNode s.node a b) (dequeue b s1) with
      | none => .fault .arenaFull
      | some s2 => .next (endBuild s2)

end Sys2Proof.Machine
end

