-- ==== Sys2Proof/Machine/Dispatch.lean ====
section
/-! DEFINITION. The meaning of every instruction, one arm each. -/

namespace Sys2Proof.Machine

def exec (i : Instr) (s : State) : Host.Outcome State Fault Refusal :=
  match i with
  -- the host's writes of CMD
  | .compress => Sys2Proof.Machine.execCompress s
  | .decompress => Sys2Proof.Machine.execDecompress s
  | .pack => Sys2Proof.Machine.execPack s
  | .unpack => Sys2Proof.Machine.execUnpack s
  | .cmdReserved op => Sys2Proof.Machine.execCmdReserved op s
  | .cmdNoStart op => Sys2Proof.Machine.execCmdNoStart op s
  -- the records of the compressed stream
  | .hdrTerm => Sys2Proof.Machine.execHdrTerm s
  | .hdrEntry symbol codeLength codeBits => Sys2Proof.Machine.execHdrEntry symbol codeLength codeBits s
  | .payloadByte bits => Sys2Proof.Machine.execPayloadByte bits s
  -- the component operations
  | .freqScan => Sys2Proof.Machine.execFreqScan s
  | .treeSeed => Sys2Proof.Machine.execTreeSeed s
  | .treeMerge => Sys2Proof.Machine.execTreeMerge s
  | .codeAssign => Sys2Proof.Machine.execCodeAssign s
  | .packBits => Sys2Proof.Machine.execPackBits s
  | .unpackBits => Sys2Proof.Machine.execUnpackBits s
  | .serHeader => Sys2Proof.Machine.execSerHeader s
  | .serTerm => Sys2Proof.Machine.execSerTerm s
  | .serPayload => Sys2Proof.Machine.execSerPayload s
  | .serFlush => Sys2Proof.Machine.execSerFlush s
  | .desHeader => Sys2Proof.Machine.execDesHeader s
  | .desPayload => Sys2Proof.Machine.execDesPayload s

end Sys2Proof.Machine
end

