-- ==== Sys2Proof/Machine/Sequencer.lean ====
section
/-! DEFINITION. What runs next: the operation `PHASE` selects (47_top_level_operations.md rules R206, R207), and what each of the
host's acts does (R211; 70_reset_and_hazards.md). -/

namespace Sys2Proof.Machine

/-- The component operation `PHASE` selects; none in `IDLE`, `DONE` and `ERROR` (R206, R207, R208, R232). TREE_SEED is the first
operation of `C_BUILD`, which `NNODES` = 0 tells (R122; log 10). -/
def selected (s : State) : Option Instr :=
  match s.phase with
  | .idle => none
  | .cFreq => some .freqScan
  | .cBuild => if s.nnodes = 0 then some .treeSeed else some .treeMerge
  | .cAssign => some .codeAssign
  | .cHeader => some .serHeader
  | .cTerm => some .serTerm
  | .cPayload => some .serPayload
  | .cFlush => some .serFlush
  | .dHeader => some .desHeader
  | .dPayload => some .desPayload
  | .pPack => some .packBits
  | .uUnpack => some .unpackBits
  | .done => none
  | .error => none

/-- Whether the block is in a phase of COMPRESS (R207). -/
def inCompress : Phase → Bool
  | .cFreq | .cBuild | .cAssign | .cHeader | .cTerm | .cPayload | .cFlush => true
  | .idle | .dHeader | .dPayload | .pPack | .uUnpack | .done | .error => false

/-- Reset: every register at its reset value, a run abandoned without `DONE` and without `ERR`, the two streams, the reset input and
what the host is still to do untouched (R250, R251; log 28). -/
def resetBlock (s : State) : State :=
  { State.reset with src := s.src, snk := s.snk, rst := s.rst, inbox := s.inbox, trace := s.trace }

/-- The block on its own: held in reset while `rst` is asserted (R250); else it does the selected operation, or nothing until the next
START (R208; log 24). -/
def advance (s : State) : Answer :=
  if s.rst then .next (resetBlock s)
  else
    match selected s with
    | some i => exec i s
    | none => .next s

/-- What an act of the host does; `s` is the state without the act in its inbox. While `rst` is asserted the block is held in
reset, so a write of `CMD` or `LEN_ARG` has no effect (R250). -/
def hostAct (a : HostAct) (s : State) : Answer :=
  match a with
  | .writeCmd b => if s.rst then .next (resetBlock s) else exec (decodeCmd b) s
  | .writeLenArg v =>
    if s.rst then .next (resetBlock s)
    else if s.status.busy then .refused .hostDuty
    else .next { s with lenArg := v }
  | .assertRst => .next (resetBlock { s with rst := true })
  | .releaseRst => .next { s with rst := false }
  | .presentSource avail data pos =>
    if s.status.busy then .refused .hostDuty
    else if data.length < pos then .refused .cursorPastEnd
    else .next { s with src := { avail := avail, data := data, pos := pos } }
  | .changeSource data =>
    if s.status.busy && !inCompress s.phase then .refused .hostDuty
    else .next { s with src := { s.src with data := data, pos := min s.src.pos data.length } }
  | .presentSink data => if s.status.busy then .refused .hostDuty else .next { s with snk := { data := data } }
  | .pass => advance s
  | .poll => if s.status.busy then advance { s with inbox := .poll :: s.inbox } else .next s

/-- `STATUS` as the host reads it (R24). -/
def hostReadStatus (s : State) : BitVec 3 := s.status.word

/-- `ERRCODE` as the host reads it (R25). -/
def hostReadErrcode (s : State) : BitVec 4 := s.errcode

/-- `CMD` as the host reads it: `START` and bits 6:3 read as 0 (R22). R22 calls `CMD` host-writable and block-readable, and R211 and R240
list no read of it by the host; that the host can read it, and that `OP` then reads as latched, is the model's choice: DESIGN CHOICE,
unsafe (log 31). -/
def hostReadCmd (s : State) : BitVec 8 := encodeCmd false (opField s.cmd)

end Sys2Proof.Machine
end

