-- ==== Sys2Proof/Machine/Step.lean ====
section
/-! DEFINITION. One step of the machine: the host's next act, or, when the host does nothing, the block on its own. -/

namespace Sys2Proof.Machine

/-- One step. An act of the host lands between two component operations (R250, R262; log 3, log 23). -/
def step (s : State) : Host.Outcome State Fault Refusal :=
  match s.inbox with
  | a :: rest => hostAct a { s with inbox := rest }
  | [] => advance s

/-- The state in which the very next step fetches and runs the instruction an opcode-table word stands for: the host's write of
that value to `CMD`, put before everything else the host is to do. The block stores no program (R21, R66): a `CMD` write is the
only instruction that comes to it from outside by its bits, and a component operation is selected by `PHASE` (log 4, log 5). A block
held in reset takes no write, so `rst` is released. A word of no bits is no instruction, and nothing is put. -/
def State.withFetchWord (s : State) (nbits w : Nat) : State :=
  match wordBytes ((nbits + 7) / 8) w with
  | [] => s
  | b :: _ => { s with rst := false, inbox := .writeCmd b :: s.inbox }

end Sys2Proof.Machine
end

