-- ==== Sys2Proof/Safety.lean ====
section
/-! DEFINITION. What claims about the machine speak of: runs, the invariants of a state, the tree and the code table as the
rules describe them. -/

namespace Sys2Proof.Machine

/-! ### Runs -/

/-- `t` is reached from `s` by steps that all answer a next state. -/
abbrev Reaches : State → State → Prop := Relation.ReflTransGen (fun a b => step a = .next b)

/-- `k` steps, stopping at the first fault or refusal. -/
def runSteps : Nat → State → Answer
  | 0, s => .next s
  | k + 1, s =>
    match step s with
    | .next t => runSteps k t
    | .fault f => .fault f
    | .refused r => .refused r

/-- The block is ready for a run of its own: reset released, not busy, nothing else the host is to do, the source presented at position
0 with this content, and the sink empty (R254). -/
structure Ready (s : State) (content : List Byte) : Prop where
  free    : s.rst = false
  notBusy : s.status.busy = false
  alone   : s.inbox = []
  source  : s.src = { avail := true, data := content, pos := 0 }
  sink    : s.snk.data = []

/-- The state in which the host writes `CMD`, and after that does nothing. -/
def commanded (s : State) (cmd : Byte) : State := { s with inbox := [.writeCmd cmd] }

/-- The state once these bytes have been read from the source, which held them next: the cursor is past them and the observer
has seen the reads (R53, R62). -/
def afterReads (bytes : List Byte) (s : State) : State :=
  { s with
    src := { s.src with pos := s.src.pos + bytes.length }
    trace := (bytes.map Access.read).reverse ++ s.trace }

/-- The state once a read has returned EOS (R53). -/
def atEos (s : State) : State := { s with trace := .eos :: s.trace }

/-- The state once these bytes have been written to the sink, in order (R56, R62). -/
def afterWrites (bytes : List Byte) (s : State) : State :=
  { s with
    snk := { data := s.snk.data ++ bytes }
    trace := (bytes.map Access.write).reverse ++ s.trace }

/-- What is still to be read from the source. -/
def unread (s : State) : List Byte := s.src.data.drop s.src.pos

/-- The bytes an access list, newest first, wrote to the sink, in the order they were written. -/
def writesOf (trace : List Access) : List Byte :=
  trace.reverse.filterMap (fun a => match a with | .write b => some b | .read _ | .eos | .rewind => none)

/-- The bytes an access list, newest first, read from the source, in the order they were read. -/
def readsOf (trace : List Access) : List Byte :=
  trace.reverse.filterMap (fun a => match a with | .read b => some b | .write _ | .eos | .rewind => none)

/-! ### What rules list -/

/-- The values of the table of R251, register by register, "unspecified" left out. -/
structure ResetValues (t : State) : Prop where
  cmd     : t.cmd = 0x00
  lenArg  : t.lenArg = 0
  busy    : t.status.busy = false
  done    : t.status.done = false
  err     : t.status.err = false
  errcode : t.errcode = 0
  phase   : t.phase = .idle
  freq    : ∀ c, lookSym t.freq c = 0
  nsym    : t.nsym = 0
  inq     : ∀ i : ArenaIx, t.inq[i] = false
  nnodes  : t.nnodes = 0
  valid   : ∀ c, (lookSym t.code c).valid = false
  acc     : t.acc = []
  dn      : t.dn = 0
  cand    : t.cand = []

/-- What an accepted START leaves of a state, before the first component operation: `OP` latched, the registers R43 lists
cleared, the code table `code`, everything else as it was. -/
def startedRun (op : BitVec 3) (code : Vector CodeEntry Config.NSYMVALS) (s : State) : State :=
  { s with
    cmd := op.setWidth 8
    freq := Vector.replicate _ 0
    nsym := 0
    nnodes := 0
    inq := Vector.replicate _ false
    code := code
    acc := []
    dn := 0
    cand := []
    status := { busy := true, done := false, err := false }
    errcode := 0 }

/-- What a `raise` leaves of a state: the number in `ERRCODE`, `STATUS` = {`ERR`}, `PHASE` = `ERROR`, everything else as it was
(R230). -/
def failedWith (code : BitVec 4) (s : State) : State :=
  { s with errcode := code, status := { busy := false, done := false, err := true }, phase := .error }

/-- What the end of a run without error leaves of a state: `STATUS` = {`DONE`}, `PHASE` = `DONE`, everything else as it was
(R208). -/
def endedRun (s : State) : State :=
  { s with status := { busy := false, done := true, err := false }, phase := .done }

/-- Node `i` comes before node `j` in the priority queue (R121). -/
def Earlier (node : Vector Node Config.NODE_CAP) (i j : ArenaIx) : Prop :=
  node[i].freq < node[j].freq ∨ node[i].freq = node[j].freq ∧ i < j

/-- The characters of a bit-string: 0x30 for a 0 bit, 0x31 for a 1 bit (R97). -/
def chars (bits : BitString) : List Byte := bits.map (fun b => if b then 0x31 else 0x30)

/-- The symbols that have a code, ascending. -/
def codedSymbols (code : Vector CodeEntry Config.NSYMVALS) : List Byte :=
  allSymbols.filter (fun c => (lookSym code c).valid)

/-- The concatenated codes of a byte list, in order (R149, R172). -/
def codesOf (code : Vector CodeEntry Config.NSYMVALS) (bytes : List Byte) : BitString :=
  bytes.flatMap (fun b => (lookSym code b).bits)

/-- The pad bits after `l` payload bits (R17, R172). -/
def padBits (l : Nat) : Nat := (8 - l % 8) % 8

/-- What matching a bit-string against the entries of a decode table gives, from a candidate: the candidate grows by one bit at a
time and is then looked up; a key that equals it gives its symbol and an empty candidate (R190). -/
inductive Decodes (table : List DecEntry) : BitString → BitString → List Byte → Prop where
  | nil (cand : BitString) : Decodes table cand [] []
  | hit (cand : BitString) (bit : Bool) (bits : BitString) (e : DecEntry) (out : List Byte)
      (he : e ∈ table) (hk : e.key = cand ++ [bit]) (h : Decodes table [] bits out) :
      Decodes table cand (bit :: bits) (e.sym :: out)
  | miss (cand : BitString) (bit : Bool) (bits : BitString) (out : List Byte)
      (hn : ∀ e ∈ table, e.key ≠ cand ++ [bit]) (h : Decodes table (cand ++ [bit]) bits out) :
      Decodes table cand (bit :: bits) out

/-- A header entry as the decoder's table holds it: the key is the first `code_length` bits of the code bytes (R84, R181). -/
def tableEntry (symbol codeLength : Byte) (codeBits : List Byte) : DecEntry :=
  { keylen := codeLength, key := unpack codeBits codeLength.toNat, sym := symbol }

/-! ### The invariant of every state -/

/-- The `STATUS` that goes with a phase (R24, R43, R208, R230, R240, R251). -/
def statusOf : Phase → Status
  | .idle => Status.clear
  | .done => Status.ended
  | .error => Status.failed
  | .cFreq | .cBuild | .cAssign | .cHeader | .cTerm | .cPayload | .cFlush
  | .dHeader | .dPayload | .pPack | .uUnpack => Status.running

/-- What holds of the registers between any two steps: the constraints of 10_state.md on each of them. -/
structure State.Inv (s : State) : Prop where
  /-- the cursor is not past the end of the source (R38, R52) -/
  memory  : Memory.wf s.src
  /-- `START` and bits 6:3 of `CMD` read as 0 (R22) -/
  cmd     : s.cmd &&& 0xF8 = 0
  /-- at most one flag is set, the one that goes with the phase (R24) -/
  status  : s.status = statusOf s.phase
  /-- `ERRCODE` is 0 unless the last run ended in an error, and then it is the number of a cause (R25, R220) -/
  errcode : if s.phase = .error then ∃ e, s.errcode = errCode e else s.errcode = 0
  /-- the counts fit their registers (R28, R31, R34, R36) -/
  nsym    : s.nsym ≤ 256
  nnodes  : s.nnodes ≤ 511
  dn      : s.dn ≤ 256
  eNb     : s.eNb ≤ 32
  /-- fewer than eight bits are carried from one input byte to the next; only a PACK that met a bad character leaves more
  (R33, R168, R204, R230; log 11) -/
  acc     : s.acc.length ≤ 7 ∨ s.phase = .error ∧ s.errcode = errCode .encInternal
  /-- bits are carried only in the payload phases; an error keeps them (R33, R171, R230, R253) -/
  accIn   : s.acc ≠ [] → s.phase = .cPayload ∨ s.phase = .cFlush ∨ s.phase = .error
  candIn  : s.cand ≠ [] → s.phase = .dPayload
  /-- no two entries of the decode table in use have equal keys (R34, R185) -/
  keys    : (usedEntries s).Pairwise (fun e f => e.key ≠ f.key)
  /-- `keylen` is the length of `key` (R34) -/
  keylen  : ∀ e ∈ usedEntries s, e.key.length = e.keylen.toNat
  /-- while `rst` is asserted every register is at its reset value (R250, R251) -/
  held    : s.rst = true → ResetValues s

/-! ### The tree and the code table -/

/-- The symbols with a non-zero count, ascending (R27). -/
def presentSymbols (freq : Vector Count Config.NSYMVALS) : List Byte :=
  allSymbols.filter (fun c => decide (lookSym freq c ≠ 0))

/-- The arena entries reached from `i` form a strict binary tree, and these are its leaves' symbols with the turns that lead to
each, 0 for left and 1 for right, first turn first (R29, R120, R136). -/
inductive TreeAt (node : Vector Node Config.NODE_CAP) : ArenaIx → List (Byte × BitString) → Prop where
  | leaf (i : ArenaIx) (h : node[i].kind = .leaf) : TreeAt node i [(node[i].sym, [])]
  | internal (i : ArenaIx) (l r : List (Byte × BitString)) (h : node[i].kind = .internal)
      (hl : TreeAt node node[i].left l) (hr : TreeAt node node[i].right r) :
      TreeAt node i (l.map (fun x => (x.1, false :: x.2)) ++ r.map (fun x => (x.1, true :: x.2)))

/-- The queue holds the roots of disjoint trees whose leaves are exactly the input's symbols, each once, and the arena is
filled as R128 says. -/
def Forest (s : State) : Prop :=
  (∀ i : ArenaIx, i.val < s.nnodes → s.node[i].kind = .internal →
    s.node[i].left.val < i.val ∧ s.node[i].right.val < i.val) ∧
  (queue s).length + s.nnodes = 2 * (presentSymbols s.freq).length ∧
  ∃ codes : ArenaIx → List (Byte × BitString),
    (∀ i ∈ queue s, TreeAt s.node i (codes i)) ∧
    ((queue s).flatMap (fun i => (codes i).map Prod.fst)).Perm (presentSymbols s.freq)

/-- The laws of the code table of a run: exactly the input's symbols have a code (R139), 1 to 255 bits long and as long as
`len` says (R32, R139), no code a prefix of another (R140), and the Kraft sum is 1, or 1/2 for one symbol (R141). -/
structure CodeLaws (s : State) : Prop where
  valid  : ∀ c, (lookSym s.code c).valid = true ↔ lookSym s.freq c ≠ 0
  len    : ∀ c, (lookSym s.code c).valid = true →
    (lookSym s.code c).bits.length = (lookSym s.code c).len.toNat ∧ 1 ≤ (lookSym s.code c).len.toNat
  free   : ∀ c d, (lookSym s.code c).valid = true → (lookSym s.code d).valid = true → c ≠ d →
    ¬ (lookSym s.code c).bits <+: (lookSym s.code d).bits
  kraft  : 2 ≤ s.nsym →
    ((presentSymbols s.freq).map (fun c => (1 / 2 : ℚ) ^ (lookSym s.code c).len.toNat)).sum = 1
  single : s.nsym = 1 → ∀ c ∈ presentSymbols s.freq, (lookSym s.code c).bits = [false]

/-- The encoder's tables hold nothing: as reset and an accepted START leave them (R43, R251). -/
structure TablesClear (s : State) : Prop where
  freq   : ∀ c, lookSym s.freq c = 0
  nsym   : s.nsym = 0
  nnodes : s.nnodes = 0
  inq    : ∀ i : ArenaIx, s.inq[i] = false
  valid  : ∀ c, (lookSym s.code c).valid = false

/-- What holds of the encoder's tables in each phase: they are clear after reset, at the start of COMPRESS and in the other commands;
in COMPRESS each operation's precondition holds, as its rule states it, and what the operations before it have built. -/
def State.EncInv (s : State) : Prop :=
  match s.phase with
  | .idle | .cFreq | .dHeader | .dPayload | .pPack | .uUnpack => TablesClear s
  | .cBuild =>
    s.nsym = (presentSymbols s.freq).length ∧ 1 ≤ s.nsym ∧ (∀ c, (lookSym s.code c).valid = false) ∧
      (s.nnodes = 0 ∨ Forest s ∧ 2 ≤ (queue s).length)
  | .cAssign =>
    s.nsym = (presentSymbols s.freq).length ∧ 1 ≤ s.nsym ∧ (∀ c, (lookSym s.code c).valid = false) ∧
      Forest s ∧ queue s = [s.root]
  | .cHeader | .cTerm | .cPayload | .cFlush => s.nsym = (presentSymbols s.freq).length ∧ CodeLaws s
  | .done | .error => True

/-! ### What the host can observe -/

/-- Two states show the host the same: `STATUS`, `ERRCODE`, the sink, the source (R19, R57). -/
def SameToHost (a b : State) : Prop :=
  a.status = b.status ∧ a.errcode = b.errcode ∧ a.snk = b.snk ∧ a.src = b.src

end Sys2Proof.Machine
end

