-- ==== Sys2Proof/Certificates/Slice0/Obligations.lean ====
section
/-! DEFINITION. The statements about the machine, taken from the numbered rules of spec/. A statement that names a register's
new value states the whole next state; every field it does not name is unchanged. Where that state has had bytes read or written
(`afterReads`, `atEos`, `afterWrites`) it has them in the model's record of accesses too (log 6). -/

open Sys2Proof Sys2Proof.Machine

/-! ### Encodings -/

/-- Decoding the encoding of a well-formed instruction gives it back, whatever bytes follow, with every operand at every value
(R81, R86, R88, R90). -/
def Obligations.DecodeUndoesEncode : Prop :=
  ∀ (i : Instr) (c : Context) (bs rest : List Byte),
    i.wellFormed = true → encode i = some (c, bs) → decode c (bs ++ rest) = .ok (i, rest)

/-- What is decoded is well formed and stands at the front of the bytes, letter for letter; of a `CMD` value only bits 6:3 are
lost, which the block ignores (R22, R81, R85, R87, R90). -/
def Obligations.EncodeUndoesDecode : Prop :=
  ∀ (c : Context) (bs rest : List Byte) (i : Instr), decode c bs = .ok (i, rest) →
    i.wellFormed = true ∧ ∃ hd, bs = hd ++ rest ∧
      (c ≠ .command ∧ encode i = some (c, hd) ∨
        ∃ b, c = .command ∧ hd = [b] ∧ encode i = some (c, [b &&& 0x87]))

/-- The six `CMD` rows of the opcode table partition all 256 values, by the table's match and mask (R91, R92, R99). -/
def Obligations.CommandRowsPartitionAllValues : Prop :=
  ∀ b : Byte,
    (decodeCmd b = .compress ↔ b &&& 0x87 = 0x81) ∧
    (decodeCmd b = .decompress ↔ b &&& 0x87 = 0x82) ∧
    (decodeCmd b = .pack ↔ b &&& 0x87 = 0x83) ∧
    (decodeCmd b = .unpack ↔ b &&& 0x87 = 0x84) ∧
    (decodeCmd b = .cmdReserved (b.extractLsb' 0 3) ↔
      b &&& 0x87 = 0x80 ∨ b &&& 0x87 = 0x85 ∨ b &&& 0x87 = 0x86 ∨ b &&& 0x87 = 0x87) ∧
    (decodeCmd b = .cmdNoStart (b.extractLsb' 0 3) ↔ b &&& 0x80 = 0x00)

/-- Words written out from the spec's encodings decode to the instructions they stand for (R81, R84, R86, R88, R91). -/
def Obligations.WrittenWordsDecode : Prop :=
  decode .command [0b10000001] = .ok (.compress, []) ∧
  decode .command [0b11111010] = .ok (.decompress, []) ∧
  decode .command [0b10000101] = .ok (.cmdReserved 5, []) ∧
  decode .command [0b00000011] = .ok (.cmdNoStart 3, []) ∧
  decode .header [0b00000000, 0x62] = .ok (.hdrTerm, [0x62]) ∧
  decode .header [0x62, 0x02, 0b11000000, 0x00] = .ok (.hdrEntry 0x62 0x02 [0xC0], [0x00]) ∧
  decode .header [0x7A, 0x0A, 0b11111111, 0b01000000] = .ok (.hdrEntry 0x7A 0x0A [0xFF, 0x40], []) ∧
  decode .payload [0b00011111, 0x00] = .ok (.payloadByte 0x1F, [0x00])

/-! ### What a step runs -/

/-- With `rst` released a `CMD` write of the host is run as the instruction its value decodes to, before anything else. So is an
opcode-table word that `decodeTableWord` reads: as a `CMD` value, whatever row it is of, so that 0x00 runs CMD_NO_START and not HDR_TERM.
The list of the host's acts is the model's choice (log 3), and so are the placing of the word (log 4) and its reading as a `CMD` value
(log 5). -/
def Obligations.StepRunsTheHostsCommand : Prop :=
  (∀ (s : State) (b : Byte) (rest : List HostAct), s.rst = false → s.inbox = .writeCmd b :: rest →
    step s = exec (decodeCmd b) { s with inbox := rest }) ∧
  (∀ (s : State) (nbits w : Nat) (i : Instr), decodeTableWord nbits w = some i →
    step (s.withFetchWord nbits w) = exec i { s with rst := false })

/-- With no act of the host and `rst` released, `PHASE` selects what runs; in `IDLE`, `DONE` and `ERROR` nothing does (R206, R207, R208,
R232). That `NNODES` = 0 tells TREE_SEED from TREE_MERGE is the model's reading (log 10), and so are PACK_BITS and UNPACK_BITS as the
whole of `P_PACK` and `U_UNPACK` (log 7) and the step that leaves the state as it is where nothing runs (log 24). -/
def Obligations.StepRunsTheOperationOfThePhase : Prop :=
  ∀ s : State, s.inbox = [] → s.rst = false →
    (s.phase = .cFreq → step s = exec .freqScan s) ∧
    (s.phase = .cBuild → s.nnodes = 0 → step s = exec .treeSeed s) ∧
    (s.phase = .cBuild → s.nnodes ≠ 0 → step s = exec .treeMerge s) ∧
    (s.phase = .cAssign → step s = exec .codeAssign s) ∧
    (s.phase = .cHeader → step s = exec .serHeader s) ∧
    (s.phase = .cTerm → step s = exec .serTerm s) ∧
    (s.phase = .cPayload → step s = exec .serPayload s) ∧
    (s.phase = .cFlush → step s = exec .serFlush s) ∧
    (s.phase = .dHeader → step s = exec .desHeader s) ∧
    (s.phase = .dPayload → step s = exec .desPayload s) ∧
    (s.phase = .pPack → step s = exec .packBits s) ∧
    (s.phase = .uUnpack → step s = exec .unpackBits s) ∧
    (s.phase = .idle ∨ s.phase = .done ∨ s.phase = .error → step s = .next s)

/-- In the decoder's phases a step is the execution of the record that stands at the source's cursor, on the state in which the
record's bytes have been read (R87, R181, R189). That a record's meaning starts there is the model's reading (log 27). -/
def Obligations.StepRunsTheRecordAtTheCursor : Prop :=
  ∀ (s : State) (i : Instr) (record rest : List Byte), s.inbox = [] → s.rst = false → unread s = record ++ rest →
    (s.phase = .dHeader → decode .header (unread s) = .ok (i, rest) → step s = exec i (afterReads record s)) ∧
    (s.phase = .dPayload → decode .payload (unread s) = .ok (i, rest) → step s = exec i (afterReads record s))

/-- The host's other acts (R23, R66, R254, R257, R262). While idle it writes `LEN_ARG` and presents the source and the sink, and a poll is
over; while busy the spec asks a model to have no such transition, and a poll goes on while the block does its operation. It changes
the source's content while idle and, against its duty, in a COMPRESS run, not in another. It lets the block do one operation. The acts in
a list are the model's choice (log 3), and so are the form of the refusals (log 12, log 29), the cursor after a change of the content
(log 13), and that the streams are the host's while `rst` is asserted too (log 28); the step that leaves the state as it is where nothing
runs is its reading (log 24). What `rst` does to the block and to a write of `LEN_ARG` is ResetHoldsTheBlock's to say. -/
def Obligations.HostActsBetweenRuns : Prop :=
  ∀ (s : State) (rest : List HostAct) (v : BitVec 32) (avail : Bool) (data : List Byte) (pos : Nat),
    (s.status.busy = false →
      (s.rst = false → step { s with inbox := .writeLenArg v :: rest } = .next { s with inbox := rest, lenArg := v }) ∧
      step { s with inbox := .presentSink data :: rest } = .next { s with inbox := rest, snk := { data := data } } ∧
      step { s with inbox := .poll :: rest } = .next { s with inbox := rest } ∧
      (pos ≤ data.length → step { s with inbox := .presentSource avail data pos :: rest } =
        .next { s with inbox := rest, src := { avail := avail, data := data, pos := pos } }) ∧
      (data.length < pos → step { s with inbox := .presentSource avail data pos :: rest } = .refused .cursorPastEnd)) ∧
    (s.status.busy = true →
      (s.rst = false → step { s with inbox := .writeLenArg v :: rest } = .refused .hostDuty) ∧
      step { s with inbox := .presentSink data :: rest } = .refused .hostDuty ∧
      step { s with inbox := .presentSource avail data pos :: rest } = .refused .hostDuty ∧
      (s.rst = false →
        (∀ i, selected s = some i →
          step { s with inbox := .poll :: rest } = exec i { s with inbox := .poll :: rest }) ∧
        (selected s = none → step { s with inbox := .poll :: rest } = .next { s with inbox := .poll :: rest }))) ∧
    (s.status.busy = false ∨ inCompress s.phase = true →
      step { s with inbox := .changeSource data :: rest } = .next { s with
        inbox := rest
        src := { avail := s.src.avail, data := data, pos := min s.src.pos data.length } }) ∧
    (s.status.busy = true → inCompress s.phase = false →
      step { s with inbox := .changeSource data :: rest } = .refused .hostDuty) ∧
    (s.rst = false →
      (∀ i, selected s = some i → step { s with inbox := .pass :: rest } = exec i { s with inbox := rest }) ∧
      (selected s = none → step { s with inbox := .pass :: rest } = .next { s with inbox := rest }))

/-- Asserting `rst`, at any time, leaves the values of R251 and touches neither stream; the state after power-on has them too (R250,
R251). The values R251 leaves unspecified are the model's (log 1) and are not stated; that the host's assertion is an act in a list is
the model's too (log 3, log 28). -/
def Obligations.ResetLeavesTheResetValues : Prop :=
  ResetValues State.reset ∧
  ∀ (s : State) (rest : List HostAct), s.inbox = .assertRst :: rest →
    ∃ t, step s = .next t ∧ ResetValues t ∧ t.rst = true ∧ t.src = s.src ∧ t.snk = s.snk ∧ t.trace = s.trace ∧ t.inbox = rest

/-- While `rst` is asserted the block is held in the state of R251: on its own, while the host lets it run, and under every write of
`CMD` and of `LEN_ARG`, it has the reset values after the step, makes no access, and `rst` stays asserted until the host releases it,
which changes nothing else (R250, R251). The form of the host's acts is the model's (log 3, log 28). -/
def Obligations.ResetHoldsTheBlock : Prop :=
  (∀ s : State, s.rst = true →
    (s.inbox = [] ∨ ∃ a rest, s.inbox = a :: rest ∧
      (a = .pass ∨ (∃ b, a = .writeCmd b) ∨ ∃ v, a = .writeLenArg v)) →
    ∃ t, step s = .next t ∧ ResetValues t ∧ t.rst = true ∧ t.src = s.src ∧ t.snk = s.snk ∧ t.trace = s.trace ∧
      t.inbox = s.inbox.tail) ∧
  (∀ (s : State) (rest : List HostAct), s.inbox = .releaseRst :: rest →
    step s = .next { s with inbox := rest, rst := false })

/-- What the host reads: `STATUS` bit 0 `BUSY`, bit 1 `DONE`, bit 2 `ERR`; `ERRCODE`; `CMD` with `START` and bits 6:3 zero and
`OP` as latched (R22, R24, R25). That the host can read `CMD` at all, and that `OP` then reads as latched, is the model's choice
(log 31). -/
def Obligations.HostReadsTheRegisters : Prop :=
  ∀ s : State,
    (hostReadStatus s).getLsbD 0 = s.status.busy ∧ (hostReadStatus s).getLsbD 1 = s.status.done ∧
    (hostReadStatus s).getLsbD 2 = s.status.err ∧ hostReadErrcode s = s.errcode ∧
    hostReadCmd s &&& 0xF8 = 0 ∧ (hostReadCmd s).extractLsb' 0 3 = s.cmd.extractLsb' 0 3

/-! ### Commands -/

/-- An accepted START latches `OP` and clears the run-owned state; then a reserved `OP` raises BAD_CMD, whether there is a source
or not; then an unavailable source raises INPUT_UNAVAILABLE; else the first phase of the command begins. Neither stream is
touched (R43, R201, R209, R221, R226, R229). That the `len` and the `bits` of a code table entry keep what they held, which R32 leaves
unspecified, is the model's choice (log 30). -/
def Obligations.AcceptedStartBeginsTheRun : Prop :=
  ∀ s : State, s.status.busy = false →
    ∃ C, (∀ c, lookSym C c = { lookSym s.code c with valid := false }) ∧
      (s.src.avail = true →
        exec .compress s = .next { startedRun 1 C s with phase := .cFreq } ∧
        exec .decompress s = .next { startedRun 2 C s with phase := .dHeader } ∧
        exec .pack s = .next { startedRun 3 C s with phase := .pPack } ∧
        exec .unpack s = .next { startedRun 4 C s with phase := .uUnpack }) ∧
      (s.src.avail = false →
        exec .compress s = .next (failedWith 1 (startedRun 1 C s)) ∧
        exec .decompress s = .next (failedWith 1 (startedRun 2 C s)) ∧
        exec .pack s = .next (failedWith 1 (startedRun 3 C s)) ∧
        exec .unpack s = .next (failedWith 1 (startedRun 4 C s))) ∧
      (∀ op : BitVec 3, op = 0 ∨ op = 5 ∨ op = 6 ∨ op = 7 →
        exec (.cmdReserved op) s = .next (failedWith 6 (startedRun op C s)))

/-- A write to `CMD` while busy is ignored entirely; one with `START` = 0 while idle only stores `OP` (R22, R210). -/
def Obligations.CommandWriteWithoutStart : Prop :=
  (∀ (s : State) (b : Byte), s.status.busy = true → exec (decodeCmd b) s = .next s) ∧
  (∀ (s : State) (op : BitVec 3), s.status.busy = true →
    exec .compress s = .next s ∧ exec .decompress s = .next s ∧ exec .pack s = .next s ∧ exec .unpack s = .next s ∧
    exec (.cmdReserved op) s = .next s ∧ exec (.cmdNoStart op) s = .next s) ∧
  (∀ (s : State) (op : BitVec 3), s.status.busy = false →
    exec (.cmdNoStart op) s = .next { s with cmd := op.setWidth 8 })

/-! ### Frequency Analyzer -/

/-- FREQ_SCAN adds to each `FREQ[s]` the number of its occurrences in what is left of the source, writes `NSYM`, goes to
`C_BUILD` or, when nothing was counted, to `C_HEADER`; it reads up to and including EOS and writes nothing (R111). -/
def Obligations.FreqScanCountsTheSource : Prop :=
  ∀ s : State, (unread s).length < 2 ^ 64 →
    ∃ F, (∀ c, lookSym F c = lookSym s.freq c + BitVec.ofNat 64 ((unread s).count c)) ∧
      exec .freqScan s = .next
        { atEos (afterReads (unread s) s) with
          freq := F
          nsym := (presentSymbols F).length
          phase := if (presentSymbols F).length = 0 then .cHeader else .cBuild }

/-- After FREQ_SCAN on cleared counters `FREQ[s]` is the number of positions that hold `s`, the counts add up to the input
length, and no later operation writes `FREQ` (R112). -/
def Obligations.FrequenciesSumToTheInputLength : Prop :=
  (∀ s t : State, (∀ c, lookSym s.freq c = 0) → exec .freqScan s = .next t →
    (∀ c, (lookSym t.freq c).toNat = (unread s).count c) ∧
    (allSymbols.map (fun c => (lookSym t.freq c).toNat)).sum = (unread s).length) ∧
  (∀ s t : State, s.inbox = [] → s.rst = false → s.phase ≠ .cFreq → step s = .next t → t.freq = s.freq)

/-- An input longer than 2^64 - 1 bytes is refused, as R113 asks of a model (log 14). -/
def Obligations.FreqScanRefusesUncountableInputs : Prop :=
  ∀ s : State, 2 ^ 64 ≤ (unread s).length → exec .freqScan s = .refused .inputTooLong

/-! ### Tree Builder -/

/-- TREE_SEED puts one leaf per symbol with a non-zero count into the arena and the queue, in ascending symbol order; when there
is one leaf it is the root and the phase is over (R122, R125, R126). A field the rule does not write keeps its value, which is
the model's choice (log 18); that `ROOT` and `PHASE` are written in the same step is its reading of the edge of R207 (log 9). -/
def Obligations.TreeSeedMakesTheLeaves : Prop :=
  ∀ s : State, s.nnodes = 0 →
    ∃ N Q,
      (∀ j : ArenaIx, N[j] = match (presentSymbols s.freq)[j.val]? with
        | some c => { s.node[j] with kind := .leaf, sym := c, freq := lookSym s.freq c }
        | none => s.node[j]) ∧
      (∀ j : ArenaIx, Q[j] = (decide (j.val < (presentSymbols s.freq).length) || s.inq[j])) ∧
      exec .treeSeed s = .next { s with
        node := N
        inq := Q
        nnodes := (presentSymbols s.freq).length
        root := if (presentSymbols s.freq).length = 1 then 0 else s.root
        phase := if (presentSymbols s.freq).length = 1 then .cAssign else s.phase }

/-- TREE_MERGE removes the two lowest nodes of the queue and puts in a new internal node whose frequency is their sum and whose
children they are, first removed left; when that leaves one node it is the root and the phase is over (R121, R124, R125). That the new
node's `sym` keeps what stood there is the model's choice (log 18); that `ROOT` and `PHASE` are written in the same step is its reading of
the edge of R207 (log 9). -/
def Obligations.TreeMergeJoinsTheTwoLowest : Prop :=
  ∀ (s : State) (a b m : ArenaIx), s.nnodes = m.val → a ∈ queue s → b ∈ queue s → a ≠ b →
    (∀ i ∈ queue s, i ≠ a → Earlier s.node a i) →
    (∀ i ∈ queue s, i ≠ a → i ≠ b → Earlier s.node b i) →
    ∃ N Q,
      (∀ j : ArenaIx, N[j] = if j = m then
          { s.node[j] with kind := .internal, freq := s.node[a].freq + s.node[b].freq, left := a, right := b }
        else s.node[j]) ∧
      (∀ j : ArenaIx, Q[j] = if j = m then true else if j = a ∨ j = b then false else s.inq[j]) ∧
      exec .treeMerge s = .next { s with
        node := N
        inq := Q
        nnodes := s.nnodes + 1
        root := if (queue s).length = 2 then m else s.root
        phase := if (queue s).length = 2 then .cAssign else s.phase }

/-- From a queue of two or more TREE_MERGE always completes, whatever the frequencies: the queue loses one node and the arena
gains one; a queue of one is merged no further (R123, R124, R125). That the phase ends and `ROOT` is written in TREE_MERGE's own step is the
model's reading of the edge of R207 (log 9), and so is what TREE_MERGE does on a queue of one node, outside R124's precondition
(log 8). -/
def Obligations.TreeMergeShrinksTheQueue : Prop :=
  (∀ s : State, 2 ≤ (queue s).length → s.nnodes < 511 →
    ∃ t, exec .treeMerge s = .next t ∧ (queue t).length + 1 = (queue s).length ∧ t.nnodes = s.nnodes + 1 ∧
      (if (queue t).length = 1 then t.phase = .cAssign ∧ queue t = [t.root] else t.phase = s.phase)) ∧
  (∀ (s : State) (r : ArenaIx), queue s = [r] →
    exec .treeMerge s = .next { s with root := r, phase := .cAssign })

/-- The queue is the set of the indices below `NNODES` whose flag is set, and its lowest element is the one that comes before
every other: lower frequency first, then earlier arrival (R14, R30, R121). -/
def Obligations.LeastIsTheArgmin : Prop :=
  (∀ (s : State) (i : ArenaIx), i ∈ queue s ↔ i.val < s.nnodes ∧ s.inq[i] = true) ∧
  (∀ (node : Vector Node 511) (q : List ArenaIx), q ≠ [] →
    ∃ a ∈ q, least node q = some a ∧ ∀ i ∈ q, i ≠ a → Earlier node a i)

/-! ### Code Assigner -/

/-- CODE_ASSIGN for one distinct symbol: the only leaf gets the fixed code "0" (R137). -/
def Obligations.CodeAssignForOneSymbol : Prop :=
  ∀ s : State, s.nsym = 1 →
    ∃ C, (∀ c, lookSym C c =
        if c = s.node[(0 : ArenaIx)].sym then { valid := true, len := 1, bits := [false] } else lookSym s.code c) ∧
      exec .codeAssign s = .next { s with code := C, phase := .cHeader }

/-- CODE_ASSIGN for two or more symbols: each leaf's symbol gets the turns from the root to the leaf as its code and their number
as its length; no other entry changes (R136). -/
def Obligations.CodeAssignWalksTheTree : Prop :=
  ∀ (s : State) (codes : List (Byte × BitString)), 2 ≤ s.nsym → TreeAt s.node s.root codes →
    (codes.map Prod.fst).Nodup → (∀ x ∈ codes, x.2.length ≤ 255) →
    ∃ C, (∀ x ∈ codes, lookSym C x.1 = { valid := true, len := BitVec.ofNat 8 x.2.length, bits := x.2 }) ∧
      (∀ c, c ∉ codes.map Prod.fst → lookSym C c = lookSym s.code c) ∧
      exec .codeAssign s = .next { s with code := C, phase := .cHeader }

/-- The state after reset meets the invariant of the encoder's tables: every count, every flag of the queue and of the code table, `NSYM`
and `NNODES` are clear (R251). -/
def Obligations.EncoderInvariantAtReset : Prop := State.reset.EncInv

/-- Every step keeps the invariant of the encoder's tables: they are clear after reset, at the start of COMPRESS and in the other
commands (R43, R251); then the forest the Tree Builder grows (R128), and from `C_HEADER` on a code
table with a code for exactly the input's symbols, 1 to 255 bits long, prefix-free, of Kraft sum 1 (R129, R139, R140, R141). -/
def Obligations.EncoderInvariantIsKept : Prop :=
  ∀ s t : State, s.EncInv → step s = .next t → t.EncInv

/-! ### Bit Packer and Bit Unpacker -/

/-- `pack` gives the minimal byte list, first bit in bit 7 of the first byte, zero pad bits after the last. PACK_BITS reads the
whole source of characters into `ACC`, then writes `pack` of it and the run is over, `ACC` empty again; at the first other character it
raises ENC_INTERNAL, has written nothing, and `ACC` holds the bits before it (R33, R147, R148, R204, R230, R253). That the instruction
PACK_BITS is the whole of the phase `P_PACK` is the model's reading (log 7), and so is what `ACC` holds (log 11); 0x30 and 0x31 are the
spec's general knowledge (log 26). -/
def Obligations.PackBitsPacksTheSource : Prop :=
  (∀ (bits : BitString), (pack bits).length = (bits.length + 7) / 8 ∧
    ∀ j t : Nat, t < 8 → ((pack bits).getD j 0).getLsbD (7 - t) = bits.getD (8 * j + t) false) ∧
  (∀ (s : State) (bits : BitString), unread s = chars bits →
    exec .packBits s =
      .next (endedRun { afterWrites (pack bits) (atEos (afterReads (chars bits) s)) with acc := [] })) ∧
  (∀ (s : State) (bits : BitString) (c : Byte) (rest : List Byte), unread s = chars bits ++ c :: rest →
    c ≠ 0x30 → c ≠ 0x31 →
      exec .packBits s = .next (failedWith 4 { afterReads (chars bits ++ [c]) s with acc := bits }))

/-- `unpack` gives the first `l` bits, MSB-first across consecutive bytes, whatever the pad bits. UNPACK_BITS reads exactly
ceil8(`LEN_ARG`) bytes and writes the first `LEN_ARG` bits as characters; when the source has fewer bytes it raises
FORMAT_TRUNCATED and has written nothing (R156, R157, R158, R160, R205). That the instruction UNPACK_BITS is the whole of the phase
`U_UNPACK` is the model's reading (log 7); 0x30 and 0x31 are the spec's general knowledge (log 26). -/
def Obligations.UnpackBitsUnpacksTheSource : Prop :=
  (∀ (bs : List Byte) (l : Nat), (l + 7) / 8 ≤ bs.length → (unpack bs l).length = l ∧
    ∀ i : Nat, i < l → (unpack bs l).getD i false = (bs.getD (i / 8) 0).getLsbD (7 - i % 8)) ∧
  (∀ (s : State) (bytes rest : List Byte), unread s = bytes ++ rest → bytes.length = (s.lenArg.toNat + 7) / 8 →
    exec .unpackBits s = .next
      (endedRun (afterWrites (chars (unpack bytes s.lenArg.toNat)) (afterReads bytes s)))) ∧
  (∀ s : State, (unread s).length < (s.lenArg.toNat + 7) / 8 →
    exec .unpackBits s = .next (failedWith 2 (atEos (afterReads (unread s) s))))

/-- The packer is a homomorphism on whole bytes and the unpacker undoes it; packing what was unpacked gives the bytes back, the
ignored low-order bits of the last one forced to 0 (R150, R159). -/
def Obligations.PackAndUnpackAreInverse : Prop :=
  (∀ s t : BitString, s.length % 8 = 0 → pack (s ++ t) = pack s ++ pack t) ∧
  (∀ s : BitString, unpack (pack s) s.length = s) ∧
  (∀ (bs : List Byte) (l : Nat), (l + 7) / 8 ≤ bs.length →
    (pack (unpack bs l)).length = (l + 7) / 8 ∧
    ∀ j t : Nat, j < (l + 7) / 8 → t < 8 → ((pack (unpack bs l)).getD j 0).getLsbD (7 - t) =
      (decide (8 * j + t < l) && (bs.getD j 0).getLsbD (7 - t)))

/-! ### Stream Serializer -/

/-- SER_HEADER writes an entry per symbol that has a code, in ascending symbol order: the symbol, the length, the packed code bits,
each entry padded on its own; then the terminator is next (R164, R165). -/
def Obligations.SerHeaderWritesTheEntries : Prop :=
  ∀ s : State,
    exec .serHeader s = .next
      { afterWrites ((codedSymbols s.code).flatMap
          (fun c => [c, (lookSym s.code c).len] ++ pack (lookSym s.code c).bits)) s with phase := .cTerm }

/-- SER_TERM writes the one byte 0x00; on entry to `C_PAYLOAD` the source is rewound and the accumulator emptied (R166, R167). That the
action on the edge belongs to the same step is the model's reading of R207 (log 9). -/
def Obligations.SerTermWritesTheTerminator : Prop :=
  ∀ s : State,
    exec .serTerm s = .next { s with
      snk := { data := s.snk.data ++ [0x00] }
      src := { s.src with pos := 0 }
      trace := .rewind :: .write 0x00 :: s.trace
      acc := []
      phase := .cPayload }

/-- SER_PAYLOAD reads one byte, appends its code to the accumulator, writes the leading whole bytes and retains the rest, fewer
than 8 bits; from fewer than 8 bits and a code of at most 255 it writes at most 32 bytes; at EOS the flush is next; a byte without
a code raises ENC_INTERNAL, and what has been written stays (R168, R169, R170, R224, R231). -/
def Obligations.SerPayloadEncodesOneByte : Prop :=
  (∀ s : State, unread s = [] → exec .serPayload s = .next { atEos s with phase := .cFlush }) ∧
  (∀ (s : State) (b : Byte) (rest : List Byte), unread s = b :: rest → (lookSym s.code b).valid = true →
    ∃ out left, left.length < 8 ∧
      s.acc ++ (lookSym s.code b).bits = out.flatMap byteBits ++ left ∧
      (s.acc.length ≤ 7 → (lookSym s.code b).bits.length ≤ 255 → out.length ≤ 32) ∧
      exec .serPayload s = .next { afterWrites out (afterReads [b] s) with acc := left }) ∧
  (∀ (s : State) (b : Byte) (rest : List Byte), unread s = b :: rest → (lookSym s.code b).valid = false →
    exec .serPayload s = .next (failedWith 4 (afterReads [b] s)))

/-- SER_FLUSH writes the leftover bits, zero-padded to one byte, or nothing when there are none, and the run is over (R171,
R208). That `STATUS` becomes `DONE` in the same step is the model's reading of the edge of R207 (log 9). -/
def Obligations.SerFlushPadsTheLeftover : Prop :=
  ∀ s : State,
    (s.acc = [] → exec .serFlush s = .next (endedRun s)) ∧
    (s.acc ≠ [] →
      ∃ y : Byte, byteBits y = (s.acc ++ List.replicate 8 false).take 8 ∧
        exec .serFlush s = .next (endedRun { afterWrites [y] s with acc := [] }))

/-- All SER_PAYLOAD steps and SER_FLUSH together write exactly `pack` of the carried bits and the concatenated codes of what is
left of the source, padded once at the very end (R149, R172). -/
def Obligations.PayloadIsThePackedCodes : Prop :=
  ∀ s : State, s.inbox = [] → s.rst = false → s.phase = .cPayload → s.acc.length ≤ 7 →
    (∀ b ∈ unread s, (lookSym s.code b).valid = true) →
    ∃ t, Reaches s t ∧ t.phase = .done ∧ t.status = { busy := false, done := true, err := false } ∧
      t.errcode = s.errcode ∧ t.acc = [] ∧ unread t = [] ∧ t.code = s.code ∧
      t.snk.data = s.snk.data ++ pack (s.acc ++ codesOf s.code (unread s))

/-! ### Stream Deserializer -/

/-- DES_HEADER at the terminator goes to the payload phase (R86, R181, R182). -/
def Obligations.DesHeaderStopsAtTheTerminator : Prop :=
  ∀ (s : State) (rest : List Byte), unread s = 0x00 :: rest →
    exec .desHeader s = .next { afterReads [0x00] s with phase := .dPayload }

/-- DES_HEADER on a header that is cut short raises FORMAT_TRUNCATED: where a symbol or the terminator should be, where the
length should be, or inside the code bytes (R181, R184, R222, R230). That the registers of the entry hold what was read before, and
`E_BUF` beyond it what it held, is the model's reading of R181's order (log 27). -/
def Obligations.DesHeaderReportsTruncation : Prop :=
  ∀ s : State,
    (unread s = [] → exec .desHeader s = .next (failedWith 2 (atEos s))) ∧
    (∀ b : Byte, unread s = [b] → b ≠ 0x00 →
      exec .desHeader s = .next (failedWith 2 { atEos (afterReads [b] s) with eSym := b })) ∧
    (∀ (b l : Byte) (cs : List Byte), unread s = b :: l :: cs → b ≠ 0x00 → cs.length < (l.toNat + 7) / 8 →
      ∃ buf, (∀ j : Fin 32, buf[j] = cs.getD j.val s.eBuf[j]) ∧
        exec .desHeader s = .next (failedWith 2
          { atEos (afterReads (b :: l :: cs) s) with
            eSym := b
            eLen := l
            eNb := (l.toNat + 7) / 8
            eBuf := buf }))

/-- DES_HEADER on an entry: the key is the first `code_length` bits of the code bytes, pad bits ignored; a key equal to one
already in the table raises FORMAT_DUPLICATE_KEY, then a full table raises FORMAT_TABLE_FULL, else the entry is inserted (R181,
R183, R185, R186, R229). That a table of 256 entries, or more, is full is the model's choice of the two R186 allows (log 22); that `E_BUF`
beyond the entry keeps what it held is its reading (log 27). -/
def Obligations.DesHeaderInsertsOneEntry : Prop :=
  ∀ (s : State) (b l : Byte) (cs rest : List Byte), unread s = b :: l :: cs ++ rest → b ≠ 0x00 →
    cs.length = (l.toNat + 7) / 8 →
    ∃ buf, (∀ j : Fin 32, buf[j] = cs.getD j.val s.eBuf[j]) ∧
      let read := { afterReads (b :: l :: cs) s with eSym := b, eLen := l, eNb := (l.toNat + 7) / 8, eBuf := buf }
      ((∃ e ∈ usedEntries s, e.key = unpack cs l.toNat) → exec .desHeader s = .next (failedWith 3 read)) ∧
      ((∀ e ∈ usedEntries s, e.key ≠ unpack cs l.toNat) → 256 ≤ s.dn →
        exec .desHeader s = .next (failedWith 5 read)) ∧
      ((∀ e ∈ usedEntries s, e.key ≠ unpack cs l.toNat) → s.dn < 256 →
        ∃ D, (∀ j : Fin 256, D[j] =
            if j.val = s.dn then { keylen := l, key := unpack cs l.toNat, sym := b } else s.dtab[j]) ∧
          exec .desHeader s = .next { read with dtab := D, dn := s.dn + 1 })

/-- The records themselves, on a state in which their bytes have been read: HDR_TERM; HDR_ENTRY with a key that is already in the
table, with a new key and a full table, and with a new key and room for it (R81, R86, R181, R185, R186). That a record executes on such a
state and that `E_BUF` beyond the entry keeps what it held are the model's reading (log 27); that 256 entries fill the table is its choice
(log 22). -/
def Obligations.HeaderRecordsExecute : Prop :=
  (∀ s : State, exec .hdrTerm s = .next { s with phase := .dPayload }) ∧
  (∀ (s : State) (b l : Byte) (cs : List Byte), (Instr.hdrEntry b l cs).wellFormed = true →
    ∃ buf, (∀ j : Fin 32, buf[j] = cs.getD j.val s.eBuf[j]) ∧
      let read := { s with eSym := b, eLen := l, eNb := (l.toNat + 7) / 8, eBuf := buf }
      ((∃ e ∈ usedEntries s, e.key = unpack cs l.toNat) →
        exec (.hdrEntry b l cs) s = .next (failedWith 3 read)) ∧
      ((∀ e ∈ usedEntries s, e.key ≠ unpack cs l.toNat) → 256 ≤ s.dn →
        exec (.hdrEntry b l cs) s = .next (failedWith 5 read)) ∧
      ((∀ e ∈ usedEntries s, e.key ≠ unpack cs l.toNat) → s.dn < 256 →
        ∃ D, (∀ j : Fin 256, D[j] =
            if j.val = s.dn then { keylen := l, key := unpack cs l.toNat, sym := b } else s.dtab[j]) ∧
          exec (.hdrEntry b l cs) s = .next { read with dtab := D, dn := s.dn + 1 }))

/-- An entry of `code_length` 0 has the empty key, reads no code byte, is a duplicate of another such entry, is inserted where the table
has room (the full table is HeaderRecordsExecute's to say), and is inert: while only empty keys are in the table no payload byte
writes anything, and two tables that differ in entries of the empty key only decode alike (R94, R187). That a record executes where its
bytes have been read is the model's reading (log 27). -/
def Obligations.EmptyKeyIsInert : Prop :=
  (∀ (s : State) (b : Byte), (∃ e ∈ usedEntries s, e.key = []) →
    exec (.hdrEntry b 0 []) s = .next (failedWith 3 { s with eSym := b, eLen := 0, eNb := 0 })) ∧
  (∀ (s : State) (b : Byte), (∀ e ∈ usedEntries s, e.key ≠ []) → s.dn < 256 →
    ∃ D, (∀ j : Fin 256, D[j] = if j.val = s.dn then { keylen := 0, key := [], sym := b } else s.dtab[j]) ∧
      exec (.hdrEntry b 0 []) s = .next { s with
        eSym := b, eLen := 0, eNb := 0, dtab := D, dn := s.dn + 1 }) ∧
  (∀ (s : State) (b : Byte), (∀ e ∈ usedEntries s, e.key = []) →
    exec (.payloadByte b) s = .next { s with cand := s.cand ++ byteBits b }) ∧
  (∀ (s : State) (b : Byte) (D : Vector DecEntry 256) (n : Nat),
    (usedEntries { s with dtab := D, dn := n }).filter (fun e => decide (e.key ≠ [])) =
      (usedEntries s).filter (fun e => decide (e.key ≠ [])) →
    ∃ syms cand, exec (.payloadByte b) s = .next { afterWrites syms s with cand := cand } ∧
      exec (.payloadByte b) { s with dtab := D, dn := n } =
        .next { afterWrites syms { s with dtab := D, dn := n } with cand := cand })

/-- DES_PAYLOAD reads one byte and executes it as the record PAYLOAD_BYTE; at EOS the candidate is dropped, whatever it holds, and
the run is over (R189, R191, R208). That `STATUS` becomes `DONE` in the same step is the model's reading of the edge of R207 (log 9), and
that the record executes where its byte has been read is its reading too (log 27). -/
def Obligations.DesPayloadExecutesOneByte : Prop :=
  (∀ s : State, unread s = [] → exec .desPayload s = .next (endedRun { atEos s with cand := [] })) ∧
  (∀ (s : State) (b : Byte) (rest : List Byte), unread s = b :: rest →
    ∃ t, exec .desPayload s = .next t ∧ exec (.payloadByte b) (afterReads [b] s) = .next t)

/-- A payload byte's bits are matched one at a time, bit 7 first: as long as no key equals the candidate grown by the bits it only
grows; at the first length at which it equals a key that key's symbol is written, the candidate emptied, and the rest of the
byte's bits go on from there. A byte writes at most eight symbols, and nothing but the candidate and the sink changes (R189,
R190). That the record executes where its byte has been read, so that it leaves the source alone, is the model's reading (log 27). -/
def Obligations.PayloadByteMatchesTheShortestKey : Prop :=
  (∀ (s : State) (b : Byte), ∃ syms cand, syms.length ≤ 8 ∧
    exec (.payloadByte b) s = .next { afterWrites syms s with cand := cand }) ∧
  (∀ (s : State) (b : Byte),
    (∀ n, 1 ≤ n → n ≤ 8 → ∀ e ∈ usedEntries s, e.key ≠ s.cand ++ (byteBits b).take n) →
    exec (.payloadByte b) s = .next { s with cand := s.cand ++ byteBits b }) ∧
  (∀ (s : State) (b : Byte) (n : Nat) (e : DecEntry), 1 ≤ n → n ≤ 8 → e ∈ usedEntries s →
    e.key = s.cand ++ (byteBits b).take n →
    (usedEntries s).Pairwise (fun e f => e.key ≠ f.key) →
    (∀ m, 1 ≤ m → m < n → ∀ f ∈ usedEntries s, f.key ≠ s.cand ++ (byteBits b).take m) →
    exec (.payloadByte b) s =
      .next (((byteBits b).drop n).foldl matchBit { afterWrites [e.sym] s with cand := [] }))

/-! ### Rules of the whole machine -/

/-- The constraints of 10_state.md on the registers hold after reset. -/
def Obligations.InvariantAtReset : Prop := State.reset.Inv

/-- Every step, the host's acts among them, keeps them: the cursor inside the source, at most one `STATUS` flag and the one of the
phase, `ERRCODE` 0 except after an error, counts inside their registers, at most 7 carried bits, pairwise different keys, every
register at its reset value while `rst` is asserted (R22, R24, R25, R28, R31, R33, R34, R36, R38, R250, R251, R253). That a PACK which met
a bad character leaves its bits in `ACC` is the model's reading (log 11). -/
def Obligations.InvariantIsKept : Prop :=
  ∀ s t : State, s.Inv → step s = .next t → t.Inv

/-- The model's own stops for "states no run reaches" (log 15, log 16) are never met: from a state with the invariants no step faults, and
none is refused but for an input too long to count (R113, V8; log 14), an act of the host the spec tells a model to refuse (R262, V5;
log 12), or a source presented with its cursor past its end, which is the model's refusal (R52; log 29). -/
def Obligations.NoRunMeetsAnInternalStop : Prop :=
  ∀ s : State, s.Inv → s.EncInv →
    (∃ t, step s = .next t) ∨ step s = .refused .inputTooLong ∨
      (∃ a rest, s.inbox = a :: rest ∧ (step s = .refused .hostDuty ∨ step s = .refused .cursorPastEnd))

/-- `BUSY` is set only by an accepted START of a command with a source that is available, and cleared only by the run ending, in
`DONE` or in `ERROR`, or by reset (R24, R201, R208, R230, R240, R250). -/
def Obligations.BusyFromStartToTheEndOfTheRun : Prop :=
  ∀ s t : State, s.Inv → step s = .next t →
    (s.status.busy = false → t.status.busy = true →
      s.src.avail = true ∧ s.rst = false ∧ ∃ b rest, s.inbox = .writeCmd b :: rest ∧ b &&& 0x80 = 0x80 ∧
        (b &&& 0x07 = 1 ∨ b &&& 0x07 = 2 ∨ b &&& 0x07 = 3 ∨ b &&& 0x07 = 4)) ∧
    (s.status.busy = true → t.status.busy = false →
      t.phase = .done ∨ t.phase = .error ∨ ∃ rest, s.inbox = .assertRst :: rest)

/-- On its own the block writes neither `CMD` nor `LEN_ARG` nor the source's content nor its availability; it only moves the
cursor, forward over what it reads or back to the start, and appends to the sink exactly what it writes (R22, R23, R38, R39,
R50, R51, R53, R54, R56). The record of accesses is the model's (log 6). -/
def Obligations.BlockOnlyReadsTheSourceAndAppendsToTheSink : Prop :=
  ∀ s t : State, s.inbox = [] → s.rst = false → step s = .next t →
    t.cmd = s.cmd ∧ t.lenArg = s.lenArg ∧ t.inbox = [] ∧ t.src.data = s.src.data ∧ t.src.avail = s.src.avail ∧
    ∃ d, t.trace = d ++ s.trace ∧ t.snk.data = s.snk.data ++ writesOf d ∧
      (t.src.pos = 0 ∧ .rewind ∈ d ∨ unread s = readsOf d ++ unread t)

/-- An error is precise: a step of the block that ends in `ERROR` sets `STATUS` to `ERR` alone and `ERRCODE` to a cause's number,
and leaves the encoder's tables and scalars, `DTAB`, `DN`, `CAND` and the sink as they were; and so the accumulator, but that PACK's holds
the bits it collected before the bad character, which is the model's reading (R33, R227, R230, R231; log 11). The registers of the
entry, which DES_HEADER writes before it raises (R181), are DesHeaderReportsTruncation's and DesHeaderInsertsOneEntry's to say. The
characters, 0x30 and 0x31, are the spec's general knowledge (R97; log 26). -/
def Obligations.ErrorsArePrecise : Prop :=
  ∀ s t : State, s.inbox = [] → s.rst = false → s.phase ≠ .error → step s = .next t → t.phase = .error →
    t.status = { busy := false, done := false, err := true } ∧ (t.errcode = 2 ∨ t.errcode = 3 ∨ t.errcode = 4 ∨ t.errcode = 5) ∧
    t.snk = s.snk ∧ t.cand = s.cand ∧ t.freq = s.freq ∧ t.nsym = s.nsym ∧ t.node = s.node ∧
    t.inq = s.inq ∧ t.nnodes = s.nnodes ∧ t.root = s.root ∧ t.code = s.code ∧ t.dtab = s.dtab ∧ t.dn = s.dn ∧
    t.cmd = s.cmd ∧ t.lenArg = s.lenArg ∧ (s.phase ≠ .pPack → t.acc = s.acc) ∧
    (s.phase = .pPack → ∃ c rest, unread s = chars t.acc ++ c :: rest ∧ c ≠ 0x30 ∧ c ≠ 0x31)

/-- The encoder and the decoder share no table: a phase of COMPRESS leaves the decoder's table, candidate and entry registers, a
phase of DECOMPRESS the encoder's tables and accumulator, and PACK and UNPACK all of the tables; the accumulator is also PACK's working
buffer and nothing of UNPACK's (R20, R32, R33, R34, R200). -/
def Obligations.EncoderAndDecoderShareNoTable : Prop :=
  ∀ s t : State, s.inbox = [] → s.rst = false → step s = .next t →
    (s.phase ≠ .dHeader → t.dtab = s.dtab ∧ t.dn = s.dn ∧ t.eSym = s.eSym ∧ t.eLen = s.eLen ∧ t.eNb = s.eNb ∧ t.eBuf = s.eBuf) ∧
    (s.phase ≠ .dPayload → t.cand = s.cand) ∧
    (s.phase = .dHeader ∨ s.phase = .dPayload ∨ s.phase = .pPack ∨ s.phase = .uUnpack →
      t.freq = s.freq ∧ t.nsym = s.nsym ∧ t.node = s.node ∧ t.inq = s.inq ∧ t.nnodes = s.nnodes ∧ t.root = s.root ∧
      t.code = s.code) ∧
    (s.phase = .dHeader ∨ s.phase = .dPayload ∨ s.phase = .uUnpack → t.acc = s.acc)

/-- COMPRESS writes nothing while it reads the input the first time and builds the table, and DECOMPRESS nothing while it parses
the header (R62, R203, R258). -/
def Obligations.NoOutputBeforeTheWholeInput : Prop :=
  ∀ s t : State, s.inbox = [] → s.rst = false → step s = .next t →
    s.phase = .cFreq ∨ s.phase = .cBuild ∨ s.phase = .cAssign ∨ s.phase = .dHeader → t.snk = s.snk

/-! ### Whole runs -/

/-- Every run ends in `DONE` or in `ERROR` (R18, R200, R207). -/
def Obligations.EveryRunEnds : Prop :=
  ∀ s : State, s.Inv → s.EncInv → s.inbox = [] → s.status.busy = true → s.src.data.length < 2 ^ 64 →
    ∃ t, Reaches s t ∧ (t.phase = .done ∨ t.phase = .error)

/-- A run never depends on what was before it: from two idle states that show the host the same streams and `LEN_ARG`, the same
START leads, step for step, to the same `PHASE`, `STATUS`, `ERRCODE`, source and sink, with the same accesses in the same order
(R43, R251, R252). The record of accesses is the model's (log 6). -/
def Obligations.RunsDoNotDependOnEarlierRuns : Prop :=
  ∀ (s1 s2 : State) (cmd : Byte) (k : Nat) (t1 : State),
    s1.rst = false → s2.rst = false → s1.status.busy = false → s2.status.busy = false →
    s1.src = s2.src → s1.snk = s2.snk → s1.lenArg = s2.lenArg →
    startField cmd = true → runSteps (k + 1) (commanded s1 cmd) = .next t1 →
    ∃ t2 d, runSteps (k + 1) (commanded s2 cmd) = .next t2 ∧ SameToHost t1 t2 ∧ t1.phase = t2.phase ∧
      t1.trace = d ++ s1.trace ∧ t2.trace = d ++ s2.trace

/-- COMPRESS: the sink receives the header, the terminator 0x00 and the packed concatenation of the codes of all input bytes; the
table has a code for exactly the input's symbols and meets the laws of a Huffman code table; the counts are those of the input
(R112, R163, R172, R202). -/
def Obligations.CompressWritesHeaderTerminatorPayload : Prop :=
  ∀ (s : State) (input : List Byte), Ready s input → input.length < 2 ^ 64 →
    ∃ t, Reaches (commanded s 0x81) t ∧ t.phase = .done ∧ t.inbox = [] ∧ t.errcode = 0 ∧
      t.status = { busy := false, done := true, err := false } ∧ t.src.pos = input.length ∧
      (∀ c, (lookSym t.freq c).toNat = input.count c) ∧ CodeLaws t ∧
      t.snk.data =
        (codedSymbols t.code).flatMap (fun c => [c, (lookSym t.code c).len] ++ pack (lookSym t.code c).bits)
          ++ [0x00] ++ pack (codesOf t.code input)

/-- In the code table of a run a symbol that occurs more often never has the longer code (R143, which asks a model to prove it and not
to assume it). -/
def Obligations.MoreFrequentSymbolsHaveNoLongerCodes : Prop :=
  ∀ (s : State) (input : List Byte), Ready s input → input.length < 2 ^ 64 →
    ∃ t, Reaches (commanded s 0x81) t ∧ t.phase = .done ∧ t.inbox = [] ∧
      ∀ c d, input.count d < input.count c → (lookSym t.code d).valid = true →
        (lookSym t.code c).bits.length ≤ (lookSym t.code d).bits.length

/-- COMPRESS of the empty input writes the one byte 0x00 (R175, R202). -/
def Obligations.CompressOfTheEmptyInput : Prop :=
  ∀ s : State, Ready s [] → ∃ t, Reaches (commanded s 0x81) t ∧ t.phase = .done ∧ t.snk.data = [0x00]

/-- The order of COMPRESS's accesses: all of pass 1 up to EOS, the header, the terminator, the one rewind, then pass 2, in which
reads and writes alternate as the codes complete bytes, EOS, and at most one last write (R54, R62). The record of accesses is the model's
(log 6). -/
def Obligations.CompressAccessesInOrder : Prop :=
  ∀ (s : State) (input : List Byte), Ready s input → input.length < 2 ^ 64 →
    ∃ t pass2 last, Reaches (commanded s 0x81) t ∧ t.phase = .done ∧
      t.trace.reverse = s.trace.reverse ++ input.map .read ++ [.eos] ++
        ((codedSymbols t.code).flatMap
          (fun c => [c, (lookSym t.code c).len] ++ pack (lookSym t.code c).bits)).map .write ++
        [.write 0x00, .rewind] ++ pass2 ++ [.eos] ++ last ∧
      Access.rewind ∉ pass2 ∧ Access.eos ∉ pass2 ∧ readsOf pass2.reverse = input ∧
      last.length ≤ 1 ∧ (∀ a ∈ last, ∃ y, a = .write y) ∧
      writesOf pass2.reverse ++ writesOf last.reverse = pack (codesOf t.code input) ∧
      (∀ n, (writesOf (pass2.take n).reverse).length ≤ (codesOf t.code (readsOf (pass2.take n).reverse)).length / 8) ∧
      (∀ n, n = pass2.length ∨ (∃ b, pass2[n]? = some (.read b)) →
        (writesOf (pass2.take n).reverse).length = (codesOf t.code (readsOf (pass2.take n).reverse)).length / 8)

/-- DECOMPRESS of any stream of the format whose entries have pairwise different keys and fit the table: the table is the entries in
stream order, and the sink receives what matching the payload's bits against it gives, from the empty candidate, every bit of
every byte a code bit (R80, R87, R88, R190, R191, R192, R203). -/
def Obligations.DecompressParsesThenDecodes : Prop :=
  ∀ (s : State) (entries : List (Byte × Byte × List Byte)) (payload : List Byte),
    (∀ x ∈ entries, (Instr.hdrEntry x.1 x.2.1 x.2.2).wellFormed = true) → entries.length ≤ 256 →
    (entries.map (fun x => (tableEntry x.1 x.2.1 x.2.2).key)).Nodup →
    Ready s (entries.flatMap (fun x => x.1 :: x.2.1 :: x.2.2) ++ 0x00 :: payload) →
    ∃ t, Reaches (commanded s 0x82) t ∧ t.phase = .done ∧ t.errcode = 0 ∧
      t.status = { busy := false, done := true, err := false } ∧ t.src.pos = t.src.data.length ∧
      usedEntries t = entries.map (fun x => tableEntry x.1 x.2.1 x.2.2) ∧
      Decodes (usedEntries t) [] (payload.flatMap byteBits) t.snk.data

/-- The round trip, exactly: DECOMPRESS of what COMPRESS wrote gives the input followed by `floor(p / d0)` copies of the symbol
whose code is all zeros, for an input that is not empty and does not contain 0x00; the empty input gives 0x00 and comes back
empty (R142, R194, R260). -/
def Obligations.RoundTripUpToPadding : Prop :=
  (∀ (s : State) (input : List Byte), Ready s input → input ≠ [] → 0x00 ∉ input → input.length < 2 ^ 64 →
    ∃ t z, Reaches (commanded s 0x81) t ∧ t.phase = .done ∧ t.inbox = [] ∧ z ∈ input ∧
      (∀ bit ∈ (lookSym t.code z).bits, bit = false) ∧ 1 ≤ (lookSym t.code z).bits.length ∧
      (∀ c ∈ input, (∀ bit ∈ (lookSym t.code c).bits, bit = false) → c = z) ∧
      ∀ s' : State, Ready s' t.snk.data →
        ∃ t', Reaches (commanded s' 0x82) t' ∧ t'.phase = .done ∧ t'.inbox = [] ∧ t'.errcode = 0 ∧
          t'.snk.data = input ++
            List.replicate (padBits (codesOf t.code input).length / (lookSym t.code z).bits.length) z) ∧
  (∀ s : State, Ready s [] → ∃ t, Reaches (commanded s 0x81) t ∧ t.phase = .done ∧ t.inbox = [] ∧ t.snk.data = [0x00] ∧
    ∀ s' : State, Ready s' t.snk.data →
      ∃ t', Reaches (commanded s' 0x82) t' ∧ t'.phase = .done ∧ t'.inbox = [] ∧ t'.errcode = 0 ∧ t'.snk.data = [])

/-- The terminator collision, exactly: an input that contains 0x00 compresses without error to a stream whose first byte is 0x00, and
DECOMPRESS of it takes that byte as the terminator, reads the rest as payload and ends in `DONE` with an empty sink (R174, R195,
R259). -/
def Obligations.TerminatorCollisionLosesTheInput : Prop :=
  ∀ (s : State) (input : List Byte), Ready s input → 0x00 ∈ input → input.length < 2 ^ 64 →
    ∃ t, Reaches (commanded s 0x81) t ∧ t.phase = .done ∧ t.errcode = 0 ∧ t.snk.data.head? = some 0x00 ∧
      ∀ s' : State, Ready s' t.snk.data →
        ∃ t', Reaches (commanded s' 0x82) t' ∧ t'.phase = .done ∧ t'.errcode = 0 ∧ t'.dn = 0 ∧
          t'.src.pos = t'.src.data.length ∧ t'.snk.data = []

/-- One repeated byte: `n` copies of `v` compress, with the code "0", to `v 01 00 00` and ceil8(n) bytes 00, which decompress to
8 * ceil8(n) copies (R137, R173, R196). -/
def Obligations.SingleSymbolInput : Prop :=
  ∀ (s : State) (v : Byte) (n : Nat), Ready s (List.replicate n v) → v ≠ 0x00 → 1 ≤ n → n < 2 ^ 64 →
    ∃ t, Reaches (commanded s 0x81) t ∧ t.phase = .done ∧ lookSym t.code v = { valid := true, len := 1, bits := [false] } ∧
      t.snk.data = [v, 0x01, 0x00, 0x00] ++ List.replicate ((n + 7) / 8) 0x00 ∧
      ∀ s' : State, Ready s' t.snk.data →
        ∃ t', Reaches (commanded s' 0x82) t' ∧ t'.phase = .done ∧ t'.errcode = 0 ∧
          t'.snk.data = List.replicate (8 * ((n + 7) / 8)) v
end

