-- ==== Sys2Proof/Laws/State.lean ====
section
/-! SUPPORT. One lemma per field for each named update of the state, all true by `rfl`, so that no later proof unfolds an
update. -/

namespace Sys2Proof.Machine

/-! ### `srcRewind` -/

@[simp] theorem srcRewind_cmd (s : State) : (srcRewind s).cmd = s.cmd := rfl
@[simp] theorem srcRewind_lenArg (s : State) : (srcRewind s).lenArg = s.lenArg := rfl
@[simp] theorem srcRewind_status (s : State) : (srcRewind s).status = s.status := rfl
@[simp] theorem srcRewind_errcode (s : State) : (srcRewind s).errcode = s.errcode := rfl
@[simp] theorem srcRewind_phase (s : State) : (srcRewind s).phase = s.phase := rfl
@[simp] theorem srcRewind_freq (s : State) : (srcRewind s).freq = s.freq := rfl
@[simp] theorem srcRewind_nsym (s : State) : (srcRewind s).nsym = s.nsym := rfl
@[simp] theorem srcRewind_node (s : State) : (srcRewind s).node = s.node := rfl
@[simp] theorem srcRewind_inq (s : State) : (srcRewind s).inq = s.inq := rfl
@[simp] theorem srcRewind_nnodes (s : State) : (srcRewind s).nnodes = s.nnodes := rfl
@[simp] theorem srcRewind_root (s : State) : (srcRewind s).root = s.root := rfl
@[simp] theorem srcRewind_code (s : State) : (srcRewind s).code = s.code := rfl
@[simp] theorem srcRewind_acc (s : State) : (srcRewind s).acc = s.acc := rfl
@[simp] theorem srcRewind_dtab (s : State) : (srcRewind s).dtab = s.dtab := rfl
@[simp] theorem srcRewind_dn (s : State) : (srcRewind s).dn = s.dn := rfl
@[simp] theorem srcRewind_cand (s : State) : (srcRewind s).cand = s.cand := rfl
@[simp] theorem srcRewind_eSym (s : State) : (srcRewind s).eSym = s.eSym := rfl
@[simp] theorem srcRewind_eLen (s : State) : (srcRewind s).eLen = s.eLen := rfl
@[simp] theorem srcRewind_eNb (s : State) : (srcRewind s).eNb = s.eNb := rfl
@[simp] theorem srcRewind_eBuf (s : State) : (srcRewind s).eBuf = s.eBuf := rfl
@[simp] theorem srcRewind_src (s : State) : (srcRewind s).src = { s.src with pos := 0 } := rfl
@[simp] theorem srcRewind_snk (s : State) : (srcRewind s).snk = s.snk := rfl
@[simp] theorem srcRewind_rst (s : State) : (srcRewind s).rst = s.rst := rfl
@[simp] theorem srcRewind_inbox (s : State) : (srcRewind s).inbox = s.inbox := rfl
@[simp] theorem srcRewind_trace (s : State) : (srcRewind s).trace = .rewind :: s.trace := rfl

/-! ### `sinkWrite` -/

@[simp] theorem sinkWrite_cmd (b : Byte) (s : State) : (sinkWrite b s).cmd = s.cmd := rfl
@[simp] theorem sinkWrite_lenArg (b : Byte) (s : State) : (sinkWrite b s).lenArg = s.lenArg := rfl
@[simp] theorem sinkWrite_status (b : Byte) (s : State) : (sinkWrite b s).status = s.status := rfl
@[simp] theorem sinkWrite_errcode (b : Byte) (s : State) : (sinkWrite b s).errcode = s.errcode := rfl
@[simp] theorem sinkWrite_phase (b : Byte) (s : State) : (sinkWrite b s).phase = s.phase := rfl
@[simp] theorem sinkWrite_freq (b : Byte) (s : State) : (sinkWrite b s).freq = s.freq := rfl
@[simp] theorem sinkWrite_nsym (b : Byte) (s : State) : (sinkWrite b s).nsym = s.nsym := rfl
@[simp] theorem sinkWrite_node (b : Byte) (s : State) : (sinkWrite b s).node = s.node := rfl
@[simp] theorem sinkWrite_inq (b : Byte) (s : State) : (sinkWrite b s).inq = s.inq := rfl
@[simp] theorem sinkWrite_nnodes (b : Byte) (s : State) : (sinkWrite b s).nnodes = s.nnodes := rfl
@[simp] theorem sinkWrite_root (b : Byte) (s : State) : (sinkWrite b s).root = s.root := rfl
@[simp] theorem sinkWrite_code (b : Byte) (s : State) : (sinkWrite b s).code = s.code := rfl
@[simp] theorem sinkWrite_acc (b : Byte) (s : State) : (sinkWrite b s).acc = s.acc := rfl
@[simp] theorem sinkWrite_dtab (b : Byte) (s : State) : (sinkWrite b s).dtab = s.dtab := rfl
@[simp] theorem sinkWrite_dn (b : Byte) (s : State) : (sinkWrite b s).dn = s.dn := rfl
@[simp] theorem sinkWrite_cand (b : Byte) (s : State) : (sinkWrite b s).cand = s.cand := rfl
@[simp] theorem sinkWrite_eSym (b : Byte) (s : State) : (sinkWrite b s).eSym = s.eSym := rfl
@[simp] theorem sinkWrite_eLen (b : Byte) (s : State) : (sinkWrite b s).eLen = s.eLen := rfl
@[simp] theorem sinkWrite_eNb (b : Byte) (s : State) : (sinkWrite b s).eNb = s.eNb := rfl
@[simp] theorem sinkWrite_eBuf (b : Byte) (s : State) : (sinkWrite b s).eBuf = s.eBuf := rfl
@[simp] theorem sinkWrite_src (b : Byte) (s : State) : (sinkWrite b s).src = s.src := rfl
@[simp] theorem sinkWrite_snk (b : Byte) (s : State) : (sinkWrite b s).snk = { data := s.snk.data ++ [b] } := rfl
@[simp] theorem sinkWrite_rst (b : Byte) (s : State) : (sinkWrite b s).rst = s.rst := rfl
@[simp] theorem sinkWrite_inbox (b : Byte) (s : State) : (sinkWrite b s).inbox = s.inbox := rfl
@[simp] theorem sinkWrite_trace (b : Byte) (s : State) : (sinkWrite b s).trace = .write b :: s.trace := rfl

/-! ### `raise` -/

@[simp] theorem raise_cmd (e : Err) (s : State) : (raise e s).cmd = s.cmd := rfl
@[simp] theorem raise_lenArg (e : Err) (s : State) : (raise e s).lenArg = s.lenArg := rfl
@[simp] theorem raise_status (e : Err) (s : State) : (raise e s).status = Status.failed := rfl
@[simp] theorem raise_errcode (e : Err) (s : State) : (raise e s).errcode = errCode e := rfl
@[simp] theorem raise_phase (e : Err) (s : State) : (raise e s).phase = .error := rfl
@[simp] theorem raise_freq (e : Err) (s : State) : (raise e s).freq = s.freq := rfl
@[simp] theorem raise_nsym (e : Err) (s : State) : (raise e s).nsym = s.nsym := rfl
@[simp] theorem raise_node (e : Err) (s : State) : (raise e s).node = s.node := rfl
@[simp] theorem raise_inq (e : Err) (s : State) : (raise e s).inq = s.inq := rfl
@[simp] theorem raise_nnodes (e : Err) (s : State) : (raise e s).nnodes = s.nnodes := rfl
@[simp] theorem raise_root (e : Err) (s : State) : (raise e s).root = s.root := rfl
@[simp] theorem raise_code (e : Err) (s : State) : (raise e s).code = s.code := rfl
@[simp] theorem raise_acc (e : Err) (s : State) : (raise e s).acc = s.acc := rfl
@[simp] theorem raise_dtab (e : Err) (s : State) : (raise e s).dtab = s.dtab := rfl
@[simp] theorem raise_dn (e : Err) (s : State) : (raise e s).dn = s.dn := rfl
@[simp] theorem raise_cand (e : Err) (s : State) : (raise e s).cand = s.cand := rfl
@[simp] theorem raise_eSym (e : Err) (s : State) : (raise e s).eSym = s.eSym := rfl
@[simp] theorem raise_eLen (e : Err) (s : State) : (raise e s).eLen = s.eLen := rfl
@[simp] theorem raise_eNb (e : Err) (s : State) : (raise e s).eNb = s.eNb := rfl
@[simp] theorem raise_eBuf (e : Err) (s : State) : (raise e s).eBuf = s.eBuf := rfl
@[simp] theorem raise_src (e : Err) (s : State) : (raise e s).src = s.src := rfl
@[simp] theorem raise_snk (e : Err) (s : State) : (raise e s).snk = s.snk := rfl
@[simp] theorem raise_rst (e : Err) (s : State) : (raise e s).rst = s.rst := rfl
@[simp] theorem raise_inbox (e : Err) (s : State) : (raise e s).inbox = s.inbox := rfl
@[simp] theorem raise_trace (e : Err) (s : State) : (raise e s).trace = s.trace := rfl

/-! ### `finish` -/

@[simp] theorem finish_cmd (s : State) : (finish s).cmd = s.cmd := rfl
@[simp] theorem finish_lenArg (s : State) : (finish s).lenArg = s.lenArg := rfl
@[simp] theorem finish_status (s : State) : (finish s).status = Status.ended := rfl
@[simp] theorem finish_errcode (s : State) : (finish s).errcode = s.errcode := rfl
@[simp] theorem finish_phase (s : State) : (finish s).phase = .done := rfl
@[simp] theorem finish_freq (s : State) : (finish s).freq = s.freq := rfl
@[simp] theorem finish_nsym (s : State) : (finish s).nsym = s.nsym := rfl
@[simp] theorem finish_node (s : State) : (finish s).node = s.node := rfl
@[simp] theorem finish_inq (s : State) : (finish s).inq = s.inq := rfl
@[simp] theorem finish_nnodes (s : State) : (finish s).nnodes = s.nnodes := rfl
@[simp] theorem finish_root (s : State) : (finish s).root = s.root := rfl
@[simp] theorem finish_code (s : State) : (finish s).code = s.code := rfl
@[simp] theorem finish_acc (s : State) : (finish s).acc = s.acc := rfl
@[simp] theorem finish_dtab (s : State) : (finish s).dtab = s.dtab := rfl
@[simp] theorem finish_dn (s : State) : (finish s).dn = s.dn := rfl
@[simp] theorem finish_cand (s : State) : (finish s).cand = s.cand := rfl
@[simp] theorem finish_eSym (s : State) : (finish s).eSym = s.eSym := rfl
@[simp] theorem finish_eLen (s : State) : (finish s).eLen = s.eLen := rfl
@[simp] theorem finish_eNb (s : State) : (finish s).eNb = s.eNb := rfl
@[simp] theorem finish_eBuf (s : State) : (finish s).eBuf = s.eBuf := rfl
@[simp] theorem finish_src (s : State) : (finish s).src = s.src := rfl
@[simp] theorem finish_snk (s : State) : (finish s).snk = s.snk := rfl
@[simp] theorem finish_rst (s : State) : (finish s).rst = s.rst := rfl
@[simp] theorem finish_inbox (s : State) : (finish s).inbox = s.inbox := rfl
@[simp] theorem finish_trace (s : State) : (finish s).trace = s.trace := rfl

/-! ### `latchOp` -/

@[simp] theorem latchOp_cmd (op : BitVec 3) (s : State) : (latchOp op s).cmd = encodeCmd false op := rfl
@[simp] theorem latchOp_lenArg (op : BitVec 3) (s : State) : (latchOp op s).lenArg = s.lenArg := rfl
@[simp] theorem latchOp_status (op : BitVec 3) (s : State) : (latchOp op s).status = s.status := rfl
@[simp] theorem latchOp_errcode (op : BitVec 3) (s : State) : (latchOp op s).errcode = s.errcode := rfl
@[simp] theorem latchOp_phase (op : BitVec 3) (s : State) : (latchOp op s).phase = s.phase := rfl
@[simp] theorem latchOp_freq (op : BitVec 3) (s : State) : (latchOp op s).freq = s.freq := rfl
@[simp] theorem latchOp_nsym (op : BitVec 3) (s : State) : (latchOp op s).nsym = s.nsym := rfl
@[simp] theorem latchOp_node (op : BitVec 3) (s : State) : (latchOp op s).node = s.node := rfl
@[simp] theorem latchOp_inq (op : BitVec 3) (s : State) : (latchOp op s).inq = s.inq := rfl
@[simp] theorem latchOp_nnodes (op : BitVec 3) (s : State) : (latchOp op s).nnodes = s.nnodes := rfl
@[simp] theorem latchOp_root (op : BitVec 3) (s : State) : (latchOp op s).root = s.root := rfl
@[simp] theorem latchOp_code (op : BitVec 3) (s : State) : (latchOp op s).code = s.code := rfl
@[simp] theorem latchOp_acc (op : BitVec 3) (s : State) : (latchOp op s).acc = s.acc := rfl
@[simp] theorem latchOp_dtab (op : BitVec 3) (s : State) : (latchOp op s).dtab = s.dtab := rfl
@[simp] theorem latchOp_dn (op : BitVec 3) (s : State) : (latchOp op s).dn = s.dn := rfl
@[simp] theorem latchOp_cand (op : BitVec 3) (s : State) : (latchOp op s).cand = s.cand := rfl
@[simp] theorem latchOp_eSym (op : BitVec 3) (s : State) : (latchOp op s).eSym = s.eSym := rfl
@[simp] theorem latchOp_eLen (op : BitVec 3) (s : State) : (latchOp op s).eLen = s.eLen := rfl
@[simp] theorem latchOp_eNb (op : BitVec 3) (s : State) : (latchOp op s).eNb = s.eNb := rfl
@[simp] theorem latchOp_eBuf (op : BitVec 3) (s : State) : (latchOp op s).eBuf = s.eBuf := rfl
@[simp] theorem latchOp_src (op : BitVec 3) (s : State) : (latchOp op s).src = s.src := rfl
@[simp] theorem latchOp_snk (op : BitVec 3) (s : State) : (latchOp op s).snk = s.snk := rfl
@[simp] theorem latchOp_rst (op : BitVec 3) (s : State) : (latchOp op s).rst = s.rst := rfl
@[simp] theorem latchOp_inbox (op : BitVec 3) (s : State) : (latchOp op s).inbox = s.inbox := rfl
@[simp] theorem latchOp_trace (op : BitVec 3) (s : State) : (latchOp op s).trace = s.trace := rfl

/-! ### `initRun` -/

@[simp] theorem initRun_cmd (s : State) : (initRun s).cmd = s.cmd := rfl
@[simp] theorem initRun_lenArg (s : State) : (initRun s).lenArg = s.lenArg := rfl
@[simp] theorem initRun_status (s : State) : (initRun s).status = Status.running := rfl
@[simp] theorem initRun_errcode (s : State) : (initRun s).errcode = 0 := rfl
@[simp] theorem initRun_phase (s : State) : (initRun s).phase = s.phase := rfl
@[simp] theorem initRun_freq (s : State) : (initRun s).freq = Vector.replicate _ 0 := rfl
@[simp] theorem initRun_nsym (s : State) : (initRun s).nsym = 0 := rfl
@[simp] theorem initRun_node (s : State) : (initRun s).node = s.node := rfl
@[simp] theorem initRun_inq (s : State) : (initRun s).inq = Vector.replicate _ false := rfl
@[simp] theorem initRun_nnodes (s : State) : (initRun s).nnodes = 0 := rfl
@[simp] theorem initRun_root (s : State) : (initRun s).root = s.root := rfl
@[simp] theorem initRun_code (s : State) : (initRun s).code = mapTable (fun e => { e with valid := false }) s.code := rfl
@[simp] theorem initRun_acc (s : State) : (initRun s).acc = [] := rfl
@[simp] theorem initRun_dtab (s : State) : (initRun s).dtab = s.dtab := rfl
@[simp] theorem initRun_dn (s : State) : (initRun s).dn = 0 := rfl
@[simp] theorem initRun_cand (s : State) : (initRun s).cand = [] := rfl
@[simp] theorem initRun_eSym (s : State) : (initRun s).eSym = s.eSym := rfl
@[simp] theorem initRun_eLen (s : State) : (initRun s).eLen = s.eLen := rfl
@[simp] theorem initRun_eNb (s : State) : (initRun s).eNb = s.eNb := rfl
@[simp] theorem initRun_eBuf (s : State) : (initRun s).eBuf = s.eBuf := rfl
@[simp] theorem initRun_src (s : State) : (initRun s).src = s.src := rfl
@[simp] theorem initRun_snk (s : State) : (initRun s).snk = s.snk := rfl
@[simp] theorem initRun_rst (s : State) : (initRun s).rst = s.rst := rfl
@[simp] theorem initRun_inbox (s : State) : (initRun s).inbox = s.inbox := rfl
@[simp] theorem initRun_trace (s : State) : (initRun s).trace = s.trace := rfl

/-! ### `dequeue` -/

@[simp] theorem dequeue_cmd (i : ArenaIx) (s : State) : (dequeue i s).cmd = s.cmd := rfl
@[simp] theorem dequeue_lenArg (i : ArenaIx) (s : State) : (dequeue i s).lenArg = s.lenArg := rfl
@[simp] theorem dequeue_status (i : ArenaIx) (s : State) : (dequeue i s).status = s.status := rfl
@[simp] theorem dequeue_errcode (i : ArenaIx) (s : State) : (dequeue i s).errcode = s.errcode := rfl
@[simp] theorem dequeue_phase (i : ArenaIx) (s : State) : (dequeue i s).phase = s.phase := rfl
@[simp] theorem dequeue_freq (i : ArenaIx) (s : State) : (dequeue i s).freq = s.freq := rfl
@[simp] theorem dequeue_nsym (i : ArenaIx) (s : State) : (dequeue i s).nsym = s.nsym := rfl
@[simp] theorem dequeue_node (i : ArenaIx) (s : State) : (dequeue i s).node = s.node := rfl
@[simp] theorem dequeue_inq (i : ArenaIx) (s : State) : (dequeue i s).inq = s.inq.set i.val false i.isLt := rfl
@[simp] theorem dequeue_nnodes (i : ArenaIx) (s : State) : (dequeue i s).nnodes = s.nnodes := rfl
@[simp] theorem dequeue_root (i : ArenaIx) (s : State) : (dequeue i s).root = s.root := rfl
@[simp] theorem dequeue_code (i : ArenaIx) (s : State) : (dequeue i s).code = s.code := rfl
@[simp] theorem dequeue_acc (i : ArenaIx) (s : State) : (dequeue i s).acc = s.acc := rfl
@[simp] theorem dequeue_dtab (i : ArenaIx) (s : State) : (dequeue i s).dtab = s.dtab := rfl
@[simp] theorem dequeue_dn (i : ArenaIx) (s : State) : (dequeue i s).dn = s.dn := rfl
@[simp] theorem dequeue_cand (i : ArenaIx) (s : State) : (dequeue i s).cand = s.cand := rfl
@[simp] theorem dequeue_eSym (i : ArenaIx) (s : State) : (dequeue i s).eSym = s.eSym := rfl
@[simp] theorem dequeue_eLen (i : ArenaIx) (s : State) : (dequeue i s).eLen = s.eLen := rfl
@[simp] theorem dequeue_eNb (i : ArenaIx) (s : State) : (dequeue i s).eNb = s.eNb := rfl
@[simp] theorem dequeue_eBuf (i : ArenaIx) (s : State) : (dequeue i s).eBuf = s.eBuf := rfl
@[simp] theorem dequeue_src (i : ArenaIx) (s : State) : (dequeue i s).src = s.src := rfl
@[simp] theorem dequeue_snk (i : ArenaIx) (s : State) : (dequeue i s).snk = s.snk := rfl
@[simp] theorem dequeue_rst (i : ArenaIx) (s : State) : (dequeue i s).rst = s.rst := rfl
@[simp] theorem dequeue_inbox (i : ArenaIx) (s : State) : (dequeue i s).inbox = s.inbox := rfl
@[simp] theorem dequeue_trace (i : ArenaIx) (s : State) : (dequeue i s).trace = s.trace := rfl

/-! ### `countByte` -/

@[simp] theorem countByte_cmd (b : Byte) (s : State) : (countByte b s).cmd = s.cmd := rfl
@[simp] theorem countByte_lenArg (b : Byte) (s : State) : (countByte b s).lenArg = s.lenArg := rfl
@[simp] theorem countByte_status (b : Byte) (s : State) : (countByte b s).status = s.status := rfl
@[simp] theorem countByte_errcode (b : Byte) (s : State) : (countByte b s).errcode = s.errcode := rfl
@[simp] theorem countByte_phase (b : Byte) (s : State) : (countByte b s).phase = s.phase := rfl
@[simp] theorem countByte_freq (b : Byte) (s : State) : (countByte b s).freq = putSym s.freq b (lookSym s.freq b + 1) := rfl
@[simp] theorem countByte_nsym (b : Byte) (s : State) : (countByte b s).nsym = s.nsym := rfl
@[simp] theorem countByte_node (b : Byte) (s : State) : (countByte b s).node = s.node := rfl
@[simp] theorem countByte_inq (b : Byte) (s : State) : (countByte b s).inq = s.inq := rfl
@[simp] theorem countByte_nnodes (b : Byte) (s : State) : (countByte b s).nnodes = s.nnodes := rfl
@[simp] theorem countByte_root (b : Byte) (s : State) : (countByte b s).root = s.root := rfl
@[simp] theorem countByte_code (b : Byte) (s : State) : (countByte b s).code = s.code := rfl
@[simp] theorem countByte_acc (b : Byte) (s : State) : (countByte b s).acc = s.acc := rfl
@[simp] theorem countByte_dtab (b : Byte) (s : State) : (countByte b s).dtab = s.dtab := rfl
@[simp] theorem countByte_dn (b : Byte) (s : State) : (countByte b s).dn = s.dn := rfl
@[simp] theorem countByte_cand (b : Byte) (s : State) : (countByte b s).cand = s.cand := rfl
@[simp] theorem countByte_eSym (b : Byte) (s : State) : (countByte b s).eSym = s.eSym := rfl
@[simp] theorem countByte_eLen (b : Byte) (s : State) : (countByte b s).eLen = s.eLen := rfl
@[simp] theorem countByte_eNb (b : Byte) (s : State) : (countByte b s).eNb = s.eNb := rfl
@[simp] theorem countByte_eBuf (b : Byte) (s : State) : (countByte b s).eBuf = s.eBuf := rfl
@[simp] theorem countByte_src (b : Byte) (s : State) : (countByte b s).src = s.src := rfl
@[simp] theorem countByte_snk (b : Byte) (s : State) : (countByte b s).snk = s.snk := rfl
@[simp] theorem countByte_rst (b : Byte) (s : State) : (countByte b s).rst = s.rst := rfl
@[simp] theorem countByte_inbox (b : Byte) (s : State) : (countByte b s).inbox = s.inbox := rfl
@[simp] theorem countByte_trace (b : Byte) (s : State) : (countByte b s).trace = s.trace := rfl

/-! ### `resetBlock` -/

@[simp] theorem resetBlock_cmd (s : State) : (resetBlock s).cmd = State.reset.cmd := rfl
@[simp] theorem resetBlock_lenArg (s : State) : (resetBlock s).lenArg = State.reset.lenArg := rfl
@[simp] theorem resetBlock_status (s : State) : (resetBlock s).status = State.reset.status := rfl
@[simp] theorem resetBlock_errcode (s : State) : (resetBlock s).errcode = State.reset.errcode := rfl
@[simp] theorem resetBlock_phase (s : State) : (resetBlock s).phase = State.reset.phase := rfl
@[simp] theorem resetBlock_freq (s : State) : (resetBlock s).freq = State.reset.freq := rfl
@[simp] theorem resetBlock_nsym (s : State) : (resetBlock s).nsym = State.reset.nsym := rfl
@[simp] theorem resetBlock_node (s : State) : (resetBlock s).node = State.reset.node := rfl
@[simp] theorem resetBlock_inq (s : State) : (resetBlock s).inq = State.reset.inq := rfl
@[simp] theorem resetBlock_nnodes (s : State) : (resetBlock s).nnodes = State.reset.nnodes := rfl
@[simp] theorem resetBlock_root (s : State) : (resetBlock s).root = State.reset.root := rfl
@[simp] theorem resetBlock_code (s : State) : (resetBlock s).code = State.reset.code := rfl
@[simp] theorem resetBlock_acc (s : State) : (resetBlock s).acc = State.reset.acc := rfl
@[simp] theorem resetBlock_dtab (s : State) : (resetBlock s).dtab = State.reset.dtab := rfl
@[simp] theorem resetBlock_dn (s : State) : (resetBlock s).dn = State.reset.dn := rfl
@[simp] theorem resetBlock_cand (s : State) : (resetBlock s).cand = State.reset.cand := rfl
@[simp] theorem resetBlock_eSym (s : State) : (resetBlock s).eSym = State.reset.eSym := rfl
@[simp] theorem resetBlock_eLen (s : State) : (resetBlock s).eLen = State.reset.eLen := rfl
@[simp] theorem resetBlock_eNb (s : State) : (resetBlock s).eNb = State.reset.eNb := rfl
@[simp] theorem resetBlock_eBuf (s : State) : (resetBlock s).eBuf = State.reset.eBuf := rfl
@[simp] theorem resetBlock_src (s : State) : (resetBlock s).src = s.src := rfl
@[simp] theorem resetBlock_snk (s : State) : (resetBlock s).snk = s.snk := rfl
@[simp] theorem resetBlock_rst (s : State) : (resetBlock s).rst = s.rst := rfl
@[simp] theorem resetBlock_inbox (s : State) : (resetBlock s).inbox = s.inbox := rfl
@[simp] theorem resetBlock_trace (s : State) : (resetBlock s).trace = s.trace := rfl

end Sys2Proof.Machine
end

