-- ==== Sys2Proof/Laws/Memory.lean ====
section
/-! SUPPORT. What the accesses to the two streams do, said once for each, and that each keeps the memory well formed. -/

namespace Sys2Proof.Machine

/-! ### The named states between accesses -/

@[simp] theorem afterReads_nil (s : State) : afterReads [] s = s := by simp [afterReads]

@[simp] theorem afterWrites_nil (s : State) : afterWrites [] s = s := by simp [afterWrites]

theorem afterReads_append (xs ys : List Byte) (s : State) :
    afterReads ys (afterReads xs s) = afterReads (xs ++ ys) s := by
  simp [afterReads, Nat.add_assoc]

theorem afterWrites_append (xs ys : List Byte) (s : State) :
    afterWrites ys (afterWrites xs s) = afterWrites (xs ++ ys) s := by
  simp [afterWrites]

theorem unread_afterReads {s : State} {xs rest : List Byte} (h : unread s = xs ++ rest) :
    unread (afterReads xs s) = rest := by
  have h' : s.src.data.drop s.src.pos = xs ++ rest := h
  simp [unread, afterReads, ← List.drop_drop, h']

@[simp] theorem unread_atEos (s : State) : unread (atEos s) = unread s := rfl

@[simp] theorem unread_afterWrites (bs : List Byte) (s : State) : unread (afterWrites bs s) = unread s := rfl

theorem srcLeft_eq (s : State) : srcLeft s = (unread s).length := by simp [srcLeft, unread]

/-! ### SrcRead -/

theorem srcRead_of_unread_nil {s : State} (h : unread s = []) : srcRead s = (none, atEos s) := by
  have : s.src.data[s.src.pos]? = none := by
    simpa [unread, List.drop_eq_nil_iff] using h
  simp [srcRead, this, atEos]

theorem srcRead_of_unread_cons {s : State} {b : Byte} {rest : List Byte} (h : unread s = b :: rest) :
    srcRead s = (some b, afterReads [b] s) := by
  have : s.src.data[s.src.pos]? = some b := by
    have := congrArg List.head? h
    simpa [unread, List.head?_drop] using this
  simp [srcRead, this, afterReads]

/-- Everything a `SrcRead` can do (R53). -/
theorem srcRead_cases (s : State) :
    (unread s = [] ∧ srcRead s = (none, atEos s)) ∨
    ∃ b rest, unread s = b :: rest ∧ srcRead s = (some b, afterReads [b] s) := by
  cases h : unread s with
  | nil => exact .inl ⟨rfl, srcRead_of_unread_nil h⟩
  | cons b rest => exact .inr ⟨b, rest, rfl, srcRead_of_unread_cons h⟩

/-- The cursor after everything left has been read. -/
theorem pos_afterReads_unread {s : State} (h : Memory.wf s.src) :
    (afterReads (unread s) s).src.pos = s.src.data.length := by
  have : s.src.pos ≤ s.src.data.length := h
  simp [afterReads, unread]; omega

/-- `n` bytes taken from a source that has them. -/
theorem srcTake_of_unread {xs rest : List Byte} :
    ∀ {s : State}, unread s = xs ++ rest → srcTake xs.length s = (some xs, afterReads xs s) := by
  induction xs with
  | nil => intro s _; simp [srcTake]
  | cons x xs ih =>
    intro s h
    have h1 := srcRead_of_unread_cons (s := s) (b := x) (rest := xs ++ rest) (by simpa using h)
    have h2 := ih (s := afterReads [x] s) (unread_afterReads (xs := [x]) (by simpa using h))
    simp only [List.length_cons, srcTake, h1, h2]
    rw [afterReads_append]; rfl

/-- `n` bytes taken from a source that has fewer: all of them are read, then EOS. -/
theorem srcTake_of_short {n : Nat} :
    ∀ {s : State}, (unread s).length < n → srcTake n s = (none, atEos (afterReads (unread s) s)) := by
  induction n with
  | zero => intro s h; omega
  | succ n ih =>
    intro s h
    obtain ⟨h0, h1⟩ | ⟨b, rest, h0, h1⟩ := srcRead_cases s
    · simp [srcTake, h1, h0]
    · have hr : unread (afterReads [b] s) = rest := unread_afterReads (xs := [b]) (by simpa using h0)
      have h2 := ih (s := afterReads [b] s) (by rw [hr]; simpa [h0] using h)
      simp only [srcTake, h1, h2, hr, afterReads_append, h0, List.singleton_append]

/-! ### SinkWrite -/

theorem sinkWrite_eq (b : Byte) (s : State) : sinkWrite b s = afterWrites [b] s := by
  simp [sinkWrite, afterWrites]

/-- Everything a sequence of `SinkWrite`s does (R56). -/
theorem sinkWrites_eq (bs : List Byte) : ∀ s, sinkWrites bs s = afterWrites bs s := by
  induction bs with
  | nil => simp [sinkWrites]
  | cons b bs ih =>
    intro s
    rw [sinkWrites, ih, sinkWrite_eq, afterWrites_append]; rfl

/-! ### The memory stays well formed -/

theorem wf_afterReads {s : State} {xs rest : List Byte} (hw : Memory.wf s.src) (h : unread s = xs ++ rest) :
    Memory.wf (afterReads xs s).src := by
  have := congrArg List.length h
  have hw' : s.src.pos ≤ s.src.data.length := hw
  simp [unread] at this
  simp [Memory.wf, afterReads]; omega

theorem wf_srcRead {s : State} (h : Memory.wf s.src) : Memory.wf (srcRead s).2.src := by
  obtain ⟨_, h1⟩ | ⟨b, rest, h0, h1⟩ := srcRead_cases s
  · simpa [h1, atEos] using h
  · rw [h1]; exact wf_afterReads h (xs := [b]) (by simpa using h0)

theorem wf_srcRewind (s : State) : Memory.wf (srcRewind s).src := by simp [Memory.wf]

theorem wf_sinkWrites {s : State} (bs : List Byte) (h : Memory.wf s.src) : Memory.wf (sinkWrites bs s).src := by
  rw [sinkWrites_eq]; exact h

theorem wf_srcTake {n : Nat} : ∀ {s : State}, Memory.wf s.src → Memory.wf (srcTake n s).2.src := by
  induction n with
  | zero => intro s h; exact h
  | succ n ih =>
    intro s h
    have h1 := wf_srcRead h
    simp only [srcTake]
    split
    · simp_all
    · next c s1 hr =>
      rw [hr] at h1
      have h2 := ih (s := s1) h1
      split <;> simp_all

theorem reset_memory_wf : Memory.wf State.reset.src := by decide

end Sys2Proof.Machine
end

