-- ==== Sys2Proof/Laws/Operands.lean ====
section
/-! SUPPORT. The lemmas of the operands: bytes and their bits, tables indexed by symbol. -/

namespace Sys2Proof.Machine

/-! ### Bytes and bits -/

@[simp] theorem byteBits_length (b : Byte) : (byteBits b).length = 8 := rfl

theorem byteBits_byteOfBits : ∀ b7 b6 b5 b4 b3 b2 b1 b0 : Bool,
    byteBits (byteOfBits b7 b6 b5 b4 b3 b2 b1 b0) = [b7, b6, b5, b4, b3, b2, b1, b0] := by decide

theorem byteOf_byteBits : ∀ b : Byte, byteOf (byteBits b) = b := by decide +kernel

/-- The bits of a packed byte are the first eight bits of the bit-string, then pad bits. -/
theorem byteBits_byteOf (s : BitString) :
    byteBits (byteOf s) = [bitAt s 0, bitAt s 1, bitAt s 2, bitAt s 3, bitAt s 4, bitAt s 5, bitAt s 6, bitAt s 7] :=
  byteBits_byteOfBits ..

theorem packBytes_length (n : Nat) : ∀ s, (packBytes n s).length = n := by
  induction n with
  | zero => intro s; rfl
  | succ n ih => intro s; simp [packBytes, ih]

theorem flatMap_byteBits_length (bs : List Byte) : (bs.flatMap byteBits).length = 8 * bs.length := by
  induction bs with
  | nil => rfl
  | cons b bs ih => simp [List.flatMap_cons, ih]; omega

@[simp] theorem ceil8_zero : ceil8 0 = 0 := rfl

theorem ceil8_le_32 (l : Byte) : ceil8 l.toNat ≤ 32 := by
  have := l.isLt
  simp only [ceil8]; omega

theorem charBit_bitChar (b : Bool) : charBit (bitChar b) = some b := by cases b <;> decide

/-! ### Tables indexed by symbol -/

@[simp] theorem lookSym_putSym_same {α : Type} (t : Vector α Config.NSYMVALS) (c : Byte) (x : α) :
    lookSym (putSym t c x) c = x := by simp [lookSym, putSym]

theorem lookSym_putSym_ne {α : Type} (t : Vector α Config.NSYMVALS) {c d : Byte} (x : α) (h : c ≠ d) :
    lookSym (putSym t c x) d = lookSym t d := by
  have : c.toNat ≠ d.toNat := fun e => h (BitVec.eq_of_toNat_eq e)
  simp [lookSym, putSym, this]

theorem lookSym_putSym {α : Type} (t : Vector α Config.NSYMVALS) (c d : Byte) (x : α) :
    lookSym (putSym t c x) d = if c = d then x else lookSym t d := by
  split
  · next h => subst h; simp
  · next h => exact lookSym_putSym_ne t x h

@[simp] theorem lookSym_replicate {α : Type} (x : α) (c : Byte) : lookSym (Vector.replicate _ x) c = x := by
  simp [lookSym]

@[simp] theorem getElem_mapTable {α : Type} {n : Nat} (f : α → α) (t : Vector α n) (i : Nat) (h : i < n) :
    (mapTable f t)[i] = f t[i] := by
  simp [mapTable, Vector.getElem_mk]

@[simp] theorem lookSym_mapTable {α : Type} (f : α → α) (t : Vector α Config.NSYMVALS) (c : Byte) :
    lookSym (mapTable f t) c = f (lookSym t c) := by
  simp [lookSym]

theorem mem_allSymbols (c : Byte) : c ∈ allSymbols := by
  simp only [allSymbols, List.mem_map, List.mem_range]
  exact ⟨c.toNat, c.isLt, by simp⟩

theorem allSymbols_length : allSymbols.length = 256 := by simp [allSymbols]

theorem mem_presentSymbols (freq : Vector Count Config.NSYMVALS) (c : Byte) :
    c ∈ presentSymbols freq ↔ lookSym freq c ≠ 0 := by
  simp [presentSymbols, mem_allSymbols]

end Sys2Proof.Machine
end

