-- ==== Sys2Proof/Laws/Ops.lean ====
section
/-! SUPPORT. One spec lemma per shared operation: everything it can do, said once, so that provers cite it and do not unfold. -/

namespace Sys2Proof.Machine

/-! ### Loops over the source -/

/-- The counting loop: everything left is read and counted, then EOS (R111). -/
theorem countLoop_eq (rest : List Byte) : ∀ s, unread s = rest →
    countLoop rest.length s =
      { atEos (afterReads rest s) with freq := rest.foldl (fun f b => putSym f b (lookSym f b + 1)) s.freq } := by
  induction rest with
  | nil => intro s h; simp [countLoop, srcRead_of_unread_nil h, atEos]
  | cons b rest ih =>
    intro s h
    have hr : unread (countByte b (afterReads [b] s)) = rest :=
      unread_afterReads (s := s) (xs := [b]) (by simpa using h)
    simp only [List.length_cons, countLoop, srcRead_of_unread_cons h]
    rw [ih _ hr]
    simp [countByte, atEos, afterReads, Nat.add_assoc, Nat.add_comm]

/-- The character loop on characters that are all '0' or '1': the bits they stand for are appended to `ACC`, everything read, then
EOS (R204). -/
theorem readChars_of_chars (bits : BitString) : ∀ s : State, unread s = bits.map bitChar →
    readChars bits.length s = (true, { atEos (afterReads (bits.map bitChar) s) with acc := s.acc ++ bits }) := by
  induction bits with
  | nil => intro s h; simp [readChars, srcRead_of_unread_nil (s := s) (by simpa using h), atEos]
  | cons b bits ih =>
    intro s h
    have h1 := srcRead_of_unread_cons (s := s) (b := bitChar b) (rest := bits.map bitChar) (by simpa using h)
    have hr : unread { afterReads [bitChar b] s with acc := s.acc ++ [b] } = bits.map bitChar :=
      unread_afterReads (s := s) (xs := [bitChar b]) (by simpa using h)
    have h2 := ih _ hr
    simp only [List.length_cons, readChars, h1, charBit_bitChar]
    refine h2.trans ?_
    simp [afterReads, atEos]
    omega

/-- The character loop on an input with another character: it stops right after the first one, with the bits before it in `ACC` and
nothing written (R148). -/
theorem readChars_of_bad (bits : BitString) (c : Byte) (rest : List Byte) (hc : charBit c = none) :
    ∀ s : State, unread s = bits.map bitChar ++ c :: rest →
    readChars (unread s).length s =
      (false, { afterReads (bits.map bitChar ++ [c]) s with acc := s.acc ++ bits }) := by
  induction bits with
  | nil =>
    intro s h
    have h1 := srcRead_of_unread_cons (s := s) (b := c) (rest := rest) (by simpa using h)
    simp [h, readChars, h1, hc, afterReads]
  | cons b bits ih =>
    intro s h
    have h1 := srcRead_of_unread_cons (s := s) (b := bitChar b) (rest := bits.map bitChar ++ c :: rest) (by simpa using h)
    have hr : unread { afterReads [bitChar b] s with acc := s.acc ++ [b] } = bits.map bitChar ++ c :: rest :=
      unread_afterReads (s := s) (xs := [bitChar b]) (by simpa using h)
    have h2 := ih _ hr
    rw [hr] at h2
    rw [h]
    simp only [List.map_cons, List.cons_append, List.length_cons, readChars, h1, charBit_bitChar]
    refine h2.trans ?_
    simp [afterReads]
    omega

/-- A byte that stands for no bit is neither '0' nor '1', and any other is the character of its bit. -/
theorem charBit_cases (c : Byte) : (charBit c = none ∧ c ≠ 0x30 ∧ c ≠ 0x31) ∨ ∃ b, charBit c = some b ∧ c = bitChar b := by
  by_cases h0 : c = 0x30
  · exact .inr ⟨false, by subst h0; decide⟩
  · by_cases h1 : c = 0x31
    · exact .inr ⟨true, by subst h1; decide⟩
    · exact .inl ⟨by rw [charBit, if_neg h0, if_neg h1], h0, h1⟩

/-- The code bytes of an entry, all there: they are read into the buffer (R181). -/
theorem readCode_of_unread (xs : List Byte) {rest : List Byte} : ∀ (j : Nat) (s : State), unread s = xs ++ rest →
    readCode xs.length j s = (true, { afterReads xs s with eBuf := putBytes s.eBuf j xs }) := by
  induction xs with
  | nil => intro j s _; simp [readCode, putBytes]
  | cons x xs ih =>
    intro j s h
    have h1 := srcRead_of_unread_cons (s := s) (b := x) (rest := xs ++ rest) (by simpa using h)
    have hr : unread { afterReads [x] s with eBuf := (afterReads [x] s).eBuf.setIfInBounds j x } = xs ++ rest :=
      unread_afterReads (s := s) (xs := [x]) (by simpa using h)
    simp only [List.length_cons, readCode, h1, ih _ _ hr]
    simp [afterReads, putBytes, Nat.add_assoc, Nat.add_comm]

/-- The code bytes of an entry, not all there: those that are stand in the buffer, then EOS (R184 case 3). -/
theorem readCode_of_short {n : Nat} : ∀ (j : Nat) (s : State), (unread s).length < n →
    readCode n j s = (false, { atEos (afterReads (unread s) s) with eBuf := putBytes s.eBuf j (unread s) }) := by
  induction n with
  | zero => intro j s h; omega
  | succ n ih =>
    intro j s h
    obtain ⟨h0, h1⟩ | ⟨b, rest, h0, h1⟩ := srcRead_cases s
    · simp [readCode, h1, h0, putBytes, atEos]
    · have hr : unread { afterReads [b] s with eBuf := (afterReads [b] s).eBuf.setIfInBounds j b } = rest :=
        unread_afterReads (s := s) (xs := [b]) (by simpa using h0)
      have h2 := ih (j + 1) _ (by rw [hr]; simpa [h0] using h)
      simp only [readCode, h1, h2, hr, h0]
      simp [afterReads, atEos, putBytes, Nat.add_assoc, Nat.add_comm]

/-! ### The accumulator -/

/-- `n` leading bytes of the accumulator written out (R168). -/
theorem emitBytes_eq (n : Nat) : ∀ s, emitBytes n s =
    { afterWrites (packBytes n s.acc) s with acc := s.acc.drop (8 * n) } := by
  induction n with
  | zero => intro s; simp [emitBytes, packBytes]
  | succ n ih =>
    intro s
    rw [emitBytes, ih]
    simp [sinkWrite_eq, afterWrites, packBytes, List.drop_drop, Nat.mul_add, Nat.add_comm]

/-! ### The decoder's table -/

/-- Everything inserting an entry can do (R181, R185, R186): a duplicate key is tested before a full table (R229). -/
theorem insertEntry_cases (s : State) :
    let key := unpack (s.eBuf.toList.take s.eNb) s.eLen.toNat
    ((∃ e ∈ usedEntries s, e.key = key) ∧ insertEntry s = raise .formatDuplicateKey s) ∨
    ((∀ e ∈ usedEntries s, e.key ≠ key) ∧ 256 ≤ s.dn ∧ insertEntry s = raise .formatTableFull s) ∨
    ∃ h : s.dn < 256, (∀ e ∈ usedEntries s, e.key ≠ key) ∧
      insertEntry s =
        { s with dtab := s.dtab.set s.dn { keylen := s.eLen, key := key, sym := s.eSym } h, dn := s.dn + 1 } := by
  intro key
  by_cases hd : ∃ e ∈ usedEntries s, e.key = key
  · refine .inl ⟨hd, ?_⟩
    have : (usedEntries s).any (fun e => decide (e.key = key)) = true := by simpa using hd
    simp only [insertEntry]; rw [if_pos this]
  · have hn : ∀ e ∈ usedEntries s, e.key ≠ key := by simpa using hd
    have : ¬ (usedEntries s).any (fun e => decide (e.key = key)) = true := by simpa using hd
    by_cases hf : s.dn < 256
    · refine .inr (.inr ⟨hf, hn, ?_⟩)
      simp only [insertEntry]; rw [if_neg this, dif_pos hf]
    · refine .inr (.inl ⟨hn, by omega, ?_⟩)
      simp only [insertEntry]; rw [if_neg this, dif_neg hf]

/-- Everything one payload bit can do (R190). -/
theorem matchBit_cases (s : State) (bit : Bool) :
    (∃ e ∈ usedEntries s, e.key = s.cand ++ [bit] ∧ matchBit s bit = { afterWrites [e.sym] s with cand := [] }) ∨
    (∀ e ∈ usedEntries s, e.key ≠ s.cand ++ [bit]) ∧ matchBit s bit = { s with cand := s.cand ++ [bit] } := by
  cases h : (usedEntries s).find? (fun e => decide (e.key = s.cand ++ [bit])) with
  | some e =>
    refine .inl ⟨e, List.mem_of_find?_eq_some h, by simpa using List.find?_some h, ?_⟩
    simp [matchBit, h, sinkWrite_eq]
  | none =>
    refine .inr ⟨fun e he => by simpa using List.find?_eq_none.mp h e he, ?_⟩
    simp [matchBit, h]

theorem matchByte_eq (b : Byte) (s : State) : matchByte b s = (byteBits b).foldl matchBit s := by
  simp [matchByte, unpack, byteBits]

/-! ### The queue -/

theorem mem_allIndices (i : ArenaIx) : i ∈ allIndices := by
  unfold allIndices; exact List.mem_finRange i

theorem mem_queue (s : State) (i : ArenaIx) : i ∈ queue s ↔ i.val < s.nnodes ∧ s.inq[i] = true := by
  simp [queue, mem_allIndices]

/-- Everything a node pushed does; it cannot be pushed only when the arena is full (R122, R124). -/
theorem pushNode_cases (make : Node → Node) (s : State) :
    (511 ≤ s.nnodes ∧ pushNode make s = none) ∨
    ∃ h : s.nnodes < 511, pushNode make s = some { s with
      node := s.node.set s.nnodes (make (s.node[s.nnodes]'h)) h
      inq := s.inq.set s.nnodes true h
      nnodes := s.nnodes + 1 } := by
  by_cases h : s.nnodes < 511
  · exact .inr ⟨h, by rw [pushNode, dif_pos h]⟩
  · exact .inl ⟨by omega, by rw [pushNode, dif_neg h]⟩

/-! ### START -/

/-- Everything a write of `CMD` with `START` = 1 can do (R201, R210). -/
theorem writeStart_cases (op : BitVec 3) (s : State) :
    (s.status.busy = true ∧ writeStart op s = s) ∨
    (s.status.busy = false ∧ firstPhase op = none ∧ writeStart op s = raise .badCmd (initRun (latchOp op s))) ∨
    (∃ p, s.status.busy = false ∧ firstPhase op = some p ∧ s.src.avail = false ∧
      writeStart op s = raise .inputUnavailable (initRun (latchOp op s))) ∨
    ∃ p, s.status.busy = false ∧ firstPhase op = some p ∧ s.src.avail = true ∧
      writeStart op s = { initRun (latchOp op s) with phase := p } := by
  by_cases hb : s.status.busy = true
  · exact .inl ⟨hb, by simp [writeStart, hb]⟩
  · have hb : s.status.busy = false := by simpa using hb
    right
    cases hp : firstPhase op with
    | none => exact .inl ⟨hb, rfl, by simp [writeStart, start, hb, hp]⟩
    | some p =>
      right
      by_cases ha : s.src.avail = true
      · exact .inr ⟨p, hb, rfl, ha, by simp [writeStart, start, hb, hp, ha]⟩
      · have ha : s.src.avail = false := by simpa using ha
        exact .inl ⟨p, hb, rfl, ha, by simp [writeStart, start, hb, hp, ha]⟩

end Sys2Proof.Machine
end

