-- ==== Sys2Proof/Laws/Step.lean ====
section
/-! SUPPORT. Everything each component operation can do, said once: which fields it writes, and that it writes no other. Provers of
rules of the whole machine cite these and do not unfold the meanings. -/

namespace Sys2Proof.Machine

/-! ### The Tree Builder's shared parts -/

/-- The end of the Tree Builder writes at most `ROOT` and `PHASE`. -/
theorem endBuild_cases (s : State) :
    (∃ r, queue s = [r] ∧ endBuild s = { s with root := r, phase := .cAssign }) ∨
    ((queue s).length ≠ 1 ∧ endBuild s = s) := by
  unfold endBuild
  split
  · next r h => exact .inl ⟨r, h, rfl⟩
  · next h => exact .inr ⟨fun hl => by obtain ⟨r, hr⟩ := List.length_eq_one_iff.mp hl; exact h r hr, rfl⟩

/-! Every field the end of the Tree Builder does not write. -/

@[simp] theorem endBuild_cmd (s : State) : (endBuild s).cmd = s.cmd := by
  obtain ⟨r, _, h⟩ | ⟨_, h⟩ := endBuild_cases s <;> rw [h]
@[simp] theorem endBuild_lenArg (s : State) : (endBuild s).lenArg = s.lenArg := by
  obtain ⟨r, _, h⟩ | ⟨_, h⟩ := endBuild_cases s <;> rw [h]
@[simp] theorem endBuild_status (s : State) : (endBuild s).status = s.status := by
  obtain ⟨r, _, h⟩ | ⟨_, h⟩ := endBuild_cases s <;> rw [h]
@[simp] theorem endBuild_errcode (s : State) : (endBuild s).errcode = s.errcode := by
  obtain ⟨r, _, h⟩ | ⟨_, h⟩ := endBuild_cases s <;> rw [h]
@[simp] theorem endBuild_freq (s : State) : (endBuild s).freq = s.freq := by
  obtain ⟨r, _, h⟩ | ⟨_, h⟩ := endBuild_cases s <;> rw [h]
@[simp] theorem endBuild_nsym (s : State) : (endBuild s).nsym = s.nsym := by
  obtain ⟨r, _, h⟩ | ⟨_, h⟩ := endBuild_cases s <;> rw [h]
@[simp] theorem endBuild_node (s : State) : (endBuild s).node = s.node := by
  obtain ⟨r, _, h⟩ | ⟨_, h⟩ := endBuild_cases s <;> rw [h]
@[simp] theorem endBuild_inq (s : State) : (endBuild s).inq = s.inq := by
  obtain ⟨r, _, h⟩ | ⟨_, h⟩ := endBuild_cases s <;> rw [h]
@[simp] theorem endBuild_nnodes (s : State) : (endBuild s).nnodes = s.nnodes := by
  obtain ⟨r, _, h⟩ | ⟨_, h⟩ := endBuild_cases s <;> rw [h]
@[simp] theorem endBuild_code (s : State) : (endBuild s).code = s.code := by
  obtain ⟨r, _, h⟩ | ⟨_, h⟩ := endBuild_cases s <;> rw [h]
@[simp] theorem endBuild_acc (s : State) : (endBuild s).acc = s.acc := by
  obtain ⟨r, _, h⟩ | ⟨_, h⟩ := endBuild_cases s <;> rw [h]
@[simp] theorem endBuild_dtab (s : State) : (endBuild s).dtab = s.dtab := by
  obtain ⟨r, _, h⟩ | ⟨_, h⟩ := endBuild_cases s <;> rw [h]
@[simp] theorem endBuild_dn (s : State) : (endBuild s).dn = s.dn := by
  obtain ⟨r, _, h⟩ | ⟨_, h⟩ := endBuild_cases s <;> rw [h]
@[simp] theorem endBuild_cand (s : State) : (endBuild s).cand = s.cand := by
  obtain ⟨r, _, h⟩ | ⟨_, h⟩ := endBuild_cases s <;> rw [h]
@[simp] theorem endBuild_eSym (s : State) : (endBuild s).eSym = s.eSym := by
  obtain ⟨r, _, h⟩ | ⟨_, h⟩ := endBuild_cases s <;> rw [h]
@[simp] theorem endBuild_eLen (s : State) : (endBuild s).eLen = s.eLen := by
  obtain ⟨r, _, h⟩ | ⟨_, h⟩ := endBuild_cases s <;> rw [h]
@[simp] theorem endBuild_eNb (s : State) : (endBuild s).eNb = s.eNb := by
  obtain ⟨r, _, h⟩ | ⟨_, h⟩ := endBuild_cases s <;> rw [h]
@[simp] theorem endBuild_eBuf (s : State) : (endBuild s).eBuf = s.eBuf := by
  obtain ⟨r, _, h⟩ | ⟨_, h⟩ := endBuild_cases s <;> rw [h]
@[simp] theorem endBuild_src (s : State) : (endBuild s).src = s.src := by
  obtain ⟨r, _, h⟩ | ⟨_, h⟩ := endBuild_cases s <;> rw [h]
@[simp] theorem endBuild_snk (s : State) : (endBuild s).snk = s.snk := by
  obtain ⟨r, _, h⟩ | ⟨_, h⟩ := endBuild_cases s <;> rw [h]
@[simp] theorem endBuild_rst (s : State) : (endBuild s).rst = s.rst := by
  obtain ⟨r, _, h⟩ | ⟨_, h⟩ := endBuild_cases s <;> rw [h]
@[simp] theorem endBuild_inbox (s : State) : (endBuild s).inbox = s.inbox := by
  obtain ⟨r, _, h⟩ | ⟨_, h⟩ := endBuild_cases s <;> rw [h]
@[simp] theorem endBuild_trace (s : State) : (endBuild s).trace = s.trace := by
  obtain ⟨r, _, h⟩ | ⟨_, h⟩ := endBuild_cases s <;> rw [h]

/-- Seeding writes only the arena, its flags and its count. -/
theorem seedLeaves_frame (cs : List Byte) : ∀ s t, seedLeaves cs s = some t →
    ∃ N Q n, t = { s with node := N, inq := Q, nnodes := n } ∧ s.nnodes ≤ n ∧ (s.nnodes ≤ 511 → n ≤ 511) := by
  induction cs with
  | nil =>
    intro s t h
    obtain rfl : s = t := by simpa [seedLeaves] using h
    exact ⟨_, _, _, rfl, le_refl _, id⟩
  | cons c cs ih =>
    intro s t h
    simp only [seedLeaves] at h
    split at h
    · exact ih _ _ h
    · obtain ⟨_, h1⟩ | ⟨hh, h1⟩ :=
        pushNode_cases (fun old => { old with kind := .leaf, sym := c, freq := lookSym s.freq c }) s
      · simp [h1] at h
      · rw [h1] at h
        obtain ⟨N, Q, n, rfl, hn, hm⟩ := ih _ _ h
        simp only at hn hm
        exact ⟨N, Q, n, rfl, by omega, fun _ => hm (by omega)⟩

/-! ### One lemma per operation -/

theorem execFreqScan_next {s t : State} (h : execFreqScan s = .next t) :
    (unread s).length < 2 ^ 64 ∧ ∃ F, F = (unread s).foldl (fun f b => putSym f b (lookSym f b + 1)) s.freq ∧
      t = { atEos (afterReads (unread s) s) with
        freq := F
        nsym := (presentSymbols F).length
        phase := if (presentSymbols F).length = 0 then .cHeader else .cBuild } := by
  simp only [execFreqScan, srcLeft_eq, countLoop_eq (unread s) s rfl] at h
  split at h
  · simp at h
  · next hl =>
    injection h with h
    exact ⟨by simpa [Config.CW] using hl, _, rfl, h.symm⟩

theorem execTreeSeed_next {s t : State} (h : execTreeSeed s = .next t) :
    ∃ s1 N Q n, seedLeaves allSymbols s = some s1 ∧ s1 = { s with node := N, inq := Q, nnodes := n } ∧
      s.nnodes ≤ n ∧ (s.nnodes ≤ 511 → n ≤ 511) ∧ t = endBuild s1 := by
  simp only [execTreeSeed] at h
  split at h
  · simp at h
  · next s1 h1 =>
    injection h with h
    obtain ⟨N, Q, n, h2, h3, h4⟩ := seedLeaves_frame _ _ _ h1
    exact ⟨s1, N, Q, n, h1, h2, h3, h4, h.symm⟩

theorem execTreeMerge_next {s t : State} (h : execTreeMerge s = .next t) :
    (∃ a, least s.node (queue s) = some a ∧ least s.node (queue (dequeue a s)) = none ∧ t = endBuild s) ∨
    ∃ a b, ∃ hn : s.nnodes < 511, least s.node (queue s) = some a ∧ least s.node (queue (dequeue a s)) = some b ∧
      t = endBuild { s with
        node := s.node.set s.nnodes (mergeNode s.node a b (s.node[s.nnodes]'hn)) hn
        inq := ((s.inq.set a.val false a.isLt).set b.val false b.isLt).set s.nnodes true hn
        nnodes := s.nnodes + 1 } := by
  unfold execTreeMerge at h
  rcases ha : least s.node (queue s) with _ | a
  · rw [ha] at h; simp at h
  · rw [ha] at h; dsimp only at h
    rcases hb : least (dequeue a s).node (queue (dequeue a s)) with _ | b
    · rw [hb] at h; dsimp only at h
      exact .inl ⟨a, rfl, hb, (Host.Outcome.next.inj h).symm⟩
    · rw [hb] at h; dsimp only at h
      obtain ⟨_, h1⟩ | ⟨hn, h1⟩ := pushNode_cases (mergeNode s.node a b) (dequeue b (dequeue a s))
      · rw [h1] at h; simp at h
      · rw [h1] at h; dsimp only at h
        exact .inr ⟨a, b, hn, rfl, hb, (Host.Outcome.next.inj h).symm.trans (congrArg endBuild rfl)⟩

theorem execCodeAssign_next {s t : State} (h : execCodeAssign s = .next t) :
    ∃ C, t = { s with code := C, phase := .cHeader } ∧
      (s.nsym = 1 ∧ C = putSym s.code s.node[(0 : ArenaIx)].sym { valid := true, len := 1, bits := [false] } ∨
        s.nsym ≠ 1 ∧ visit s.node 256 s.root [] s.code = some C) := by
  simp only [execCodeAssign] at h
  split at h
  · next h1 => injection h with h; exact ⟨_, h.symm, .inl ⟨h1, rfl⟩⟩
  · next h1 =>
    split at h
    · simp at h
    · next C hC => injection h with h; exact ⟨C, h.symm, .inr ⟨h1, hC⟩⟩

/-- The two shapes an input of the PACK command can have: characters only, or characters and then another byte. -/
theorem chars_or_bad (l : List Byte) :
    (∃ bits : BitString, l = bits.map bitChar) ∨
    ∃ (bits : BitString) (c : Byte) (rest : List Byte), charBit c = none ∧ l = bits.map bitChar ++ c :: rest := by
  induction l with
  | nil => exact .inl ⟨[], rfl⟩
  | cons c l ih =>
    obtain ⟨hc, _⟩ | ⟨b, _, rfl⟩ := charBit_cases c
    · exact .inr ⟨[], c, l, hc, rfl⟩
    · obtain ⟨bits, rfl⟩ | ⟨bits, d, rest, hd, rfl⟩ := ih
      · exact .inl ⟨b :: bits, rfl⟩
      · exact .inr ⟨b :: bits, d, rest, hd, rfl⟩

theorem execPackBits_cases (s : State) :
    (∃ bits : BitString, unread s = bits.map bitChar ∧
      execPackBits s =
        .next (finish { afterWrites (pack bits) (atEos (afterReads (unread s) s)) with acc := [] })) ∨
    ∃ (bits : BitString) (c : Byte) (rest : List Byte), charBit c = none ∧ unread s = bits.map bitChar ++ c :: rest ∧
      execPackBits s =
        .next (raise .encInternal { afterReads (bits.map bitChar ++ [c]) s with acc := bits }) := by
  obtain ⟨bits, h⟩ | ⟨bits, c, rest, hc, h⟩ := chars_or_bad (unread s)
  · refine .inl ⟨bits, h, ?_⟩
    have := readChars_of_chars bits { s with acc := [] } h
    have hl : srcLeft s = bits.length := by rw [srcLeft_eq, h]; simp
    simp only [execPackBits, hl, this, sinkWrites_eq, h]
    rfl
  · refine .inr ⟨bits, c, rest, hc, h, ?_⟩
    have := readChars_of_bad bits c rest hc { s with acc := [] } h
    have hl : srcLeft s = (unread { s with acc := [] }).length := srcLeft_eq s
    simp only [execPackBits, hl, this]
    rfl

theorem execUnpackBits_cases (s : State) :
    (∃ xs rest, unread s = xs ++ rest ∧ xs.length = ceil8 s.lenArg.toNat ∧
      execUnpackBits s =
        .next (finish (afterWrites ((unpack xs s.lenArg.toNat).map bitChar) (afterReads xs s)))) ∨
    ((unread s).length < ceil8 s.lenArg.toNat ∧
      execUnpackBits s = .next (raise .formatTruncated (atEos (afterReads (unread s) s)))) := by
  by_cases h : (unread s).length < ceil8 s.lenArg.toNat
  · exact .inr ⟨h, by simp only [execUnpackBits, srcTake_of_short h]⟩
  · have hx : ((unread s).take (ceil8 s.lenArg.toNat)).length = ceil8 s.lenArg.toNat := by simp; omega
    have hu : unread s = (unread s).take (ceil8 s.lenArg.toNat) ++ (unread s).drop (ceil8 s.lenArg.toNat) := by simp
    have ht := srcTake_of_unread hu
    rw [hx] at ht
    exact .inl ⟨_, _, hu, hx, by simp only [execUnpackBits, ht, sinkWrites_eq]⟩

theorem execSerHeader_eq (s : State) :
    execSerHeader s = .next { afterWrites (headerBytes s.code) s with phase := .cTerm } := by
  simp only [execSerHeader, sinkWrites_eq]

theorem execSerPayload_cases (s : State) :
    (unread s = [] ∧ execSerPayload s = .next { atEos s with phase := .cFlush }) ∨
    (∃ b rest, unread s = b :: rest ∧ (lookSym s.code b).valid = false ∧
      execSerPayload s = .next (raise .encInternal (afterReads [b] s))) ∨
    ∃ b rest, unread s = b :: rest ∧ (lookSym s.code b).valid = true ∧
      execSerPayload s = .next { afterWrites (packBytes ((s.acc ++ (lookSym s.code b).bits).length / 8)
          (s.acc ++ (lookSym s.code b).bits)) (afterReads [b] s) with
        acc := (s.acc ++ (lookSym s.code b).bits).drop (8 * ((s.acc ++ (lookSym s.code b).bits).length / 8)) } := by
  obtain ⟨h0, h1⟩ | ⟨b, rest, h0, h1⟩ := srcRead_cases s
  · exact .inl ⟨h0, by simp only [execSerPayload, h1]⟩
  · right
    by_cases hv : (lookSym s.code b).valid = true
    · refine .inr ⟨b, rest, h0, hv, ?_⟩
      have : (lookSym (afterReads [b] s).code b).valid = true := hv
      simp only [execSerPayload, h1, if_pos this, emitBytes_eq]
      rfl
    · refine .inl ⟨b, rest, h0, by simpa using hv, ?_⟩
      have : ¬ (lookSym (afterReads [b] s).code b).valid = true := hv
      simp only [execSerPayload, h1, if_neg this]

theorem execSerFlush_eq (s : State) :
    execSerFlush s = .next (finish { afterWrites (if s.acc = [] then [] else [byteOf s.acc]) s with acc := [] }) := by
  by_cases h : s.acc = []
  · rw [execSerFlush, if_pos h, if_pos h, afterWrites_nil]
    rw [← h]
  · rw [execSerFlush, if_neg h, if_neg h, sinkWrite_eq]

/-- What one header record can do: the end of the header, an entry inserted or rejected, or a truncation. -/
theorem execDesHeader_cases (s : State) :
    (unread s = [] ∧ execDesHeader s = .next (raise .formatTruncated (atEos s))) ∨
    (∃ rest, unread s = Config.TERM :: rest ∧
      execDesHeader s = .next { afterReads [Config.TERM] s with phase := .dPayload }) ∨
    (∃ b, unread s = [b] ∧ b ≠ Config.TERM ∧
      execDesHeader s = .next (raise .formatTruncated { atEos (afterReads [b] s) with eSym := b })) ∨
    (∃ b l cs, unread s = b :: l :: cs ∧ b ≠ Config.TERM ∧ cs.length < ceil8 l.toNat ∧
      execDesHeader s = .next (raise .formatTruncated { atEos (afterReads (b :: l :: cs) s) with
        eSym := b, eLen := l, eNb := ceil8 l.toNat, eBuf := putBytes s.eBuf 0 cs })) ∨
    ∃ b l cs rest, unread s = b :: l :: cs ++ rest ∧ b ≠ Config.TERM ∧ cs.length = ceil8 l.toNat ∧
      execDesHeader s = .next (insertEntry { afterReads (b :: l :: cs) s with
        eSym := b, eLen := l, eNb := ceil8 l.toNat, eBuf := putBytes s.eBuf 0 cs }) := by
  obtain ⟨h0, h1⟩ | ⟨b, us, h0, h1⟩ := srcRead_cases s
  · exact .inl ⟨h0, by simp only [execDesHeader, h1]⟩
  · right
    by_cases hb : b = Config.TERM
    · subst hb
      exact .inl ⟨us, h0, by simp only [execDesHeader, h1, if_pos]⟩
    · right
      have h2 : unread { afterReads [b] s with eSym := b } = us :=
        unread_afterReads (s := s) (xs := [b]) (by simpa using h0)
      cases us with
      | nil =>
        refine .inl ⟨b, h0, hb, ?_⟩
        simp only [execDesHeader, h1, if_neg hb, srcRead_of_unread_nil h2]
        rfl
      | cons l cs =>
        right
        have h3 := srcRead_of_unread_cons h2
        have h4 : unread { afterReads [l] { afterReads [b] s with eSym := b } with eLen := l, eNb := ceil8 l.toNat } = cs :=
          unread_afterReads (s := { afterReads [b] s with eSym := b }) (xs := [l]) (by simpa using h2)
        by_cases hl : cs.length < ceil8 l.toNat
        · refine .inl ⟨b, l, cs, h0, hb, hl, ?_⟩
          have h5 := readCode_of_short (n := ceil8 l.toNat) 0 _ (by rw [h4]; exact hl)
          simp only [execDesHeader, h1, if_neg hb, h3, h5, h4]
          simp only [raise, atEos, afterReads, List.length_cons, List.length_nil, List.map_cons, List.map_nil,
            List.reverse_cons, List.reverse_nil, List.nil_append, List.append_assoc, List.cons_append]
          congr 3; omega
        · have hx : (cs.take (ceil8 l.toNat)).length = ceil8 l.toNat := by simp; omega
          refine .inr ⟨b, l, cs.take (ceil8 l.toNat), cs.drop (ceil8 l.toNat), by simpa using h0, hb, hx, ?_⟩
          have h5 := readCode_of_unread (cs.take (ceil8 l.toNat)) (rest := cs.drop (ceil8 l.toNat)) 0 _ (by rw [h4]; simp)
          rw [hx] at h5
          simp only [execDesHeader, h1, if_neg hb, h3, h5]
          simp only [afterReads, List.length_cons, List.length_nil, List.map_cons, List.map_nil,
            List.reverse_cons, List.reverse_nil, List.nil_append, List.append_assoc, List.cons_append]
          congr 4; omega

/-- A sequence of payload bits writes the candidate and appends symbols to the sink, at most one per bit. -/
theorem foldl_matchBit (bits : BitString) : ∀ s, ∃ syms cand, syms.length ≤ bits.length ∧
    bits.foldl matchBit s = { afterWrites syms s with cand := cand } := by
  induction bits with
  | nil => intro s; exact ⟨[], s.cand, by simp, by simp⟩
  | cons b bits ih =>
    intro s
    obtain ⟨e, _, _, h⟩ | ⟨_, h⟩ := matchBit_cases s b
    · obtain ⟨syms, cand, hl, h2⟩ := ih { afterWrites [e.sym] s with cand := [] }
      refine ⟨e.sym :: syms, cand, by simpa using hl, ?_⟩
      rw [List.foldl_cons, h, h2]
      simp [afterWrites]
    · obtain ⟨syms, cand, hl, h2⟩ := ih { s with cand := s.cand ++ [b] }
      refine ⟨syms, cand, by simp; omega, ?_⟩
      rw [List.foldl_cons, h, h2]
      rfl

theorem execDesPayload_cases (s : State) :
    (unread s = [] ∧ execDesPayload s = .next (finish { atEos s with cand := [] })) ∨
    ∃ b rest, unread s = b :: rest ∧ execDesPayload s = .next (matchByte b (afterReads [b] s)) := by
  obtain ⟨h0, h1⟩ | ⟨b, rest, h0, h1⟩ := srcRead_cases s
  · exact .inl ⟨h0, by simp only [execDesPayload, h1]⟩
  · exact .inr ⟨b, rest, h0, by simp only [execDesPayload, h1]⟩

theorem matchByte_frame (b : Byte) (s : State) : ∃ syms cand, syms.length ≤ 8 ∧
    matchByte b s = { afterWrites syms s with cand := cand } := by
  rw [matchByte_eq]; exact foldl_matchBit (byteBits b) s

/-! ### One step -/

/-- While `rst` is asserted the block on its own is held in reset (R250). -/
theorem advance_of_held {s : State} (h : s.rst = true) : advance s = .next (resetBlock s) := by simp [advance, h]

/-- With `rst` released the block runs what `PHASE` selects. -/
theorem advance_of_free {s : State} {i : Instr} (h : s.rst = false) (hi : selected s = some i) : advance s = exec i s := by
  simp [advance, h, hi]

theorem advance_of_none {s : State} (h : s.rst = false) (hi : selected s = none) : advance s = .next s := by
  simp [advance, h, hi]

/-- With no act of the host a step is what `PHASE` selects. -/
theorem step_of_inbox_nil {s : State} (h : s.inbox = []) : step s = advance s := by simp [step, h]

theorem step_of_inbox_cons {s : State} {a : HostAct} {rest : List HostAct} (h : s.inbox = a :: rest) :
    step s = hostAct a { s with inbox := rest } := by simp [step, h]

/-- A `CMD` value is one of the six instructions; the first four and the fifth are a write with `START` = 1 (R22, R201). -/
theorem exec_decodeCmd (b : Byte) (s : State) :
    exec (decodeCmd b) s =
      .next (if startField b then writeStart (opField b) s else if s.status.busy then s else latchOp (opField b) s) := by
  unfold decodeCmd
  by_cases hs : startField b = true
  · simp only [hs, if_true]
    split
    · next h => simp only [exec, execCompress, h]
    · split
      · next h => simp only [exec, execDecompress, h]
      · split
        · next h => simp only [exec, execPack, h]
        · split
          · next h => simp only [exec, execUnpack, h]
          · simp only [exec, execCmdReserved]
  · simp only [hs, exec, execCmdNoStart]
    simp

/-- Everything an act of the host that answers a next state can do. -/
theorem hostAct_next {a : HostAct} {s t : State} (h : hostAct a s = .next t) :
    (s.rst = true ∧ ((∃ b, a = .writeCmd b) ∨ ∃ v, a = .writeLenArg v) ∧ t = resetBlock s) ∨
    (∃ b, a = .writeCmd b ∧ s.rst = false ∧ exec (decodeCmd b) s = .next t) ∨
    (∃ v, a = .writeLenArg v ∧ s.rst = false ∧ s.status.busy = false ∧ t = { s with lenArg := v }) ∨
    (a = .assertRst ∧ t = resetBlock { s with rst := true }) ∨
    (a = .releaseRst ∧ t = { s with rst := false }) ∨
    (∃ av d p, a = .presentSource av d p ∧ s.status.busy = false ∧ p ≤ d.length ∧
      t = { s with src := { avail := av, data := d, pos := p } }) ∨
    (∃ d, a = .changeSource d ∧ (s.status.busy = true → inCompress s.phase = true) ∧
      t = { s with src := { s.src with data := d, pos := min s.src.pos d.length } }) ∨
    (∃ d, a = .presentSink d ∧ s.status.busy = false ∧ t = { s with snk := { data := d } }) ∨
    (a = .pass ∧ advance s = .next t) ∨
    (a = .poll ∧ s.status.busy = true ∧ advance { s with inbox := .poll :: s.inbox } = .next t) ∨
    (a = .poll ∧ s.status.busy = false ∧ t = s) := by
  cases a <;> simp only [hostAct] at h
  case writeCmd b =>
    split at h
    · next hr => exact .inl ⟨hr, .inl ⟨b, rfl⟩, (Host.Outcome.next.inj h).symm⟩
    · next hr => exact .inr (.inl ⟨b, rfl, by simpa using hr, h⟩)
  case writeLenArg v =>
    split at h
    · next hr => exact .inl ⟨hr, .inr ⟨v, rfl⟩, (Host.Outcome.next.inj h).symm⟩
    · next hr =>
      split at h
      · simp at h
      · next hb => exact .inr (.inr (.inl ⟨v, rfl, by simpa using hr, by simpa using hb, (Host.Outcome.next.inj h).symm⟩))
  case assertRst => exact .inr (.inr (.inr (.inl ⟨rfl, (Host.Outcome.next.inj h).symm⟩)))
  case releaseRst => exact .inr (.inr (.inr (.inr (.inl ⟨rfl, (Host.Outcome.next.inj h).symm⟩))))
  case pass => simp [h]
  all_goals
    split at h
    · first
      | simp at h
      | simp_all
    · first
      | (injection h with h; subst h; simp_all)
      | (split at h <;> first | (simp at h; done) | (injection h with h; subst h; simp_all))

end Sys2Proof.Machine
end

