-- ==== Sys2Proof/Tests/Slice0.lean ====
section
/-! SUPPORT. The model's own tests. Every expected value is copied from spec/: the encodings of 30_encoding.md, the vectors of
95_test_vectors.md, named by their ids. After them one witness per statement that has hypotheses: a state and operands that meet
all of them together. -/

namespace Sys2Proof.Tests

set_option Elab.async false

open Sys2Proof Sys2Proof.Machine

/-! ### Helpers -/

/-- A view of the next state; none when there is no next state. -/
def view {α : Type} (a : Answer) (f : State → α) : Option α :=
  match a with
  | .next t => some (f t)
  | .fault _ => none
  | .refused _ => none

/-- The state after reset with a source. -/
def fed (data : List Byte) : State := { State.reset with src := { avail := true, data := data, pos := 0 } }

/-- The state after reset, in a phase of a run, with a source. -/
def inPhase (p : Phase) (data : List Byte) : State := { fed data with phase := p, status := Status.running }

/-- A table of counts. -/
def counts (l : List (Byte × Count)) : Vector Count 256 := l.foldl (fun f x => putSym f x.1 x.2) State.reset.freq

/-- A leaf and an internal node, the fields that have no meaning zero. -/
def leafN (c : Byte) (f : Count) : Node := { kind := .leaf, sym := c, freq := f, left := 0, right := 0 }
def innerN (f : Count) (l r : ArenaIx) : Node := { kind := .internal, sym := 0, freq := f, left := l, right := r }

/-- A vector with its first entries given. -/
def firstly {α : Type} {n : Nat} (v : Vector α n) : Nat → List α → Vector α n
  | _, [] => v
  | j, x :: xs => firstly (v.setIfInBounds j x) (j + 1) xs

/-- A code table. -/
def coded (l : List (Byte × BitString)) : Vector CodeEntry 256 :=
  l.foldl (fun t x => putSym t x.1 { valid := true, len := BitVec.ofNat 8 x.2.length, bits := x.2 }) State.reset.code

/-- A decode table entry. -/
def entryN (key : BitString) (c : Byte) : DecEntry := { keylen := BitVec.ofNat 8 key.length, key := key, sym := c }

/-- Vector T1, step 3 of P1: the leaves of "aaabbc". -/
def seededT1 : State :=
  { inPhase .cBuild [] with
    freq := counts [(0x61, 3), (0x62, 2), (0x63, 1)]
    nsym := 3
    node := firstly State.reset.node 0 [leafN 0x61 3, leafN 0x62 2, leafN 0x63 1]
    inq := firstly State.reset.inq 0 [true, true, true]
    nnodes := 3 }

/-- Vector T1, step 4 of P1: after the first merge. -/
def mergedT1 : State :=
  { seededT1 with
    node := firstly State.reset.node 0 [leafN 0x61 3, leafN 0x62 2, leafN 0x63 1, innerN 3 2 1]
    inq := firstly State.reset.inq 0 [true, false, false, true]
    nnodes := 4 }

/-- Vector T1, step 5 of P1: the finished tree. -/
def builtT1 : State :=
  { mergedT1 with
    phase := .cAssign
    node := firstly State.reset.node 0 [leafN 0x61 3, leafN 0x62 2, leafN 0x63 1, innerN 3 2 1, innerN 6 0 3]
    inq := firstly State.reset.inq 0 [false, false, false, false, true]
    nnodes := 5
    root := 4 }

/-- Vector A1: the codes of "aaabbc". -/
def codesA1 : Vector CodeEntry 256 := coded [(0x61, [false]), (0x62, [true, true]), (0x63, [true, false])]

/-- P2 after its three header entries. -/
def parsedP2 (p : Phase) (data : List Byte) : State :=
  { inPhase p data with
    dtab := firstly State.reset.dtab 0 [entryN [false] 0x61, entryN [true, true] 0x62, entryN [true, false] 0x63]
    dn := 3 }

/-! ### Well-formedness: one ill-formed term per check -/

theorem test_wellFormed_reserved_op : (Instr.cmdReserved 1).wellFormed = false := by decide
theorem test_wellFormed_entry_symbol : (Instr.hdrEntry 0x00 1 [0x80]).wellFormed = false := by decide
theorem test_wellFormed_entry_too_few : (Instr.hdrEntry 0x61 9 [0xFF]).wellFormed = false := by decide
theorem test_wellFormed_entry_too_many : (Instr.hdrEntry 0x61 8 [0xFF, 0x00]).wellFormed = false := by decide
theorem test_wellFormed_entry_longest : (Instr.hdrEntry 0xFF 255 (List.replicate 32 0xFF)).wellFormed = true := by decide

/-! ### Decoding: words written out from 30_encoding.md -/

/-- R90, R91: START = 1, OP = 1. -/
theorem test_decode_compress : decodeCmd 0b10000001 = .compress := by decide
/-- Vector Q6: bits 6:3 are ignored. -/
theorem test_decode_compress_F9 : decodeCmd 0b11111001 = .compress := by decide
theorem test_decode_decompress : decodeCmd 0b10000010 = .decompress := by decide
theorem test_decode_pack : decodeCmd 0b10000011 = .pack := by decide
theorem test_decode_unpack : decodeCmd 0b10000100 = .unpack := by decide
theorem test_decode_reserved : [0b10000000, 0b10000101, 0b10000110, 0b10000111].map decodeCmd =
    [.cmdReserved 0, .cmdReserved 5, .cmdReserved 6, .cmdReserved 7] := by decide
theorem test_decode_no_start : decodeCmd 0b00000001 = .cmdNoStart 1 ∧ decodeCmd 0b01111111 = .cmdNoStart 7 := by decide
/-- R86, R87: the terminator is tried first, and only the first byte of a record is it. -/
theorem test_decode_term : decode .header [0x00, 0x61] = .ok (.hdrTerm, [0x61]) := by decide
/-- S2: `62 02 C0`. -/
theorem test_decode_entry : decode .header [0x62, 0x02, 0xC0, 0x63] = .ok (.hdrEntry 0x62 2 [0xC0], [0x63]) := by decide
/-- R81: length 9 has two code bytes, length 0 none. -/
theorem test_decode_entry_lengths : decode .header [0x61, 0x09, 0xFF, 0x80] = .ok (.hdrEntry 0x61 9 [0xFF, 0x80], []) ∧
    decode .header [0x61, 0x00, 0x62] = .ok (.hdrEntry 0x61 0 [], [0x62]) := by decide
/-- Vectors M1, M2, M5: the three ways a record is cut short. -/
theorem test_decode_short : decode .header [] = .error .noByte ∧ decode .header [0x61] = .error .noLength ∧
    decode .header [0x61, 0x09, 0xFF] = .error .codeCut := by decide
theorem test_decode_payload : decode .payload [0x00, 0x1F] = .ok (.payloadByte 0x00, [0x1F]) := by decide
theorem test_decode_table_words : decodeTableWord 8 0x81 = some .compress ∧ decodeTableWord 8 0x84 = some .unpack ∧
    decodeTableWord 8 0x00 = some (.cmdNoStart 0) ∧ decodeTableWord 0 0 = none := by decide

/-! ### Encoding -/

theorem test_encode_commands : encode .compress = some (.command, [0x81]) ∧ encode .unpack = some (.command, [0x84]) ∧
    encode (.cmdReserved 7) = some (.command, [0x87]) ∧ encode (.cmdNoStart 5) = some (.command, [0x05]) := by decide
theorem test_encode_records : encode .hdrTerm = some (.header, [0x00]) ∧
    encode (.hdrEntry 0x7A 10 [0xFF, 0x40]) = some (.header, [0x7A, 0x0A, 0xFF, 0x40]) ∧
    encode (.payloadByte 0x1F) = some (.payload, [0x1F]) ∧ encode .freqScan = none := by decide

/-! ### Packing (vectors K and U) -/

/-- K1, K3, K7, K8, K9, K10. -/
theorem test_pack : pack [] = [] ∧ pack [true] = [0x80] ∧ pack [true, false, true, false, false] = [0xA0] ∧
    pack [false, false, false, true, true, true, true, true] = [0x1F] ∧
    pack [false, false, false, true, true, true, true, true, false] = [0x1F, 0x00] ∧
    pack [true, true, true, true, true, true, true, true, false, true] = [0xFF, 0x40] := by decide
/-- U1, U4, U5, U6, U7. -/
theorem test_unpack : unpack [0xFF, 0x40] 10 = [true, true, true, true, true, true, true, true, false, true] ∧
    unpack [0xA5] 0 = [] ∧ unpack [0xA5] 3 = [true, false, true] ∧
    unpack [0xA5] 8 = [true, false, true, false, false, true, false, true] ∧ unpack [0xFF] 3 = [true, true, true] := by decide

/-! ### Commands (vectors Q) -/

/-- Q6: an accepted START; the stale code table loses its valid flags (R43). -/
theorem test_compress : view (exec .compress { fed [0x61] with code := codesA1, errcode := 2, dn := 3, status := Status.failed })
    (fun t => (t.phase, t.status, t.errcode, t.dn, t.cmd, (lookSym t.code 0x61).valid)) =
    some (.cFreq, Status.running, 0, 0, 0x01, false) := by decide +kernel
/-- Q3. -/
theorem test_compress_unavailable :
    view (exec .compress { State.reset with src := { avail := false, data := [], pos := 0 } })
    (fun t => (t.phase, t.status, t.errcode)) = some (.error, Status.failed, 1) := by decide +kernel
theorem test_decompress : view (exec .decompress (fed [])) (fun t => (t.phase, t.cmd)) = some (.dHeader, 0x02) := by decide +kernel
/-- Q7: ignored while busy. -/
theorem test_decompress_busy : view (exec .decompress (inPhase .cFreq [0x61])) (fun t => (t.phase, t.cmd)) =
    some (.cFreq, 0x00) := by decide +kernel
theorem test_pack_command : view (exec .pack (fed [])) (fun t => t.phase) = some .pPack := by decide +kernel
theorem test_unpack_command : view (exec .unpack (fed [])) (fun t => t.phase) = some .uUnpack := by decide +kernel
/-- Q4: BAD_CMD is tested before INPUT_UNAVAILABLE. -/
theorem test_reserved : view (exec (.cmdReserved 0) { State.reset with src := { avail := false, data := [], pos := 0 } })
    (fun t => (t.phase, t.status, t.errcode, t.trace)) = some (.error, Status.failed, 6, []) := by decide +kernel
/-- Q5. -/
theorem test_no_start : view (exec (.cmdNoStart 1) State.reset) (fun t => (t.phase, t.status, t.cmd)) =
    some (.idle, Status.clear, 0x01) := by decide +kernel

/-! ### Frequency Analyzer and Tree Builder (vectors F, T) -/

/-- F1. -/
theorem test_freqScan : view (exec .freqScan (inPhase .cFreq [0x61, 0x61, 0x61, 0x62, 0x62, 0x63]))
    (fun t => ([0x61, 0x62, 0x63, 0x64].map (lookSym t.freq), t.nsym, t.phase, t.src.pos)) =
    some ([3, 2, 1, 0], 3, .cBuild, 6) := by decide +kernel
/-- F2. -/
theorem test_freqScan_empty : view (exec .freqScan (inPhase .cFreq [])) (fun t => (t.nsym, t.phase, t.trace)) =
    some (0, .cHeader, [.eos]) := by decide +kernel
/-- T1, the leaves in ascending order. -/
theorem test_treeSeed : view (exec .treeSeed { seededT1 with node := State.reset.node, inq := State.reset.inq, nnodes := 0 })
    (fun t => (t.node.toList.take 4, queue t, t.nnodes, t.phase)) =
    some ([leafN 0x61 3, leafN 0x62 2, leafN 0x63 1, leafN 0 0], [0, 1, 2], 3, .cBuild) := by decide +kernel
/-- T2: one leaf is the root at once. -/
theorem test_treeSeed_one : view (exec .treeSeed { inPhase .cBuild [] with freq := counts [(0x41, 1)], nsym := 1 })
    (fun t => (t.root, t.nnodes, t.phase)) = some (0, 1, .cAssign) := by decide +kernel
/-- T1, the first merge: 2 then 1. -/
theorem test_treeMerge : view (exec .treeMerge seededT1) (fun t => (t.node[(3 : ArenaIx)], queue t, t.phase)) =
    some (innerN 3 2 1, [0, 3], .cBuild) := by decide +kernel
/-- T1, the second merge: a tie on 3, the lower index goes first and left. -/
theorem test_treeMerge_tie : view (exec .treeMerge mergedT1) (fun t => (t.node[(4 : ArenaIx)], t.root, t.nnodes, t.phase)) =
    some (innerN 6 0 3, 4, 5, .cAssign) := by decide +kernel

/-! ### Code Assigner (vectors A) -/

/-- A1. -/
theorem test_codeAssign : view (exec .codeAssign builtT1) (fun t => ([0x61, 0x62, 0x63, 0x64].map (fun c => (lookSym t.code c).bits),
    (lookSym t.code 0x62).len, (lookSym t.code 0x64).valid, t.phase)) =
    some ([[false], [true, true], [true, false], []], 2, false, .cHeader) := by decide +kernel
/-- A3. -/
theorem test_codeAssign_one : view (exec .codeAssign { inPhase .cAssign [] with
      freq := counts [(0x41, 1)], nsym := 1, nnodes := 1, node := firstly State.reset.node 0 [leafN 0x41 1] })
    (fun t => lookSym t.code 0x41) = some { valid := true, len := 1, bits := [false] } := by decide +kernel

/-! ### Bit Packer and Bit Unpacker as commands (vectors Q) -/

/-- Q9. -/
theorem test_packBits : view (exec .packBits (inPhase .pPack [0x30, 0x30, 0x30, 0x31, 0x31, 0x31, 0x31, 0x31, 0x30]))
    (fun t => (t.snk.data, t.status)) = some ([0x1F, 0x00], Status.ended) := by decide +kernel
/-- Q10; the bit before the bad character stays in `ACC` (R33, R230). -/
theorem test_packBits_bad : view (exec .packBits (inPhase .pPack [0x31, 0x32])) (fun t => (t.snk.data, t.status, t.errcode, t.acc)) =
    some ([], Status.failed, 4, [true]) := by decide +kernel
/-- Q13: the other bytes are not read. -/
theorem test_unpackBits : view (exec .unpackBits { inPhase .uUnpack [0xFF, 0x40, 0x99] with lenArg := 3 })
    (fun t => (t.snk.data, t.status, t.src.pos)) = some ([0x31, 0x31, 0x31], Status.ended, 1) := by decide +kernel
/-- Q14. -/
theorem test_unpackBits_short : view (exec .unpackBits { inPhase .uUnpack [0xFF] with lenArg := 9 })
    (fun t => (t.snk.data, t.status, t.errcode)) = some ([], Status.failed, 2) := by decide +kernel

/-! ### Stream Serializer (P1 steps 7 to 13, Q16) -/

theorem test_serHeader : view (exec .serHeader { inPhase .cHeader [] with code := codesA1 }) (fun t => (t.snk.data, t.phase)) =
    some ([0x61, 0x01, 0x00, 0x62, 0x02, 0xC0, 0x63, 0x02, 0x80], .cTerm) := by decide +kernel
theorem test_serTerm : view (exec .serTerm { inPhase .cTerm [0x61] with src := { avail := true, data := [0x61], pos := 1 } })
    (fun t => (t.snk.data, t.src.pos, t.phase, t.trace)) =
    some ([0x00], 0, .cPayload, [.rewind, .write 0x00]) := by decide +kernel
/-- P1 step 11: nine bits, `1F` is written and one bit carried. -/
theorem test_serPayload : view (exec .serPayload { inPhase .cPayload [0x63] with
      code := codesA1, acc := [false, false, false, true, true, true, true] })
    (fun t => (t.snk.data, t.acc, t.phase)) = some ([0x1F], [false], .cPayload) := by decide +kernel
/-- Q16: a byte without a code. -/
theorem test_serPayload_no_code : view (exec .serPayload { inPhase .cPayload [0x64] with code := codesA1, acc := [false] })
    (fun t => (t.snk.data, t.status, t.errcode, t.acc)) = some ([], Status.failed, 4, [false]) := by decide +kernel
/-- P3, run 2: `"1110001"` and one pad bit are `E2`. -/
theorem test_serFlush : view (exec .serFlush { inPhase .cFlush [] with acc := [true, true, true, false, false, false, true] })
    (fun t => (t.snk.data, t.acc, t.status)) = some ([0xE2], [], Status.ended) := by decide +kernel
theorem test_serFlush_nothing : view (exec .serFlush (inPhase .cFlush [])) (fun t => (t.snk.data, t.phase)) =
    some ([], .done) := by decide +kernel

/-! ### Stream Deserializer (P2, vectors M) -/

/-- P2 step 2, and M18: pad bits of the code byte are ignored. -/
theorem test_desHeader : view (exec .desHeader (inPhase .dHeader [0x62, 0x02, 0xFF])) (fun t => (usedEntries t, t.src.pos, t.eNb)) =
    some ([entryN [true, true] 0x62], 3, 1) := by decide +kernel
/-- M8: the same key under another symbol. -/
theorem test_desHeader_duplicate : view (exec .desHeader (parsedP2 .dHeader [0x64, 0x01, 0x00]))
    (fun t => (t.dn, t.status, t.errcode)) = some (3, Status.failed, 3) := by decide +kernel
theorem test_hdrTerm : view (exec .hdrTerm (inPhase .dHeader [])) (fun t => t.phase) = some .dPayload := by decide +kernel
/-- M9: the empty key twice. -/
theorem test_hdrEntry_empty_key : view (exec (.hdrEntry 0x62 0 []) { inPhase .dHeader [] with
      dtab := firstly State.reset.dtab 0 [entryN [] 0x61], dn := 1 })
    (fun t => (t.dn, t.errcode)) = some (1, 3) := by decide +kernel
/-- P2 step 5. -/
theorem test_desPayload : view (exec .desPayload (parsedP2 .dPayload [0x1F, 0x00])) (fun t => (t.snk.data, t.cand, t.src.pos)) =
    some ([0x61, 0x61, 0x61, 0x62, 0x62], [true], 1) := by decide +kernel
/-- P2 step 7: the candidate is dropped at EOS. -/
theorem test_desPayload_eos : view (exec .desPayload { parsedP2 .dPayload [] with cand := [true] })
    (fun t => (t.snk.data, t.cand, t.status)) = some ([], [], Status.ended) := by decide +kernel
/-- M22: of two matching keys the shorter one wins. -/
theorem test_payloadByte : view (exec (.payloadByte 0x40) { inPhase .dPayload [] with
      dtab := firstly State.reset.dtab 0 [entryN [false] 0x41, entryN [false, true] 0x42], dn := 2 })
    (fun t => t.snk.data) = some [0x41] := by decide +kernel

/-! ### The host's acts -/

/-- Z2, Z3: reset in the middle of a run; the sink stays. -/
theorem test_reset : view (step { inPhase .cPayload [0x61] with
      acc := [true], code := codesA1, errcode := 3, snk := { data := [0x61] }, inbox := [.assertRst] })
    (fun t => (t.phase, t.status, t.acc, (lookSym t.code 0x61).valid, t.snk.data)) =
    some (.idle, Status.clear, [], false, [0x61]) := by decide +kernel
/-- R250: a START written while `rst` holds the block has no effect. -/
theorem test_reset_holds : view (step { fed [0x61] with rst := true, inbox := [.writeCmd 0x81, .releaseRst] })
    (fun t => (t.phase, t.status, t.cmd, t.rst, t.inbox)) =
    some (.idle, Status.clear, 0x00, true, [.releaseRst]) := by decide +kernel
/-- V6: the content changes between the passes of COMPRESS; the cursor stays inside it. -/
theorem test_change_source : view (step { inPhase .cTerm [] with
      src := { avail := true, data := [0x61, 0x62], pos := 2 }, inbox := [.changeSource [0x63]] })
    (fun t => (t.src.data, t.src.pos, t.phase, t.inbox)) = some ([0x63], 1, .cTerm, []) := by decide +kernel
theorem test_poll : view (step { inPhase .cTerm [] with inbox := [.poll] }) (fun t => (t.phase, t.inbox)) =
    some (.cPayload, [.poll]) := by decide +kernel
theorem test_fetch : view (step (State.reset.withFetchWord 8 0x82)) (fun t => (t.phase, t.inbox)) = some (.dHeader, []) := by
  decide +kernel

/-! ### Witnesses: what meets the hypotheses of each statement -/

def isNext (a : Answer) : Bool :=
  match a with
  | .next _ => true
  | .fault _ => false
  | .refused _ => false

theorem exists_of_isNext {a : Answer} (h : isNext a = true) : ∃ t, a = .next t := by
  cases a with
  | next t => exact ⟨t, rfl⟩
  | fault f => simp [isNext] at h
  | refused r => simp [isNext] at h

theorem exists_of_view {α : Type} {a : Answer} {f : State → α} {x : α} (h : view a f = some x) :
    ∃ t, a = .next t ∧ f t = x := by
  cases a with
  | next t => exact ⟨t, rfl, by simpa [view] using h⟩
  | fault f => simp [view] at h
  | refused r => simp [view] at h

theorem ready_fed (data : List Byte) : Ready (fed data) data := ⟨rfl, rfl, rfl, rfl, rfl⟩

theorem unread_fed (data : List Byte) : unread (fed data) = data := rfl

theorem witness_DecodeUndoesEncode :
    (Instr.hdrEntry 0x62 2 [0xC0]).wellFormed = true ∧
    encode (Instr.hdrEntry 0x62 2 [0xC0]) = some (.header, [0x62, 0x02, 0xC0]) := by decide

theorem witness_EncodeUndoesDecode :
    decode .command [0xF9] = .ok (.compress, []) ∧ decode .header [0x62, 0x02, 0xC0, 0x00] = .ok (.hdrEntry 0x62 2 [0xC0], [0x00]) ∧
    decode .payload [0x1F] = .ok (.payloadByte 0x1F, []) := by decide

theorem witness_StepRunsTheHostsCommand :
    (fed []).rst = false ∧ { fed [] with inbox := [.writeCmd 0x81, .poll] }.inbox = .writeCmd 0x81 :: [.poll] ∧
    decodeTableWord 8 0x81 = some .compress ∧ decodeTableWord 8 0x00 = some (.cmdNoStart 0) := ⟨rfl, rfl, by decide, by decide⟩

theorem witness_StepRunsTheOperationOfThePhase (p : Phase) :
    (inPhase p []).inbox = [] ∧ (inPhase p []).rst = false ∧ (inPhase p []).phase = p ∧ (inPhase p []).nnodes = 0 ∧
    seededT1.inbox = [] ∧ seededT1.rst = false ∧ seededT1.phase = .cBuild ∧ seededT1.nnodes ≠ 0 :=
  ⟨rfl, rfl, rfl, rfl, rfl, rfl, rfl, by decide⟩

theorem witness_StepRunsTheRecordAtTheCursor :
    ((inPhase .dHeader [0x62, 0x02, 0xC0, 0x00]).rst = false ∧
      unread (inPhase .dHeader [0x62, 0x02, 0xC0, 0x00]) = [0x62, 0x02, 0xC0] ++ [0x00] ∧
      decode .header [0x62, 0x02, 0xC0, 0x00] = .ok (.hdrEntry 0x62 2 [0xC0], [0x00])) ∧
    (unread (inPhase .dHeader [0x00]) = [0x00] ++ [] ∧ decode .header [0x00] = .ok (.hdrTerm, [])) ∧
    (unread (inPhase .dPayload [0x1F, 0x00]) = [0x1F] ++ [0x00] ∧
      decode .payload [0x1F, 0x00] = .ok (.payloadByte 0x1F, [0x00])) := by decide

theorem witness_HostActsBetweenRuns :
    (State.reset.status.busy = false ∧ State.reset.rst = false ∧ 1 ≤ [(0x61 : Byte)].length ∧ [(0x61 : Byte)].length < 2) ∧
    ((inPhase .cFreq []).status.busy = true ∧ (inPhase .cFreq []).rst = false ∧
      selected (inPhase .cFreq []) = some .freqScan ∧ inCompress (inPhase .cFreq []).phase = true) ∧
    ((inPhase .done []).status.busy = true ∧ (inPhase .done []).rst = false ∧ selected (inPhase .done []) = none) ∧
    ((inPhase .dHeader []).status.busy = true ∧ inCompress (inPhase .dHeader []).phase = false) ∧
    State.reset.rst = false ∧ selected State.reset = none := by decide

theorem witness_ResetLeavesTheResetValues :
    { inPhase .cPayload [0x61] with inbox := [.assertRst, .poll] }.inbox = .assertRst :: [.poll] := rfl

/-- The block held in reset, with these acts still to come. -/
def held (acts : List HostAct) : State := { fed [0x61] with rst := true, inbox := acts }

theorem witness_ResetHoldsTheBlock :
    (held []).rst = true ∧ (held []).inbox = [] ∧ (held [.pass]).inbox = .pass :: [] ∧
    (held [.writeCmd 0x81]).inbox = .writeCmd 0x81 :: [] ∧ (held [.writeLenArg 9]).inbox = .writeLenArg 9 :: [] ∧
    (held [.releaseRst, .poll]).inbox = .releaseRst :: [.poll] := ⟨rfl, rfl, rfl, rfl, rfl, rfl⟩

theorem witness_AcceptedStartBeginsTheRun :
    (fed []).status.busy = false ∧ (fed []).src.avail = true ∧
    { State.reset with src := { avail := false, data := [], pos := 0 } }.src.avail = false := ⟨rfl, rfl, rfl⟩

theorem witness_CommandWriteWithoutStart :
    (inPhase .cFreq []).status.busy = true ∧ (fed []).status.busy = false := ⟨rfl, rfl⟩

theorem witness_FreqScanCountsTheSource :
    (unread (fed (List.replicate (2 ^ 64 - 1) 0x41))).length < 2 ^ 64 ∧ (unread (fed [])).length < 2 ^ 64 := by
  rw [unread_fed, unread_fed, List.length_replicate]; decide

theorem witness_FrequenciesSumToTheInputLength :
    (∀ c, lookSym (inPhase .cFreq [0x61, 0x61]).freq c = 0) ∧
    (∃ t, exec .freqScan (inPhase .cFreq [0x61, 0x61]) = .next t) ∧
    (inPhase .cTerm []).inbox = [] ∧ (inPhase .cTerm []).rst = false ∧ (inPhase .cTerm []).phase ≠ .cFreq ∧
    ∃ t, step (inPhase .cTerm []) = .next t :=
  ⟨fun c => by simp [inPhase, fed, State.reset], exists_of_isNext (by decide +kernel), rfl, rfl, by decide, ⟨_, rfl⟩⟩

theorem witness_FreqScanRefusesUncountableInputs :
    2 ^ 64 ≤ (unread (fed (List.replicate (2 ^ 64) 0x41))).length := by
  rw [unread_fed, List.length_replicate]

theorem witness_TreeSeedMakesTheLeaves : { seededT1 with nnodes := 0 }.nnodes = 0 := rfl

theorem witness_TreeMergeJoinsTheTwoLowest :
    (seededT1.nnodes = (3 : ArenaIx).val ∧ 2 ∈ queue seededT1 ∧ 1 ∈ queue seededT1 ∧ (2 : ArenaIx) ≠ 1 ∧
      (∀ i ∈ queue seededT1, i ≠ 2 → Earlier seededT1.node 2 i) ∧
      (∀ i ∈ queue seededT1, i ≠ 2 → i ≠ 1 → Earlier seededT1.node 1 i)) ∧
    (mergedT1.nnodes = (4 : ArenaIx).val ∧ 0 ∈ queue mergedT1 ∧ 3 ∈ queue mergedT1 ∧ (0 : ArenaIx) ≠ 3 ∧
      (∀ i ∈ queue mergedT1, i ≠ 0 → Earlier mergedT1.node 0 i) ∧
      (∀ i ∈ queue mergedT1, i ≠ 0 → i ≠ 3 → Earlier mergedT1.node 3 i)) := by
  simp only [Earlier]
  refine ⟨⟨rfl, ?_, ?_, ?_, ?_, ?_⟩, ⟨rfl, ?_, ?_, ?_, ?_, ?_⟩⟩ <;> decide +kernel

theorem queue_builtT1 : queue builtT1 = [4] := by decide +kernel

theorem witness_TreeMergeShrinksTheQueue :
    (2 ≤ (queue mergedT1).length ∧ mergedT1.nnodes < 511) ∧ queue builtT1 = [4] :=
  ⟨by decide +kernel, queue_builtT1⟩

theorem witness_LeastIsTheArgmin : [(0 : ArenaIx)] ≠ [] := by decide

theorem witness_CodeAssignForOneSymbol : { builtT1 with nsym := 1 }.nsym = 1 := rfl

/-- The turns of A1. -/
def turnsA1 : List (Byte × BitString) := [(0x61, [false]), (0x63, [true, false]), (0x62, [true, true])]

theorem treeAt_builtT1 : TreeAt builtT1.node builtT1.root turnsA1 := by
  have l0 : TreeAt builtT1.node 0 [(0x61, [])] := by
    have := TreeAt.leaf (node := builtT1.node) 0 (by decide +kernel)
    rwa [show builtT1.node[(0 : ArenaIx)].sym = 0x61 by decide +kernel] at this
  have l1 : TreeAt builtT1.node 1 [(0x62, [])] := by
    have := TreeAt.leaf (node := builtT1.node) 1 (by decide +kernel)
    rwa [show builtT1.node[(1 : ArenaIx)].sym = 0x62 by decide +kernel] at this
  have l2 : TreeAt builtT1.node 2 [(0x63, [])] := by
    have := TreeAt.leaf (node := builtT1.node) 2 (by decide +kernel)
    rwa [show builtT1.node[(2 : ArenaIx)].sym = 0x63 by decide +kernel] at this
  have t3 : TreeAt builtT1.node 3 [(0x63, [false]), (0x62, [true])] :=
    TreeAt.internal 3 [(0x63, [])] [(0x62, [])] (by decide +kernel)
      (by rw [show builtT1.node[(3 : ArenaIx)].left = 2 by decide +kernel]; exact l2)
      (by rw [show builtT1.node[(3 : ArenaIx)].right = 1 by decide +kernel]; exact l1)
  exact TreeAt.internal 4 [(0x61, [])] [(0x63, [false]), (0x62, [true])] (by decide +kernel)
    (by rw [show builtT1.node[(4 : ArenaIx)].left = 0 by decide +kernel]; exact l0)
    (by rw [show builtT1.node[(4 : ArenaIx)].right = 3 by decide +kernel]; exact t3)

theorem witness_CodeAssignWalksTheTree :
    2 ≤ builtT1.nsym ∧ TreeAt builtT1.node builtT1.root turnsA1 ∧ (turnsA1.map Prod.fst).Nodup ∧
    ∀ x ∈ turnsA1, x.2.length ≤ 255 := ⟨by decide, treeAt_builtT1, by decide, by decide⟩

theorem present_builtT1 : presentSymbols builtT1.freq = [0x61, 0x62, 0x63] := by decide +kernel

theorem forest_builtT1 : Forest builtT1 := by
  refine ⟨by decide +kernel, by rw [present_builtT1, queue_builtT1]; rfl, fun _ => turnsA1, ?_, ?_⟩
  · rw [queue_builtT1]; intro i hi; obtain rfl : i = 4 := by simpa using hi
    exact treeAt_builtT1
  · rw [present_builtT1, queue_builtT1]; decide

theorem encInv_builtT1 : builtT1.EncInv := by
  refine ⟨by rw [present_builtT1]; rfl, by decide, fun c => ?_, forest_builtT1, queue_builtT1⟩
  simp [builtT1, mergedT1, seededT1, inPhase, fed, State.reset]

theorem inv_builtT1 : builtT1.Inv where
  memory := by decide
  cmd := by decide
  status := by decide
  errcode := by rw [if_neg (by decide)]; rfl
  nsym := by decide
  nnodes := by decide
  dn := by decide
  eNb := by decide
  acc := .inl (by decide)
  accIn := by decide
  candIn := by decide
  keys := by simp [usedEntries, builtT1, mergedT1, seededT1, inPhase, fed, State.reset]
  keylen := by simp [usedEntries, builtT1, mergedT1, seededT1, inPhase, fed, State.reset]
  held := fun h => absurd h (by decide)

theorem witness_EncoderInvariantIsKept :
    builtT1.EncInv ∧ ∃ t, step builtT1 = .next t := ⟨encInv_builtT1, exists_of_isNext (by decide +kernel)⟩

theorem witness_PackBitsPacksTheSource :
    unread (inPhase .pPack [0x31, 0x30]) = chars [true, false] ∧ unread (inPhase .pPack []) = chars [] ∧
    (unread (inPhase .pPack [0x31, 0x32]) = chars [true] ++ 0x32 :: [] ∧ (0x32 : Byte) ≠ 0x30 ∧ (0x32 : Byte) ≠ 0x31) ∧
    (unread (inPhase .pPack [0x2F]) = chars [] ++ 0x2F :: [] ∧ (0x2F : Byte) ≠ 0x30 ∧ (0x2F : Byte) ≠ 0x31) := by decide

theorem witness_UnpackBitsUnpacksTheSource :
    ((10 + 7) / 8 ≤ [(0xFF : Byte), 0x40].length ∧ 9 < 10) ∧
    (unread { inPhase .uUnpack [0xFF, 0x40, 0x99] with lenArg := 10 } = [0xFF, 0x40] ++ [0x99] ∧
      [(0xFF : Byte), 0x40].length = ((10 : BitVec 32).toNat + 7) / 8) ∧
    (unread { inPhase .uUnpack [0xFF] with lenArg := 0 } = [] ++ [0xFF] ∧
      ([] : List Byte).length = ((0 : BitVec 32).toNat + 7) / 8) ∧
    (unread { inPhase .uUnpack [0xFF] with lenArg := 9 }).length < ((9 : BitVec 32).toNat + 7) / 8 := by decide

theorem witness_PackAndUnpackAreInverse :
    [true, true, true, true, true, true, true, false].length % 8 = 0 ∧ ([] : BitString).length % 8 = 0 ∧
    (9 + 7) / 8 ≤ [(0x1F : Byte), 0xFF].length ∧ 1 < (9 + 7) / 8 := by decide

theorem witness_SerPayloadEncodesOneByte :
    unread (inPhase .cPayload []) = [] ∧ unread { inPhase .cPayload [0x62] with code := codesA1 } = 0x62 :: [] ∧
    (lookSym codesA1 0x62).valid = true ∧ (lookSym codesA1 0x62).bits.length ≤ 255 ∧ (inPhase .cPayload []).acc.length ≤ 7 ∧
    unread { inPhase .cPayload [0x64] with code := codesA1 } = 0x64 :: [] ∧ (lookSym codesA1 0x64).valid = false := by
  decide +kernel

theorem witness_SerFlushPadsTheLeftover :
    (inPhase .cFlush []).acc = [] ∧ { inPhase .cFlush [] with acc := [true] }.acc ≠ [] := ⟨rfl, by simp⟩

theorem witness_PayloadIsThePackedCodes :
    (∀ b ∈ unread (inPhase .cPayload [0x61, 0x63]), (lookSym codesA1 b).valid = true) ∧
    (inPhase .cPayload [0x61, 0x63]).inbox = [] ∧
    (inPhase .cPayload [0x61, 0x63]).rst = false ∧ [true, true, true, true, true, true, true].length ≤ 7 := by decide +kernel

theorem witness_DesHeaderStopsAtTheTerminator : unread (inPhase .dHeader [0x00, 0x1F]) = 0x00 :: [0x1F] := rfl

theorem witness_DesHeaderReportsTruncation :
    unread (inPhase .dHeader []) = [] ∧ (unread (inPhase .dHeader [0x61]) = [0x61] ∧ (0x61 : Byte) ≠ 0x00) ∧
    (unread (inPhase .dHeader [0x61, 0x09, 0xFF]) = 0x61 :: 0x09 :: [0xFF] ∧
      [(0xFF : Byte)].length < ((0x09 : Byte).toNat + 7) / 8) := by decide

theorem witness_DesHeaderInsertsOneEntry :
    (unread (parsedP2 .dHeader [0x64, 0x01, 0x00]) = 0x64 :: 0x01 :: [0x00] ++ [] ∧ (0x64 : Byte) ≠ 0x00 ∧
      [(0x00 : Byte)].length = ((0x01 : Byte).toNat + 7) / 8 ∧
      ∃ e ∈ usedEntries (parsedP2 .dHeader [0x64, 0x01, 0x00]), e.key = unpack [0x00] (0x01 : Byte).toNat) ∧
    (∀ e ∈ usedEntries (parsedP2 .dHeader [0x64, 0x03, 0x40]), e.key ≠ unpack [0x40] (0x03 : Byte).toNat) ∧
    (parsedP2 .dHeader []).dn < 256 ∧
    (∀ e ∈ usedEntries { inPhase .dHeader [0x64, 0x03, 0x40] with dn := 256 }, e.key ≠ unpack [0x40] (0x03 : Byte).toNat) ∧
    256 ≤ { inPhase .dHeader [] with dn := 256 }.dn := by decide +kernel

theorem witness_HeaderRecordsExecute :
    (Instr.hdrEntry 0x64 1 [0x00]).wellFormed = true ∧ (Instr.hdrEntry 0x64 3 [0x40]).wellFormed = true ∧
    (∃ e ∈ usedEntries (parsedP2 .dHeader []), e.key = unpack [0x00] (0x01 : Byte).toNat) ∧
    (∀ e ∈ usedEntries (parsedP2 .dHeader []), e.key ≠ unpack [0x40] (0x03 : Byte).toNat) ∧ (parsedP2 .dHeader []).dn < 256 ∧
    (∀ e ∈ usedEntries { inPhase .dHeader [] with dn := 256 }, e.key ≠ unpack [0x40] (0x03 : Byte).toNat) := by decide +kernel

theorem witness_EmptyKeyIsInert :
    (∃ e ∈ usedEntries { inPhase .dHeader [] with dn := 1 }, e.key = []) ∧
    ((∀ e ∈ usedEntries (parsedP2 .dHeader []), e.key ≠ []) ∧ (parsedP2 .dHeader []).dn < 256) ∧
    (∀ e ∈ usedEntries { inPhase .dPayload [] with dn := 1 }, e.key = []) ∧
    (usedEntries { parsedP2 .dPayload [] with dn := 4 }).filter (fun e => decide (e.key ≠ [])) =
      (usedEntries (parsedP2 .dPayload [])).filter (fun e => decide (e.key ≠ [])) := by decide +kernel

theorem witness_DesPayloadExecutesOneByte :
    unread (inPhase .dPayload []) = [] ∧ unread (inPhase .dPayload [0x1F]) = 0x1F :: [] := ⟨rfl, rfl⟩

theorem witness_PayloadByteMatchesTheShortestKey :
    (∀ n, 1 ≤ n → n ≤ 8 → ∀ e ∈ usedEntries (inPhase .dPayload []), e.key ≠ [] ++ (byteBits 0xC0).take n) ∧
    (entryN [true, true] 0x62 ∈ usedEntries (parsedP2 .dPayload []) ∧
      (entryN [true, true] 0x62).key = [] ++ (byteBits 0xC0).take 2 ∧
      (usedEntries (parsedP2 .dPayload [])).Pairwise (fun e f => e.key ≠ f.key) ∧
      ∀ m < 2, 1 ≤ m → ∀ f ∈ usedEntries (parsedP2 .dPayload []), f.key ≠ [] ++ (byteBits 0xC0).take m) := by
  refine ⟨fun n _ _ e he => ?_, by decide +kernel⟩
  simp [usedEntries, inPhase, fed, State.reset] at he

theorem inv_parsedP2 : (parsedP2 .dHeader []).Inv where
  memory := by decide
  cmd := by decide
  status := by decide
  errcode := by rw [if_neg (by decide)]; rfl
  nsym := by decide
  nnodes := by decide
  dn := by decide
  eNb := by decide
  acc := .inl (by decide)
  accIn := by decide
  candIn := by decide
  keys := by decide +kernel
  keylen := by decide +kernel
  held := fun h => absurd h (by decide)

theorem witness_InvariantIsKept :
    (parsedP2 .dHeader []).Inv ∧ ∃ t, step (parsedP2 .dHeader []) = .next t := ⟨inv_parsedP2, ⟨_, rfl⟩⟩

theorem witness_NoRunMeetsAnInternalStop :
    (builtT1.Inv ∧ builtT1.EncInv) ∧ (parsedP2 .dHeader []).Inv ∧ (parsedP2 .dHeader []).EncInv :=
  ⟨⟨inv_builtT1, encInv_builtT1⟩, inv_parsedP2, fun _ => by simp [parsedP2, inPhase, fed, State.reset], rfl, rfl,
    fun _ => by simp [parsedP2, inPhase, fed, State.reset], fun _ => by simp [parsedP2, inPhase, fed, State.reset]⟩

/-- The state after reset with a source and the host about to write `CMD`. -/
theorem inv_fed_command : (commanded (fed [0x61]) 0x81).Inv where
  memory := by decide
  cmd := by decide
  status := by decide
  errcode := by rw [if_neg (by decide)]; rfl
  nsym := by decide
  nnodes := by decide
  dn := by decide
  eNb := by decide
  acc := .inl (by decide)
  accIn := by decide
  candIn := by decide
  keys := by simp [usedEntries, commanded, fed, State.reset]
  keylen := by simp [usedEntries, commanded, fed, State.reset]
  held := fun h => absurd h (by decide)

theorem witness_BusyFromStartToTheEndOfTheRun :
    ((commanded (fed [0x61]) 0x81).Inv ∧ (commanded (fed [0x61]) 0x81).status.busy = false ∧
      ∃ t, step (commanded (fed [0x61]) 0x81) = .next t ∧ t.status.busy = true) ∧
    (parsedP2 .dHeader []).status.busy = true ∧ ∃ t, step (parsedP2 .dHeader []) = .next t ∧ t.status.busy = false :=
  ⟨⟨inv_fed_command, rfl, exists_of_view (f := fun t => t.status.busy) (by decide +kernel)⟩, rfl,
    exists_of_view (f := fun t => t.status.busy) (by decide +kernel)⟩

theorem witness_BlockOnlyReadsTheSourceAndAppendsToTheSink :
    (parsedP2 .dPayload [0x1F]).inbox = [] ∧ (parsedP2 .dPayload [0x1F]).rst = false ∧
    ∃ t, step (parsedP2 .dPayload [0x1F]) = .next t := ⟨rfl, rfl, exists_of_isNext (by decide +kernel)⟩

theorem witness_ErrorsArePrecise :
    ((parsedP2 .dHeader [0x64, 0x01, 0x00]).inbox = [] ∧ (parsedP2 .dHeader [0x64, 0x01, 0x00]).rst = false ∧
      (parsedP2 .dHeader [0x64, 0x01, 0x00]).phase ≠ .error ∧
      ∃ t, step (parsedP2 .dHeader [0x64, 0x01, 0x00]) = .next t ∧ t.phase = .error) ∧
    (inPhase .pPack [0x31, 0x32]).phase = .pPack ∧ ∃ t, step (inPhase .pPack [0x31, 0x32]) = .next t ∧ t.phase = .error :=
  ⟨⟨rfl, rfl, by decide, exists_of_view (f := fun t => t.phase) (by decide +kernel)⟩, rfl,
    exists_of_view (f := fun t => t.phase) (by decide +kernel)⟩

theorem witness_EncoderAndDecoderShareNoTable :
    ((inPhase .cTerm []).inbox = [] ∧ (inPhase .cTerm []).rst = false ∧ (inPhase .cTerm []).phase ≠ .dHeader ∧
      (inPhase .cTerm []).phase ≠ .dPayload ∧ ∃ t, step (inPhase .cTerm []) = .next t) ∧
    (parsedP2 .dPayload [0x1F]).rst = false ∧ (parsedP2 .dPayload [0x1F]).phase = .dPayload ∧
    ∃ t, step (parsedP2 .dPayload [0x1F]) = .next t :=
  ⟨⟨rfl, rfl, by decide, by decide, ⟨_, rfl⟩⟩, rfl, rfl, exists_of_isNext (by decide +kernel)⟩

theorem witness_NoOutputBeforeTheWholeInput :
    builtT1.rst = false ∧ (∃ t, step builtT1 = .next t) ∧ (∃ t, step mergedT1 = .next t) ∧
    (∃ t, step (inPhase .dHeader [0x61]) = .next t) ∧ ∃ t, step (inPhase .cFreq [0x61]) = .next t :=
  ⟨rfl, exists_of_isNext (by decide +kernel), exists_of_isNext (by decide +kernel), exists_of_isNext (by decide +kernel),
    exists_of_isNext (by decide +kernel)⟩

theorem witness_EveryRunEnds :
    builtT1.Inv ∧ builtT1.EncInv ∧ builtT1.inbox = [] ∧ builtT1.status.busy = true ∧ builtT1.src.data.length < 2 ^ 64 :=
  ⟨inv_builtT1, encInv_builtT1, rfl, rfl, by decide⟩

theorem witness_RunsDoNotDependOnEarlierRuns :
    (fed [0x61]).rst = false ∧ (fed [0x61]).status.busy = false ∧
    { fed [0x61] with code := codesA1, root := 4, errcode := 3 }.status.busy = false ∧
    startField 0x82 = true ∧ ∃ t, runSteps 2 (commanded (fed [0x61]) 0x82) = .next t :=
  ⟨rfl, rfl, rfl, by decide, exists_of_isNext (by decide +kernel)⟩

theorem witness_CompressWritesHeaderTerminatorPayload :
    Ready (fed [0x61, 0x62]) [0x61, 0x62] ∧ [(0x61 : Byte), 0x62].length < 2 ^ 64 := ⟨ready_fed _, by decide⟩

theorem witness_MoreFrequentSymbolsHaveNoLongerCodes :
    Ready (fed [0x61, 0x61, 0x62]) [0x61, 0x61, 0x62] ∧ [(0x61 : Byte), 0x61, 0x62].length < 2 ^ 64 ∧
    [(0x61 : Byte), 0x61, 0x62].count 0x62 < [(0x61 : Byte), 0x61, 0x62].count 0x61 := ⟨ready_fed _, by decide, by decide⟩

theorem witness_CompressOfTheEmptyInput : Ready (fed []) [] := ready_fed _

theorem witness_CompressAccessesInOrder :
    Ready (fed [0x61, 0x61, 0x62]) [0x61, 0x61, 0x62] ∧ [(0x61 : Byte), 0x61, 0x62].length < 2 ^ 64 := ⟨ready_fed _, by decide⟩

/-- The three entries of P2. -/
def entriesP2 : List (Byte × Byte × List Byte) := [(0x61, 1, [0x00]), (0x62, 2, [0xC0]), (0x63, 2, [0x80])]

theorem witness_DecompressParsesThenDecodes :
    (∀ x ∈ entriesP2, (Instr.hdrEntry x.1 x.2.1 x.2.2).wellFormed = true) ∧ entriesP2.length ≤ 256 ∧
    (entriesP2.map (fun x => (tableEntry x.1 x.2.1 x.2.2).key)).Nodup ∧
    Ready (fed [0x61, 0x01, 0x00, 0x62, 0x02, 0xC0, 0x63, 0x02, 0x80, 0x00, 0x1F, 0x00])
      (entriesP2.flatMap (fun x => x.1 :: x.2.1 :: x.2.2) ++ 0x00 :: [0x1F, 0x00]) :=
  ⟨by decide, by decide, by decide, ready_fed _⟩

theorem witness_RoundTripUpToPadding :
    Ready (fed [0x61, 0x62]) [0x61, 0x62] ∧ [(0x61 : Byte), 0x62] ≠ [] ∧ 0x00 ∉ [(0x61 : Byte), 0x62] ∧
    [(0x61 : Byte), 0x62].length < 2 ^ 64 := ⟨ready_fed _, by decide, by decide, by decide⟩

theorem witness_TerminatorCollisionLosesTheInput :
    Ready (fed [0x00, 0x01, 0x01]) [0x00, 0x01, 0x01] ∧ 0x00 ∈ [(0x00 : Byte), 0x01, 0x01] ∧
    [(0x00 : Byte), 0x01, 0x01].length < 2 ^ 64 := ⟨ready_fed _, by decide, by decide⟩

theorem witness_SingleSymbolInput :
    Ready (fed (List.replicate 9 0x41)) (List.replicate 9 0x41) ∧ (0x41 : Byte) ≠ 0x00 ∧ 1 ≤ 9 ∧ 9 < 2 ^ 64 :=
  ⟨ready_fed _, by decide, by decide, by decide⟩

end Sys2Proof.Tests
end

/-! What one step of the machine can be, said once for the rules that hold of every step. -/

namespace Sys2Proof.Machine

/-! ### The four things a step can be -/

/-- The host changes what is its own: `LEN_ARG`, the streams, the release of `rst`, the acts still to come. A well-formed source
stays well formed, and while `rst` is asserted `LEN_ARG` is not written (R23, R52, R250, R254). -/
structure HostOwned (s t : State) : Prop where
  block  : ∃ lenArg src snk rst inbox,
    t = { s with lenArg := lenArg, src := src, snk := snk, rst := rst, inbox := inbox }
  memory : Memory.wf s.src → Memory.wf t.src
  held   : t.rst = true → s.rst = true ∧ t.lenArg = s.lenArg

/-- What a step that answers a next state can be: the block put or held in reset, the host's write of `CMD`, a change of what is the
host's own, or the operation `PHASE` selects (R206, R211, R250). -/
inductive StepCase (s : State) : State → Prop where
  | reset (l : List HostAct) (h : s.rst = true ∨ ∃ rest, s.inbox = .assertRst :: rest) :
      StepCase s (resetBlock { s with rst := true, inbox := l })
  | command (b : Byte) (rest : List HostAct) (t : State) (hin : s.inbox = .writeCmd b :: rest) (hr : s.rst = false)
      (h : exec (decodeCmd b) { s with inbox := rest } = .next t) : StepCase s t
  | host (t : State) (h : HostOwned s t) : StepCase s t
  | block (l : List HostAct) (i : Instr) (t : State) (hr : s.rst = false) (hi : selected s = some i)
      (h : exec i { s with inbox := l } = .next t) : StepCase s t

theorem hostOwned_of_inbox (s : State) (l : List HostAct) : HostOwned s { s with inbox := l } :=
  ⟨⟨_, _, _, _, _, rfl⟩, id, fun h => ⟨h, rfl⟩⟩

theorem stepCase_of_held {s : State} (l : List HostAct) (hr : s.rst = true) :
    StepCase s (resetBlock { s with inbox := l }) := by
  have h := StepCase.reset l (s := s) (.inl hr)
  rwa [← hr] at h

theorem stepCase_of_advance {s t : State} (l : List HostAct) (h : advance { s with inbox := l } = .next t) : StepCase s t := by
  cases hr : s.rst with
  | true =>
    obtain rfl := Host.Outcome.next.inj ((advance_of_held (s := { s with inbox := l }) hr).symm.trans h)
    exact stepCase_of_held l hr
  | false =>
    cases hi : selected s with
    | none =>
      obtain rfl := Host.Outcome.next.inj ((advance_of_none (s := { s with inbox := l }) hr hi).symm.trans h)
      exact .host _ (hostOwned_of_inbox s l)
    | some i => exact .block l i t hr hi ((advance_of_free (s := { s with inbox := l }) hr hi).symm.trans h)

theorem step_next {s t : State} (h : step s = .next t) : StepCase s t := by
  cases hin : s.inbox with
  | nil => exact stepCase_of_advance [] (by rw [← hin]; exact step_of_inbox_nil hin ▸ h)
  | cons a rest =>
    rw [step_of_inbox_cons hin] at h
    obtain ⟨hr, _, rfl⟩ | ⟨b, rfl, hr, he⟩ | ⟨v, _, hr, _, rfl⟩ | ⟨rfl, rfl⟩ | ⟨_, rfl⟩ | ⟨av, d, p, _, _, hp, rfl⟩ |
      ⟨d, _, _, rfl⟩ | ⟨d, _, _, rfl⟩ | ⟨_, he⟩ | ⟨_, _, he⟩ | ⟨_, _, rfl⟩ := hostAct_next h
    · exact stepCase_of_held rest hr
    · exact .command b rest t hin hr he
    · exact .host _ ⟨⟨_, _, _, _, _, rfl⟩, id, fun h => absurd (hr.symm.trans h) Bool.false_ne_true⟩
    · exact .reset rest (.inr ⟨rest, hin⟩)
    · exact .host _ ⟨⟨_, _, _, _, _, rfl⟩, id, fun h => absurd h Bool.false_ne_true⟩
    · exact .host _ ⟨⟨_, _, _, _, _, rfl⟩, fun _ => hp, fun h => ⟨h, rfl⟩⟩
    · exact .host _ ⟨⟨_, _, _, _, _, rfl⟩, fun _ => Nat.min_le_right .., fun h => ⟨h, rfl⟩⟩
    · exact .host _ ⟨⟨_, _, _, _, _, rfl⟩, id, fun h => ⟨h, rfl⟩⟩
    · exact stepCase_of_advance rest he
    · exact stepCase_of_advance _ he
    · exact .host _ (hostOwned_of_inbox s rest)

/-- What the host's write of `CMD` can do (R22, R201, R209, R210): nothing, `OP` latched, the initialisation and an error, or the
first phase of a command. -/
theorem command_next {b : Byte} {s t : State} (h : exec (decodeCmd b) s = .next t) :
    t = s ∨
    (s.status.busy = false ∧ t = latchOp (opField b) s) ∨
    (∃ e, s.status.busy = false ∧ t = raise e (initRun (latchOp (opField b) s))) ∨
    ∃ p, s.status.busy = false ∧ startField b = true ∧ firstPhase (opField b) = some p ∧ s.src.avail = true ∧
      t = { initRun (latchOp (opField b) s) with phase := p } := by
  rw [exec_decodeCmd] at h
  have h := (Host.Outcome.next.inj h).symm
  cases hs : startField b with
  | false =>
    simp only [hs, Bool.false_eq_true, if_false] at h
    split at h
    · exact .inl h
    · next hb => exact .inr (.inl ⟨by simpa using hb, h⟩)
  | true =>
    rw [hs, if_pos rfl] at h
    obtain ⟨_, hw⟩ | ⟨hb, _, hw⟩ | ⟨p, hb, _, _, hw⟩ | ⟨p, hb, hp, ha, hw⟩ := writeStart_cases (opField b) s
    · exact .inl (h.trans hw)
    · exact .inr (.inr (.inl ⟨_, hb, h.trans hw⟩))
    · exact .inr (.inr (.inl ⟨_, hb, h.trans hw⟩))
    · exact .inr (.inr (.inr ⟨p, hb, rfl, hp, ha, h.trans hw⟩))

end Sys2Proof.Machine

/-! The constraints on the registers (`State.Inv`) at reset and along every step. -/

namespace Sys2Proof.Machine

/-! ### What the constraints say of parts of the state -/

theorem resetValues_reset : ResetValues State.reset where
  cmd := rfl
  lenArg := rfl
  busy := rfl
  done := rfl
  err := rfl
  errcode := rfl
  phase := rfl
  freq := lookSym_replicate 0
  nsym := rfl
  inq i := by simp [State.reset]
  nnodes := rfl
  valid c := by simp [State.reset]
  acc := rfl
  dn := rfl
  cand := rfl

theorem usedEntries_of_dn_zero {s : State} (h : s.dn = 0) : usedEntries s = [] := by simp [usedEntries, h]

/-- A state with the reset values and a well-formed source meets the constraints, whatever `E_NB` holds within its range. -/
theorem ResetValues.inv {s : State} (h : ResetValues s) (hm : Memory.wf s.src) (he : s.eNb ≤ 32) : s.Inv where
  memory := hm
  cmd := by rw [h.cmd]; decide
  status := by
    rw [h.phase]
    exact (congr (congr (congrArg Status.mk h.busy) h.done) h.err :)
  errcode := by rw [if_neg (by rw [h.phase]; decide), h.errcode]
  nsym := by rw [h.nsym]; decide
  nnodes := by rw [h.nnodes]; decide
  dn := by rw [h.dn]; decide
  eNb := he
  acc := .inl (by rw [h.acc]; decide)
  accIn := fun hn => absurd h.acc hn
  candIn := fun hn => absurd h.cand hn
  keys := by rw [usedEntries_of_dn_zero h.dn]; exact .nil
  keylen := by simp [usedEntries_of_dn_zero h.dn]
  held := fun _ => h

theorem resetValues_resetBlock (s : State) : ResetValues (resetBlock s) := { resetValues_reset with }

theorem inv_resetBlock {s : State} (h : Memory.wf s.src) : (resetBlock s).Inv :=
  (resetValues_resetBlock s).inv h (Nat.zero_le _)

/-- With `rst` released the clause of the constraints about reset says nothing. -/
theorem held_of_free {s : State} (hr : s.rst = false) : s.rst = true → ResetValues s :=
  fun h => absurd (hr.symm.trans h) Bool.false_ne_true

theorem encodeCmd_false_reserved (op : BitVec 3) : encodeCmd false op &&& 0xF8 = 0 := by revert op; decide

theorem statusOf_of_selected {s : State} {i : Instr} (h : selected s = some i) : statusOf s.phase = Status.running := by
  unfold selected at h
  cases hp : s.phase <;> simp [hp, statusOf] at h ⊢

theorem presentSymbols_length_le (freq : Vector Count Config.NSYMVALS) : (presentSymbols freq).length ≤ 256 :=
  (List.length_filter_le ..).trans_eq allSymbols_length

theorem ne_error_of_running {p : Phase} (h : statusOf p = Status.running) : p ≠ .error := by
  rintro rfl; exact absurd h (by decide)

theorem length_unpack {bs : List Byte} {l : Nat} (h : l ≤ 8 * bs.length) : (unpack bs l).length = l := by
  rw [unpack, List.length_take, flatMap_byteBits_length]; omega

namespace State.Inv

variable {s : State}

theorem errcode_zero (h : s.Inv) (hs : statusOf s.phase = Status.running) : s.errcode = 0 := by
  simpa [ne_error_of_running hs] using h.errcode

theorem acc_le (h : s.Inv) (hs : statusOf s.phase = Status.running) : s.acc.length ≤ 7 :=
  h.acc.resolve_right fun he => ne_error_of_running hs he.1

theorem acc_nil (h : s.Inv) {p : Phase} (hp : s.phase = p) (hd : p ≠ .cPayload ∧ p ≠ .cFlush ∧ p ≠ .error) :
    s.acc = [] := by
  by_contra hn
  obtain ⟨h1, h2, h3⟩ := hd
  obtain he | he | he := h.accIn hn
  exacts [h1 (hp.symm.trans he), h2 (hp.symm.trans he), h3 (hp.symm.trans he)]

theorem cand_nil (h : s.Inv) {p : Phase} (hp : s.phase = p) (hd : p ≠ .dPayload) : s.cand = [] := by
  by_contra hn; exact hd (hp.symm.trans (h.candIn hn))

/-! ### The parts the operations are made of -/

theorem withInbox (h : s.Inv) (l : List HostAct) : State.Inv { s with inbox := l } :=
  { h with held := fun hr => { h.held hr with } }

theorem read (h : s.Inv) {xs rest : List Byte} (hu : unread s = xs ++ rest) : (afterReads xs s).Inv :=
  { h with memory := wf_afterReads h.memory hu, held := fun hr => { h.held hr with } }

theorem readEos (h : s.Inv) : (atEos s).Inv := { h with held := fun hr => { h.held hr with } }

theorem written (h : s.Inv) (bs : List Byte) : (afterWrites bs s).Inv := { h with held := fun hr => { h.held hr with } }

/-- From one phase of a run to another (R207). -/
theorem toPhase (h : s.Inv) (hr : s.rst = false) {p : Phase} (hs : statusOf s.phase = Status.running)
    (hp : statusOf p = Status.running) (hacc : s.acc ≠ [] → p = .cPayload ∨ p = .cFlush)
    (hcand : s.cand ≠ [] → p = .dPayload) :
    State.Inv { s with phase := p } :=
  { h with
    status := h.status.trans (hs.trans hp.symm)
    errcode := by rw [if_neg (ne_error_of_running hp)]; exact h.errcode_zero hs
    acc := .inl (h.acc_le hs)
    accIn := fun hn => (hacc hn).imp_right .inl
    candIn := hcand
    held := held_of_free hr }

/-- A run that ends in an error keeps what it has in `ACC` (R230). -/
theorem raised (h : s.Inv) (hr : s.rst = false) (hs : statusOf s.phase = Status.running) (hcand : s.cand = []) (e : Err) :
    (raise e s).Inv :=
  { h with
    status := rfl
    errcode := by rw [if_pos (raise_phase e s)]; exact ⟨e, rfl⟩
    acc := .inl (h.acc_le hs)
    accIn := fun _ => .inr (.inr rfl)
    candIn := fun hn => absurd hcand hn
    held := held_of_free hr }

/-- A run that ends without an error leaves `ACC` and `CAND` empty (R253). -/
theorem finished (h : s.Inv) (hr : s.rst = false) (hs : statusOf s.phase = Status.running) (hacc : s.acc = [])
    (hcand : s.cand = []) : (finish s).Inv :=
  { h with
    status := rfl
    errcode := h.errcode_zero hs
    acc := .inl (h.acc_le hs)
    accIn := fun hn => absurd hacc hn
    candIn := fun hn => absurd hcand hn
    held := held_of_free hr }

end State.Inv

end Sys2Proof.Machine

/-! Every operation and every act of the host keeps the constraints on the registers (`State.Inv`). -/

namespace Sys2Proof.Machine

/-! ### One lemma per operation -/

section

variable {s t : State}

theorem inv_execFreqScan (h : s.Inv) (hr : s.rst = false) (hp : s.phase = .cFreq) (he : execFreqScan s = .next t) : t.Inv := by
  obtain ⟨_, F, _, rfl⟩ := execFreqScan_next he
  have hk := presentSymbols_length_le F
  have h1 : State.Inv { atEos (afterReads (unread s) s) with freq := F, nsym := (presentSymbols F).length } :=
    { (h.read (rest := []) (List.append_nil _).symm).readEos with nsym := hk, held := held_of_free hr }
  have hacc : s.acc = [] := h.acc_nil hp (by decide)
  have hcand : s.cand = [] := h.cand_nil hp (by decide)
  refine h1.toPhase hr (congrArg statusOf hp) ?_ (absurd hacc) (absurd hcand)
  split <;> rfl

/-- The end of the Tree Builder's phase keeps the constraints (R125, R207). -/
theorem inv_endBuild (h : s.Inv) (hr : s.rst = false) (hp : s.phase = .cBuild) : (endBuild s).Inv := by
  obtain ⟨r, _, he⟩ | ⟨_, he⟩ := endBuild_cases s
  · rw [he]
    have h1 : State.Inv { s with root := r } := { h with held := held_of_free hr }
    exact h1.toPhase hr (congrArg statusOf hp) rfl
      (absurd (h.acc_nil hp (by decide))) (absurd (h.cand_nil hp (by decide)))
  · rw [he]; exact h

theorem inv_execTreeSeed (h : s.Inv) (hr : s.rst = false) (hp : s.phase = .cBuild) (he : execTreeSeed s = .next t) : t.Inv := by
  obtain ⟨s1, N, Q, n, _, rfl, _, hn, rfl⟩ := execTreeSeed_next he
  exact inv_endBuild { h with nnodes := hn h.nnodes, held := held_of_free hr } hr hp

theorem inv_execTreeMerge (h : s.Inv) (hr : s.rst = false) (hp : s.phase = .cBuild) (he : execTreeMerge s = .next t) : t.Inv := by
  obtain ⟨a, _, _, rfl⟩ | ⟨a, b, hn, _, _, rfl⟩ := execTreeMerge_next he
  · exact inv_endBuild h hr hp
  · exact inv_endBuild { h with nnodes := hn, held := held_of_free hr } hr hp

theorem inv_execCodeAssign (h : s.Inv) (hr : s.rst = false) (hp : s.phase = .cAssign) (he : execCodeAssign s = .next t) :
    t.Inv := by
  obtain ⟨C, rfl, _⟩ := execCodeAssign_next he
  have h1 : State.Inv { s with code := C } := { h with held := held_of_free hr }
  exact h1.toPhase hr (congrArg statusOf hp) rfl
    (absurd (h.acc_nil hp (by decide))) (absurd (h.cand_nil hp (by decide)))

theorem inv_execSerHeader (h : s.Inv) (hr : s.rst = false) (hp : s.phase = .cHeader) (he : execSerHeader s = .next t) : t.Inv := by
  obtain rfl := Host.Outcome.next.inj ((execSerHeader_eq s).symm.trans he)
  exact (h.written (headerBytes s.code)).toPhase hr (congrArg statusOf hp) rfl
    (absurd (h.acc_nil hp (by decide))) (absurd (h.cand_nil hp (by decide)))

theorem inv_execSerTerm (h : s.Inv) (hr : s.rst = false) (hp : s.phase = .cTerm) (he : execSerTerm s = .next t) : t.Inv := by
  obtain rfl := Host.Outcome.next.inj he
  have h1 : State.Inv { srcRewind (sinkWrite Config.TERM s) with acc := [] } :=
    { h with
      memory := wf_srcRewind _
      acc := .inl (Nat.zero_le _)
      accIn := absurd rfl
      held := held_of_free hr }
  exact h1.toPhase hr (congrArg statusOf hp) rfl (absurd rfl) (absurd (h.cand_nil hp (by decide)))

theorem inv_execSerPayload (h : s.Inv) (hr : s.rst = false) (hp : s.phase = .cPayload) (he : execSerPayload s = .next t) :
    t.Inv := by
  have hs : statusOf s.phase = Status.running := congrArg statusOf hp
  have hcand : s.cand = [] := h.cand_nil hp (by decide)
  obtain ⟨_, h1⟩ | ⟨b, rest, hu, _, h1⟩ | ⟨b, rest, hu, _, h1⟩ := execSerPayload_cases s <;>
    obtain rfl := Host.Outcome.next.inj (h1.symm.trans he)
  · exact h.readEos.toPhase hr hs rfl (fun _ => .inr rfl) (absurd hcand)
  · exact (h.read (xs := [b]) hu).raised hr hs hcand _
  · have h2 := (h.read (xs := [b]) hu).written
      (packBytes ((s.acc ++ (lookSym s.code b).bits).length / 8) (s.acc ++ (lookSym s.code b).bits))
    exact { h2 with
      acc := .inl (by simp only [List.length_drop]; omega)
      accIn := fun _ => .inl hp
      held := held_of_free hr }

theorem inv_execSerFlush (h : s.Inv) (hr : s.rst = false) (hp : s.phase = .cFlush) (he : execSerFlush s = .next t) : t.Inv := by
  obtain rfl := Host.Outcome.next.inj ((execSerFlush_eq s).symm.trans he)
  have h1 : State.Inv { afterWrites (if s.acc = [] then [] else [byteOf s.acc]) s with acc := [] } :=
    { h with
      acc := .inl (Nat.zero_le _)
      accIn := absurd rfl
      held := held_of_free hr }
  exact h1.finished hr (congrArg statusOf hp) rfl (h.cand_nil hp (by decide))

/-- The entry registers hold any bytes of an entry (R36, R181). -/
theorem State.Inv.withEntry (h : s.Inv) (hr : s.rst = false) (b l : Byte) (n : Nat) (hn : n ≤ 32)
    (buf : Vector Byte Config.EBUF_CAP) :
    State.Inv { s with eSym := b, eLen := l, eNb := n, eBuf := buf } :=
  { h with eNb := hn, held := held_of_free hr }

theorem usedEntries_insert (h : s.dn < 256) (e : DecEntry) :
    usedEntries { s with dtab := s.dtab.set s.dn e h, dn := s.dn + 1 } = usedEntries s ++ [e] := by
  have hl : s.dn < s.dtab.toList.length := by simpa using h
  simp only [usedEntries, Vector.toList_set]
  rw [List.take_set, List.take_succ_eq_append_getElem hl, List.set_append_right _ _ (by simp)]
  simp [Nat.min_eq_left (Nat.le_of_lt h)]

/-- Inserting an entry of the header keeps the keys in use different and as long as `keylen` says, or ends the run (R34, R185). -/
theorem inv_insertEntry (h : s.Inv) (hr : s.rst = false) (hs : statusOf s.phase = Status.running) (hcand : s.cand = [])
    (hl : s.eNb = ceil8 s.eLen.toNat) : (insertEntry s).Inv := by
  obtain ⟨_, he⟩ | ⟨_, _, he⟩ | ⟨hd, hn, he⟩ := insertEntry_cases s <;> rw [he]
  · exact h.raised hr hs hcand _
  · exact h.raised hr hs hcand _
  · have hkey : (unpack (s.eBuf.toList.take s.eNb) s.eLen.toNat).length = s.eLen.toNat := by
      apply length_unpack
      have := h.eNb
      simp only [List.length_take, Vector.length_toList, hl, ceil8, Config.EBUF_CAP] at this ⊢
      omega
    exact { h with
      dn := hd
      keys := by
        rw [usedEntries_insert hd, List.pairwise_append]
        exact ⟨h.keys, List.pairwise_singleton .., fun a ha b hb => by
          obtain rfl := List.mem_singleton.mp hb; exact hn a ha⟩
      keylen := by
        rw [usedEntries_insert hd]
        intro e hm
        obtain hm | hm := List.mem_append.mp hm
        · exact h.keylen e hm
        · obtain rfl := List.mem_singleton.mp hm; exact hkey
      held := held_of_free hr }

theorem inv_execDesHeader (h : s.Inv) (hr : s.rst = false) (hp : s.phase = .dHeader) (he : execDesHeader s = .next t) : t.Inv := by
  have hs : statusOf s.phase = Status.running := congrArg statusOf hp
  have hcand : s.cand = [] := h.cand_nil hp (by decide)
  obtain ⟨_, h1⟩ | ⟨rest, hu, h1⟩ | ⟨b, hu, _, h1⟩ | ⟨b, l, cs, hu, _, _, h1⟩ | ⟨b, l, cs, rest, hu, _, _, h1⟩ :=
    execDesHeader_cases s <;> obtain rfl := Host.Outcome.next.inj (h1.symm.trans he)
  · exact h.readEos.raised hr hs hcand _
  · exact (h.read (xs := [_]) hu).toPhase hr hs rfl
      (absurd (h.acc_nil hp (by decide))) (absurd hcand)
  · exact (((h.read (xs := [b]) (rest := []) hu).readEos).withEntry hr b s.eLen s.eNb h.eNb s.eBuf).raised hr hs hcand _
  · exact ((h.read (rest := []) (hu.trans (List.append_nil _).symm)).readEos.withEntry hr b l _ (ceil8_le_32 l) _).raised
      hr hs hcand _
  · exact inv_insertEntry ((h.read hu).withEntry hr b l _ (ceil8_le_32 l) _) hr hs hcand rfl

theorem inv_execDesPayload (h : s.Inv) (hr : s.rst = false) (hp : s.phase = .dPayload) (he : execDesPayload s = .next t) :
    t.Inv := by
  obtain ⟨_, h1⟩ | ⟨b, rest, hu, h1⟩ := execDesPayload_cases s <;> obtain rfl := Host.Outcome.next.inj (h1.symm.trans he)
  · have h2 : State.Inv { atEos s with cand := [] } :=
      { h with candIn := absurd rfl, held := held_of_free hr }
    exact h2.finished hr (congrArg statusOf hp)
      (h.acc_nil hp (by decide)) rfl
  · obtain ⟨syms, cand, _, hm⟩ := matchByte_frame b (afterReads [b] s)
    rw [hm]
    exact { (h.read (xs := [b]) hu).written syms with
      candIn := fun _ => hp
      held := held_of_free hr }

theorem inv_execPackBits (h : s.Inv) (hr : s.rst = false) (hp : s.phase = .pPack) (he : execPackBits s = .next t) : t.Inv := by
  have hs : statusOf s.phase = Status.running := congrArg statusOf hp
  have hcand : s.cand = [] := h.cand_nil hp (by decide)
  obtain ⟨bits, _, h1⟩ | ⟨bits, c, rest, _, hu, h1⟩ := execPackBits_cases s <;>
    obtain rfl := Host.Outcome.next.inj (h1.symm.trans he)
  · have h2 := ((h.read (rest := []) (List.append_nil _).symm).readEos.written (pack bits))
    have h3 : State.Inv { afterWrites (pack bits) (atEos (afterReads (unread s) s)) with acc := [] } :=
      { h2 with
        acc := .inl (Nat.zero_le _)
        accIn := absurd rfl
        held := held_of_free hr }
    exact h3.finished hr hs rfl hcand
  · have h2 := (h.read (xs := bits.map bitChar ++ [c]) (rest := rest) (by simpa using hu)).raised hr hs hcand .encInternal
    exact { h2 with
      acc := .inr ⟨rfl, rfl⟩
      accIn := fun _ => .inr (.inr rfl)
      held := held_of_free hr }

theorem inv_execUnpackBits (h : s.Inv) (hr : s.rst = false) (hp : s.phase = .uUnpack) (he : execUnpackBits s = .next t) :
    t.Inv := by
  have hs : statusOf s.phase = Status.running := congrArg statusOf hp
  have hcand : s.cand = [] := h.cand_nil hp (by decide)
  obtain ⟨xs, rest, hu, _, h1⟩ | ⟨_, h1⟩ := execUnpackBits_cases s <;>
    obtain rfl := Host.Outcome.next.inj (h1.symm.trans he)
  · exact ((h.read hu).written _).finished hr hs (h.acc_nil hp (by decide)) hcand
  · exact (h.read (rest := []) (List.append_nil _).symm).readEos.raised hr hs hcand _

/-! ### The host's acts -/

theorem inv_hostOwned (h : s.Inv) (ho : HostOwned s t) : t.Inv := by
  obtain ⟨⟨v, src, snk, rst, l, rfl⟩, hm, hh⟩ := ho
  exact { h with
    memory := hm h.memory
    held := fun hr => { h.held (hh hr).1 with lenArg := (hh hr).2.trans (h.held (hh hr).1).lenArg } }

theorem inv_initRun (h : s.Inv) (hr : s.rst = false) (op : BitVec 3) {p : Phase} (hp : statusOf p = Status.running) :
    State.Inv { initRun (latchOp op s) with phase := p } :=
  { h with
    cmd := encodeCmd_false_reserved op
    status := hp.symm
    errcode := by rw [if_neg (ne_error_of_running hp)]; rfl
    nsym := Nat.zero_le _
    nnodes := Nat.zero_le _
    dn := Nat.zero_le _
    acc := .inl (Nat.zero_le _)
    accIn := absurd rfl
    candIn := absurd rfl
    keys := by rw [usedEntries_of_dn_zero rfl]; exact .nil
    keylen := by rw [usedEntries_of_dn_zero rfl]; exact fun _ hm => absurd hm List.not_mem_nil
    held := held_of_free hr }

theorem firstPhase_cases {op : BitVec 3} {p : Phase} (h : firstPhase op = some p) :
    p = .cFreq ∨ p = .dHeader ∨ p = .pPack ∨ p = .uUnpack := by
  simp only [firstPhase] at h
  split_ifs at h <;> cases h <;> simp

theorem statusOf_firstPhase {op : BitVec 3} {p : Phase} (h : firstPhase op = some p) : statusOf p = Status.running := by
  obtain rfl | rfl | rfl | rfl := firstPhase_cases h <;> rfl

theorem inv_command (h : s.Inv) (hr : s.rst = false) {b : Byte} (he : exec (decodeCmd b) s = .next t) : t.Inv := by
  obtain rfl | ⟨_, rfl⟩ | ⟨e, _, rfl⟩ | ⟨p, _, _, hp, _, rfl⟩ := command_next he
  · exact h
  · exact { h with
      cmd := encodeCmd_false_reserved _
      held := held_of_free hr }
  · exact (inv_initRun h hr _ (p := .cFreq) rfl).raised hr rfl rfl e
  · exact inv_initRun h hr _ (statusOf_firstPhase hp)

end

/-- The operation `PHASE` selects, one per phase of a run, two in `C_BUILD` (R206, R207). -/
inductive Selected (s : State) : Instr → Prop where
  | freqScan (hp : s.phase = .cFreq) : Selected s .freqScan
  | treeSeed (hp : s.phase = .cBuild) (h0 : s.nnodes = 0) : Selected s .treeSeed
  | treeMerge (hp : s.phase = .cBuild) (h0 : s.nnodes ≠ 0) : Selected s .treeMerge
  | codeAssign (hp : s.phase = .cAssign) : Selected s .codeAssign
  | serHeader (hp : s.phase = .cHeader) : Selected s .serHeader
  | serTerm (hp : s.phase = .cTerm) : Selected s .serTerm
  | serPayload (hp : s.phase = .cPayload) : Selected s .serPayload
  | serFlush (hp : s.phase = .cFlush) : Selected s .serFlush
  | desHeader (hp : s.phase = .dHeader) : Selected s .desHeader
  | desPayload (hp : s.phase = .dPayload) : Selected s .desPayload
  | packBits (hp : s.phase = .pPack) : Selected s .packBits
  | unpackBits (hp : s.phase = .uUnpack) : Selected s .unpackBits

theorem selected_cases {s : State} {i : Instr} (h : selected s = some i) : Selected s i := by
  unfold selected at h
  cases hp : s.phase <;> simp only [hp, reduceCtorEq] at h
  case cBuild =>
    split at h
    · next h0 => cases h; exact .treeSeed hp h0
    · next h0 => cases h; exact .treeMerge hp h0
  all_goals cases h; constructor; exact hp

theorem inv_block {s t : State} {l : List HostAct} {i : Instr} (h : s.Inv) (hr : s.rst = false) (hi : selected s = some i)
    (he : exec i { s with inbox := l } = .next t) : t.Inv := by
  have h' := h.withInbox l
  cases selected_cases hi with
  | freqScan hp => exact inv_execFreqScan h' hr hp he
  | treeSeed hp => exact inv_execTreeSeed h' hr hp he
  | treeMerge hp => exact inv_execTreeMerge h' hr hp he
  | codeAssign hp => exact inv_execCodeAssign h' hr hp he
  | serHeader hp => exact inv_execSerHeader h' hr hp he
  | serTerm hp => exact inv_execSerTerm h' hr hp he
  | serPayload hp => exact inv_execSerPayload h' hr hp he
  | serFlush hp => exact inv_execSerFlush h' hr hp he
  | desHeader hp => exact inv_execDesHeader h' hr hp he
  | desPayload hp => exact inv_execDesPayload h' hr hp he
  | packBits hp => exact inv_execPackBits h' hr hp he
  | unpackBits hp => exact inv_execUnpackBits h' hr hp he

/-! ### The two statements -/

/-- Settles O40: the values of R251 meet the constraints. -/
theorem invariantAtReset : Obligations.InvariantAtReset :=
  resetValues_reset.inv reset_memory_wf (Nat.zero_le _)

/-- Settles O41, by the four things a step can be. -/
theorem invariantIsKept : Obligations.InvariantIsKept := by
  intro s t h hstep
  cases step_next hstep with
  | reset l _ => exact inv_resetBlock h.memory
  | command b rest _ _ hr he => exact inv_command (h.withInbox rest) hr he
  | host _ ho => exact inv_hostOwned h ho
  | block l i _ hr hi he => exact inv_block h hr hi he

end Sys2Proof.Machine

/-! `BUSY`, and the host's acts and reads: what each does, and what the block's own steps do to `PHASE`. -/

namespace Sys2Proof.Machine

/-! ### `BUSY` -/

/-- While the block is not in a run `PHASE` selects nothing (R207, R232). -/
theorem busy_of_selected {s : State} (h : s.Inv) {i : Instr} (hi : selected s = some i) : s.status.busy = true := by
  rw [h.status, statusOf_of_selected hi]; rfl

/-- The phases outside a run (R24, R207). -/
theorem phase_of_not_busy {p : Phase} (h : (statusOf p).busy = false) : p = .idle ∨ p = .done ∨ p = .error := by
  cases p <;> simp [statusOf, Status.running] at h ⊢

/-- The edges of R207: where the operation of a phase can go. -/
def successors : Phase → List Phase
  | .idle => [.idle]
  | .cFreq => [.cHeader, .cBuild]
  | .cBuild => [.cAssign, .cBuild]
  | .cAssign => [.cHeader]
  | .cHeader => [.cTerm]
  | .cTerm => [.cPayload]
  | .cPayload => [.cFlush, .error, .cPayload]
  | .cFlush => [.done]
  | .dHeader => [.dPayload, .error, .dHeader]
  | .dPayload => [.done, .dPayload]
  | .pPack => [.done, .error]
  | .uUnpack => [.done, .error]
  | .done => [.done]
  | .error => [.error]

/-- An edge of R207 by the names of its two phases. -/
theorem edge (q' : Phase) {p p' q : Phase} (hp : p = p') (hq : q = q') (h : q' ∈ successors p' := by decide) :
    q ∈ successors p := hp ▸ hq ▸ h

theorem insertEntry_phase {s : State} (hp : s.phase = .dHeader) : (insertEntry s).phase ∈ successors s.phase := by
  obtain ⟨_, h⟩ | ⟨_, _, h⟩ | ⟨_, _, h⟩ := insertEntry_cases s <;> rw [h]
  exacts [edge .error hp rfl, edge .error hp rfl, edge .dHeader hp hp]

theorem matchByte_phase (b : Byte) {s : State} (hp : s.phase = .dPayload) : (matchByte b s).phase ∈ successors s.phase := by
  obtain ⟨_, _, _, h⟩ := matchByte_frame b s
  rw [h]
  exact edge .dPayload hp hp

theorem endBuild_phase {s : State} (hp : s.phase = .cBuild) : (endBuild s).phase ∈ successors s.phase := by
  obtain ⟨_, _, h⟩ | ⟨_, h⟩ := endBuild_cases s <;> rw [h]
  exacts [edge .cAssign hp rfl, edge .cBuild hp hp]

/-- The block's own operation takes an edge of R207. -/
theorem block_phase {s t : State} {i : Instr} {l : List HostAct} (hi : selected s = some i)
    (he : exec i { s with inbox := l } = .next t) : t.phase ∈ successors s.phase := by
  cases selected_cases hi with
  | freqScan hp =>
    obtain ⟨_, F, _, rfl⟩ := execFreqScan_next he
    dsimp only
    split
    exacts [edge .cHeader hp rfl, edge .cBuild hp rfl]
  | treeSeed hp =>
    obtain ⟨s1, N, Q, n, _, rfl, _, _, rfl⟩ := execTreeSeed_next he
    exact endBuild_phase hp
  | treeMerge hp =>
    obtain ⟨a, _, _, rfl⟩ | ⟨a, b, hn, _, _, rfl⟩ := execTreeMerge_next he <;> exact endBuild_phase hp
  | codeAssign hp =>
    obtain ⟨C, rfl, _⟩ := execCodeAssign_next he
    exact edge .cHeader hp rfl
  | serHeader hp =>
    obtain rfl := Host.Outcome.next.inj he
    exact edge .cTerm hp rfl
  | serTerm hp =>
    obtain rfl := Host.Outcome.next.inj he
    exact edge .cPayload hp rfl
  | serPayload hp =>
    obtain ⟨_, h1⟩ | ⟨b, rest, _, _, h1⟩ | ⟨b, rest, _, _, h1⟩ := execSerPayload_cases { s with inbox := l } <;>
      obtain rfl := Host.Outcome.next.inj (h1.symm.trans he)
    exacts [edge .cFlush hp rfl, edge .error hp rfl, edge .cPayload hp hp]
  | serFlush hp =>
    obtain rfl := Host.Outcome.next.inj he
    exact edge .done hp rfl
  | desHeader hp =>
    obtain ⟨_, h1⟩ | ⟨rest, _, h1⟩ | ⟨b, _, _, h1⟩ | ⟨b, c, cs, _, _, _, h1⟩ | ⟨b, c, cs, rest, _, _, _, h1⟩ :=
      execDesHeader_cases { s with inbox := l } <;> obtain rfl := Host.Outcome.next.inj (h1.symm.trans he)
    exacts [edge .error hp rfl, edge .dPayload hp rfl, edge .error hp rfl, edge .error hp rfl, insertEntry_phase hp]
  | desPayload hp =>
    obtain ⟨_, h1⟩ | ⟨b, rest, _, h1⟩ := execDesPayload_cases { s with inbox := l } <;>
      obtain rfl := Host.Outcome.next.inj (h1.symm.trans he)
    exacts [edge .done hp rfl, matchByte_phase b (s := afterReads [b] { s with inbox := l }) hp]
  | packBits hp =>
    obtain ⟨bits, _, h1⟩ | ⟨bits, c, rest, _, _, h1⟩ := execPackBits_cases { s with inbox := l } <;>
      obtain rfl := Host.Outcome.next.inj (h1.symm.trans he)
    exacts [edge .done hp (finish_phase _), edge .error hp rfl]
  | unpackBits hp =>
    obtain ⟨xs, rest, _, _, h1⟩ | ⟨_, h1⟩ := execUnpackBits_cases { s with inbox := l } <;>
      obtain rfl := Host.Outcome.next.inj (h1.symm.trans he)
    exacts [edge .done hp rfl, edge .error hp rfl]

/-- Only reset goes to `IDLE` (R207, R250). -/
theorem idle_not_mem_successors {p : Phase} (h : p ≠ .idle) : .idle ∉ successors p := by
  cases p <;> simp [successors] at h ⊢

/-- The words of `CMD` with a command's `OP` (R91). -/
theorem opField_of_firstPhase {b : Byte} {p : Phase} (h : firstPhase (opField b) = some p) :
    b &&& 0x07 = 1 ∨ b &&& 0x07 = 2 ∨ b &&& 0x07 = 3 ∨ b &&& 0x07 = 4 := by
  have key : ∀ b : Byte, firstPhase (opField b) ≠ none →
      b &&& 0x07 = 1 ∨ b &&& 0x07 = 2 ∨ b &&& 0x07 = 3 ∨ b &&& 0x07 = 4 := by decide +kernel
  exact key b (by rw [h]; exact Option.some_ne_none p)

theorem and_0x80_of_startField {b : Byte} (h : startField b = true) : b &&& 0x80 = 0x80 := by
  revert b; decide +kernel

/-! ### The host's registers -/

theorem statusWord_bits : ∀ busy done err : Bool,
    (Status.word ⟨busy, done, err⟩).getLsbD 0 = busy ∧ (Status.word ⟨busy, done, err⟩).getLsbD 1 = done ∧
      (Status.word ⟨busy, done, err⟩).getLsbD 2 = err := by decide

theorem opField_encodeCmd : ∀ op : BitVec 3, opField (encodeCmd false op) = op := by decide

/-- Settles O11. -/
theorem hostReadsTheRegisters : Obligations.HostReadsTheRegisters := by
  intro s
  obtain ⟨h0, h1, h2⟩ := statusWord_bits s.status.busy s.status.done s.status.err
  exact ⟨h0, h1, h2, rfl, encodeCmd_false_reserved _, opField_encodeCmd _⟩

theorem encodeCmd_false_eq : ∀ op : BitVec 3, encodeCmd false op = op.setWidth 8 := by decide

/-- The code table with every valid flag cleared (R32, R43; log 30). -/
def invalidated (code : Vector CodeEntry Config.NSYMVALS) : Vector CodeEntry Config.NSYMVALS :=
  mapTable (fun e => { e with valid := false }) code

theorem initRun_latchOp (op : BitVec 3) (s : State) : initRun (latchOp op s) = startedRun op (invalidated s.code) s := by
  simp only [initRun, latchOp, startedRun, encodeCmd_false_eq, invalidated]; rfl

section

variable {s : State} {op : BitVec 3} (hb : s.status.busy = false)
include hb

theorem writeStart_begins {p : Phase} (hp : firstPhase op = some p) (ha : s.src.avail = true) :
    writeStart op s = { startedRun op (invalidated s.code) s with phase := p } := by
  simp [writeStart, start, hb, hp, ha, ← initRun_latchOp]

theorem writeStart_unavailable {p : Phase} (hp : firstPhase op = some p) (ha : s.src.avail = false) :
    writeStart op s = failedWith 1 (startedRun op (invalidated s.code) s) := by
  simp [writeStart, start, hb, hp, ha, ← initRun_latchOp]; rfl

theorem writeStart_reserved (hp : firstPhase op = none) :
    writeStart op s = failedWith 6 (startedRun op (invalidated s.code) s) := by
  simp [writeStart, start, hb, hp, initRun_latchOp]; rfl

end

/-- Settles O12. -/
theorem acceptedStartBeginsTheRun : Obligations.AcceptedStartBeginsTheRun := by
  intro s hb
  refine ⟨invalidated s.code, lookSym_mapTable _ _, fun ha => ⟨?_, ?_, ?_, ?_⟩, fun ha => ⟨?_, ?_, ?_, ?_⟩, fun op hop => ?_⟩
  · exact congrArg _ (writeStart_begins hb rfl ha)
  · exact congrArg _ (writeStart_begins hb rfl ha)
  · exact congrArg _ (writeStart_begins hb rfl ha)
  · exact congrArg _ (writeStart_begins hb rfl ha)
  · exact congrArg _ (writeStart_unavailable hb rfl ha)
  · exact congrArg _ (writeStart_unavailable hb rfl ha)
  · exact congrArg _ (writeStart_unavailable hb rfl ha)
  · exact congrArg _ (writeStart_unavailable hb rfl ha)
  · have hp : firstPhase op = none := by obtain rfl | rfl | rfl | rfl := hop <;> rfl
    exact congrArg _ (writeStart_reserved hb hp)

/-- Settles O8: each act by its arm of `hostAct`. -/
theorem hostActsBetweenRuns : Obligations.HostActsBetweenRuns := by
  intro s rest v avail data pos
  refine ⟨fun hb => ⟨fun hr => ?_, ?_, ?_, fun hp => ?_, fun hp => ?_⟩,
    fun hb => ⟨fun hr => ?_, ?_, ?_, fun hr => ⟨fun i hi => ?_, fun hi => ?_⟩⟩, fun hc => ?_, fun hb hc => ?_,
    fun hr => ⟨fun i hi => ?_, fun hi => ?_⟩⟩
  · simp [step, hostAct, hb, hr]
  · simp [step, hostAct, hb]
  · simp [step, hostAct, hb]
  · simp [step, hostAct, hb, Nat.not_lt.mpr hp]
  · simp [step, hostAct, hb, hp]
  · simp [step, hostAct, hb, hr]
  · simp [step, hostAct, hb]
  · simp [step, hostAct, hb]
  · simp only [step, hostAct, hb, if_true]
    exact advance_of_free (s := { s with inbox := .poll :: rest }) hr hi
  · simp only [step, hostAct, hb, if_true]
    exact advance_of_none (s := { s with inbox := .poll :: rest }) hr hi
  · have : (s.status.busy && !inCompress s.phase) = false := by
      obtain h | h := hc <;> simp [h]
    simp [step, hostAct, this]
  · simp [step, hostAct, hb, hc]
  · exact advance_of_free (s := { s with inbox := rest }) hr hi
  · exact advance_of_none (s := { s with inbox := rest }) hr hi

/-- A write of `CMD` that sets `BUSY` is an accepted START of a command (R91, R201). -/
theorem command_sets_busy {b : Byte} {s t : State} (he : exec (decodeCmd b) s = .next t) (hb : s.status.busy = false)
    (ht : t.status.busy = true) :
    s.src.avail = true ∧ startField b = true ∧ ∃ p, firstPhase (opField b) = some p := by
  obtain rfl | ⟨_, rfl⟩ | ⟨e, _, rfl⟩ | ⟨p, _, hs, hp, ha, _⟩ := command_next he
  · exact absurd (hb.symm.trans ht) Bool.false_ne_true
  · exact absurd (hb.symm.trans ht) Bool.false_ne_true
  · exact absurd ht Bool.false_ne_true
  · exact ⟨ha, hs, p, hp⟩

/-- Settles O43, by the four things a step can be. -/
theorem busyFromStartToTheEndOfTheRun : Obligations.BusyFromStartToTheEndOfTheRun := by
  intro s t h hstep
  have ht : t.Inv := invariantIsKept s t h hstep
  cases step_next hstep with
  | reset l hl =>
    refine ⟨fun _ hb => absurd hb Bool.false_ne_true, fun hb _ => .inr (.inr (hl.resolve_left fun hr => ?_))⟩
    exact absurd ((h.held hr).busy.symm.trans hb) Bool.false_ne_true
  | command b rest _ hin hr he =>
    refine ⟨fun hb hb' => ?_, fun hb hb' => ?_⟩
    · obtain ⟨ha, hs, p, hp⟩ := command_sets_busy he hb hb'
      exact ⟨ha, hr, b, rest, hin, and_0x80_of_startField hs, opField_of_firstPhase hp⟩
    · obtain rfl | ⟨hn, _⟩ | ⟨_, hn, _⟩ | ⟨_, hn, _⟩ := command_next he
      · exact absurd (hb.symm.trans hb') (Ne.symm Bool.false_ne_true)
      all_goals exact absurd (hn.symm.trans hb) Bool.false_ne_true
  | host _ ho =>
    obtain ⟨_, _, _, _, _, rfl⟩ := ho.block
    exact ⟨fun hb hb' => absurd (hb.symm.trans hb') Bool.false_ne_true,
      fun hb hb' => absurd (hb'.symm.trans hb) Bool.false_ne_true⟩
  | block l i _ hr hi he =>
    refine ⟨fun hb _ => absurd (hb.symm.trans (busy_of_selected h hi)) Bool.false_ne_true, fun _ hb => ?_⟩
    rw [ht.status] at hb
    obtain hp | hp | hp := phase_of_not_busy hb
    · exact absurd (hp ▸ block_phase hi he) (idle_not_mem_successors fun hs =>
        absurd ((congrArg statusOf hs).symm.trans (statusOf_of_selected hi)) (by decide))
    · exact .inl hp
    · exact .inr (.inl hp)

end Sys2Proof.Machine

/-! The tree as the arena holds it, and the code table the walk of it leaves (R29, R120, R136, R140, R141). -/

namespace Sys2Proof.Machine

/-! ### Trees -/

/-- Two arena entries with the same fields where these have a meaning: a leaf's children and an internal node's symbol have none
(R29). -/
structure NodeSame (m n : Node) : Prop where
  kind  : m.kind = n.kind
  freq  : m.freq = n.freq
  sym   : m.kind = .leaf → m.sym = n.sym
  left  : m.kind = .internal → m.left = n.left
  right : m.kind = .internal → m.right = n.right

theorem NodeSame.refl (m : Node) : NodeSame m m := ⟨rfl, rfl, fun _ => rfl, fun _ => rfl, fun _ => rfl⟩

/-- Every internal node below `m` has its children below itself (R124). -/
def ChildrenBelow (node : Vector Node Config.NODE_CAP) (m : Nat) : Prop :=
  ∀ i : ArenaIx, i.val < m → node[i].kind = .internal → node[i].left.val < i.val ∧ node[i].right.val < i.val

/-- A tree lies below every bound its root lies below, and is there in every arena that agrees with this one below it. -/
theorem TreeAt.of_agree {node node' : Vector Node Config.NODE_CAP} {m : Nat} (hc : ChildrenBelow node m)
    (hs : ∀ i : ArenaIx, i.val < m → NodeSame node[i] node'[i]) {i : ArenaIx} {l : List (Byte × BitString)}
    (ht : TreeAt node i l) (hi : i.val < m) : TreeAt node' i l := by
  induction ht with
  | leaf i h =>
    rw [(hs i hi).sym h]
    exact .leaf i ((hs i hi).kind ▸ h)
  | internal i l r h _ _ ihl ihr =>
    obtain ⟨hl, hr⟩ := hc i hi h
    refine .internal i l r ((hs i hi).kind ▸ h) ?_ ?_
    · rw [← (hs i hi).left h]; exact ihl (hl.trans hi)
    · rw [← (hs i hi).right h]; exact ihr (hr.trans hi)

section

variable {node : Vector Node Config.NODE_CAP} {i : ArenaIx} {l : List (Byte × BitString)}

theorem TreeAt.ne_nil (ht : TreeAt node i l) : l ≠ [] := by
  induction ht with
  | leaf => simp
  | internal _ _ _ _ _ _ ihl _ => simp [ihl]

/-- A tree of one leaf is a leaf. -/
theorem TreeAt.of_length_one (ht : TreeAt node i l) (hl : l.length = 1) : l = [(node[i].sym, [])] := by
  cases ht with
  | leaf => rfl
  | internal _ l r _ h1 h2 =>
    have := List.length_pos_iff.mpr h1.ne_nil
    have := List.length_pos_iff.mpr h2.ne_nil
    simp only [List.length_append, List.length_map] at hl
    omega

/-- In a tree of two leaves or more no leaf is the root. -/
theorem TreeAt.path_ne_nil (ht : TreeAt node i l) (hl : 2 ≤ l.length) : ∀ x ∈ l, x.2 ≠ [] := by
  cases ht with
  | leaf => simp at hl
  | internal _ l r _ h1 h2 =>
    intro x hx
    obtain hx | hx := List.mem_append.mp hx <;> obtain ⟨y, _, rfl⟩ := List.mem_map.mp hx <;> exact List.cons_ne_nil _ _

/-- No leaf's turns begin with another's (R140). -/
theorem TreeAt.prefixFree (ht : TreeAt node i l) : l.Pairwise (fun x y => ¬ x.2 <+: y.2 ∧ ¬ y.2 <+: x.2) := by
  induction ht with
  | leaf => exact List.pairwise_singleton ..
  | internal _ l r _ _ _ ihl ihr =>
    refine List.pairwise_append.mpr ⟨?_, ?_, ?_⟩
    · exact List.pairwise_map.mpr (ihl.imp (by simp [List.cons_prefix_cons]))
    · exact List.pairwise_map.mpr (ihr.imp (by simp [List.cons_prefix_cons]))
    · intro x hx y hy
      obtain ⟨_, _, rfl⟩ := List.mem_map.mp hx
      obtain ⟨_, _, rfl⟩ := List.mem_map.mp hy
      simp [List.cons_prefix_cons]

theorem kraft_cons (b : Bool) (l : List (Byte × BitString)) :
    ((l.map (fun x => (x.1, b :: x.2))).map (fun x => (1 / 2 : ℚ) ^ x.2.length)).sum =
      1 / 2 * (l.map (fun x => (1 / 2 : ℚ) ^ x.2.length)).sum := by
  rw [← List.sum_map_mul_left, List.map_map]
  exact congrArg List.sum (List.map_congr_left fun x _ => pow_succ' ..)

/-- The Kraft sum of a strict binary tree is 1 (R141). -/
theorem TreeAt.kraft (ht : TreeAt node i l) : (l.map (fun x => (1 / 2 : ℚ) ^ x.2.length)).sum = 1 := by
  induction ht with
  | leaf => simp
  | internal _ l r _ _ _ ihl ihr =>
    rw [List.map_append, List.sum_append, kraft_cons, kraft_cons, ihl, ihr]
    norm_num

end

/-! ### The walk -/

/-- The code table with an entry written for each leaf, in the order of the walk; `path` leads to the root of the part walked
(R136). -/
def assign (path : BitString) (l : List (Byte × BitString)) (code : Vector CodeEntry Config.NSYMVALS) :
    Vector CodeEntry Config.NSYMVALS :=
  l.foldl (fun code x => putSym code x.1
    { valid := true, len := BitVec.ofNat 8 (path ++ x.2).length, bits := path ++ x.2 }) code

theorem assign_append (path : BitString) (l r : List (Byte × BitString)) (code : Vector CodeEntry Config.NSYMVALS) :
    assign path (l ++ r) code = assign path r (assign path l code) := List.foldl_append ..

theorem assign_cons_path (path : BitString) (b : Bool) (l : List (Byte × BitString)) (code : Vector CodeEntry Config.NSYMVALS) :
    assign path (l.map (fun x => (x.1, b :: x.2))) code = assign (path ++ [b]) l code := by
  simp [assign, List.foldl_map]

theorem visit_leaf {node : Vector Node Config.NODE_CAP} {i : ArenaIx} (h : node[i].kind = .leaf) (n : Nat) (path : BitString)
    (code : Vector CodeEntry Config.NSYMVALS) :
    visit node (n + 1) i path code =
      some (putSym code node[i].sym { valid := true, len := BitVec.ofNat 8 path.length, bits := path }) := by
  simp only [visit, h]

theorem visit_internal {node : Vector Node Config.NODE_CAP} {i : ArenaIx} (h : node[i].kind = .internal) (n : Nat)
    (path : BitString) (code C : Vector CodeEntry Config.NSYMVALS) :
    visit node (n + 1) i path code = some C ↔
      ∃ C1, visit node n node[i].left (path ++ [false]) code = some C1 ∧
        visit node n node[i].right (path ++ [true]) C1 = some C := by
  simp only [visit, h]
  cases visit node n node[i].left (path ++ [false]) code <;> simp

/-- The walk of a tree writes its leaves, and is refused only where a path is too long for its bound (R136, R139; log 16). -/
theorem visit_eq_some_iff {node : Vector Node Config.NODE_CAP} {i : ArenaIx} {l : List (Byte × BitString)}
    (ht : TreeAt node i l) : ∀ (n : Nat) (path : BitString) (code C : Vector CodeEntry Config.NSYMVALS),
    visit node n i path code = some C ↔ (∀ x ∈ l, x.2.length < n) ∧ C = assign path l code := by
  induction ht with
  | leaf i h =>
    intro n path code C
    cases n with
    | zero => simp [visit]
    | succ n => rw [visit_leaf h]; simp [assign, eq_comm]
  | internal i l r h h1 _ ihl ihr =>
    intro n path code C
    cases n with
    | zero =>
      obtain ⟨x, hx⟩ := List.exists_mem_of_ne_nil _ h1.ne_nil
      simp only [visit, reduceCtorEq, false_iff, not_and]
      intro hlt
      have := hlt _ (List.mem_append_left _ (List.mem_map_of_mem hx))
      omega
    | succ n =>
      simp only [visit_internal h, ihl, ihr, assign_append, assign_cons_path, List.mem_append, List.mem_map]
      constructor
      · rintro ⟨_, ⟨hl, rfl⟩, hr, rfl⟩
        refine ⟨?_, rfl⟩
        rintro x (⟨y, hy, rfl⟩ | ⟨y, hy, rfl⟩)
        exacts [Nat.succ_lt_succ (hl y hy), Nat.succ_lt_succ (hr y hy)]
      · rintro ⟨hlt, rfl⟩
        exact ⟨_, ⟨fun x hx => Nat.lt_of_succ_lt_succ (hlt _ (.inl ⟨x, hx, rfl⟩)), rfl⟩,
          fun x hx => Nat.lt_of_succ_lt_succ (hlt _ (.inr ⟨x, hx, rfl⟩)), rfl⟩

theorem lookSym_assign_of_not_mem (path : BitString) (l : List (Byte × BitString)) {c : Byte} (h : c ∉ l.map Prod.fst) :
    ∀ code, lookSym (assign path l code) c = lookSym code c := by
  induction l with
  | nil => intro code; rfl
  | cons x l ih =>
    intro code
    obtain ⟨hx, hl⟩ := not_or.mp (mt List.mem_cons.mpr h)
    exact (ih hl _).trans (lookSym_putSym_ne _ _ (Ne.symm hx))

theorem lookSym_assign_of_mem (path : BitString) {l : List (Byte × BitString)} (hd : (l.map Prod.fst).Nodup)
    {x : Byte × BitString} (hx : x ∈ l) :
    ∀ code, lookSym (assign path l code) x.1 =
      { valid := true, len := BitVec.ofNat 8 (path ++ x.2).length, bits := path ++ x.2 } := by
  induction l with
  | nil => exact absurd hx List.not_mem_nil
  | cons y l ih =>
    intro code
    obtain ⟨hy, hl⟩ := List.nodup_cons.mp hd
    obtain rfl | hx := List.mem_cons.mp hx
    · exact (lookSym_assign_of_not_mem path l hy _).trans (lookSym_putSym_same ..)
    · exact ih hl hx _

end Sys2Proof.Machine

/-! The forest the Tree Builder grows: the queue, the seeding and one merge (R30, R120 to R128). -/

namespace Sys2Proof.Machine

/-! ### The queue -/

theorem nodup_queue (s : State) : (queue s).Nodup := by
  unfold queue allIndices
  exact (List.nodup_finRange _).filter _

theorem mem_of_least {node : Vector Node Config.NODE_CAP} {a : ArenaIx} :
    ∀ {q : List ArenaIx}, least node q = some a → a ∈ q := by
  intro q
  induction q with
  | nil => intro h; cases h
  | cons i q ih =>
    intro h
    simp only [least] at h
    split at h
    · cases h; exact List.mem_cons_self
    · next j hj =>
      split at h <;> cases h
      · exact List.mem_cons_self
      · exact List.mem_cons_of_mem _ (ih hj)

theorem mem_queue_dequeue (s : State) (a i : ArenaIx) : i ∈ queue (dequeue a s) ↔ i ∈ queue s ∧ i ≠ a := by
  by_cases h : i = a
  · subst h; simp [mem_queue]
  · have : a.val ≠ i.val := fun e => h (Fin.ext e.symm)
    simp [mem_queue, h, this]

/-! ### Seeding -/

/-- The leaf TREE_SEED makes of an arena entry (R122). -/
def leafOf (freq : Vector Count Config.NSYMVALS) (old : Node) (c : Byte) : Node :=
  { old with kind := .leaf, sym := c, freq := lookSym freq c }

theorem seedLeaves_cons_absent {s : State} {c : Byte} (h : lookSym s.freq c = 0) (cs : List Byte) :
    seedLeaves (c :: cs) s = seedLeaves cs s := by
  simp only [seedLeaves, if_pos h]

theorem seedLeaves_cons_present {s : State} {c : Byte} (h : lookSym s.freq c ≠ 0) (cs : List Byte) :
    seedLeaves (c :: cs) s = (pushNode (leafOf s.freq · c) s).bind (seedLeaves cs) := by
  simp only [seedLeaves, if_neg h, leafOf]
  cases pushNode _ s <;> rfl

/-- Seeding fills the arena from its first free entry with a leaf per counted symbol, in order, each in the queue, and changes no
other entry (R122). -/
theorem seedLeaves_spec (cs : List Byte) : ∀ s t, seedLeaves cs s = some t →
    t.nnodes = s.nnodes + (cs.filter (fun c => decide (lookSym s.freq c ≠ 0))).length ∧
    (∀ j : ArenaIx, j.val < s.nnodes → t.node[j] = s.node[j] ∧ t.inq[j] = s.inq[j]) ∧
    ∀ j : ArenaIx, s.nnodes ≤ j.val →
      t.node[j] = ((cs.filter (fun c => decide (lookSym s.freq c ≠ 0)))[j.val - s.nnodes]?).elim s.node[j]
        (leafOf s.freq s.node[j]) ∧
      t.inq[j] = (decide (j.val < t.nnodes) || s.inq[j]) := by
  induction cs with
  | nil =>
    intro s t h
    obtain rfl : s = t := by simpa [seedLeaves] using h
    exact ⟨rfl, fun j _ => ⟨rfl, rfl⟩, fun j hj => ⟨rfl, by simp [Nat.not_lt.mpr hj]⟩⟩
  | cons c cs ih =>
    intro s t h
    by_cases h0 : lookSym s.freq c = 0
    · rw [seedLeaves_cons_absent h0] at h
      simpa [h0] using ih s t h
    · rw [seedLeaves_cons_present h0] at h
      obtain ⟨_, h1⟩ | ⟨hn, h1⟩ := pushNode_cases (leafOf s.freq · c) s <;> rw [h1] at h
      · cases h
      · obtain ⟨hk, hlow, hhigh⟩ := ih _ _ h
        have hf : (c :: cs).filter (fun c => decide (lookSym s.freq c ≠ 0)) =
            c :: cs.filter (fun c => decide (lookSym s.freq c ≠ 0)) := List.filter_cons_of_pos (by simpa using h0)
        rw [hf]
        dsimp only at hk hlow hhigh
        refine ⟨by rw [hk, List.length_cons]; omega, fun j hj => ?_, fun j hj => ?_⟩
        · obtain ⟨e1, e2⟩ := hlow j (by omega)
          have : s.nnodes ≠ j.val := by omega
          simpa [Vector.getElem_set, this] using And.intro e1 e2
        · obtain hj | hj := Nat.eq_or_lt_of_le hj
          · obtain ⟨e1, e2⟩ := hlow j (by omega)
            have : j.val < t.nnodes := by omega
            simpa [Vector.getElem_set, hj, this] using And.intro e1 e2
          · obtain ⟨e1, e2⟩ := hhigh j hj
            have hi : j.val - s.nnodes = (j.val - (s.nnodes + 1)) + 1 := by omega
            have : s.nnodes ≠ j.val := by omega
            rw [hi, List.getElem?_cons_succ]
            simpa [Vector.getElem_set, this] using And.intro e1 e2

/-- The arena indices below `k`, ascending. -/
def indicesBelow (k : Nat) (h : k ≤ Config.NODE_CAP) : List ArenaIx := (List.finRange k).map (Fin.castLE h)

theorem mem_indicesBelow {k : Nat} (h : k ≤ Config.NODE_CAP) (j : ArenaIx) : j ∈ indicesBelow k h ↔ j.val < k := by
  simp only [indicesBelow, List.mem_map, List.mem_finRange, true_and]
  exact ⟨fun ⟨i, hi⟩ => hi ▸ i.isLt, fun hj => ⟨⟨j.val, hj⟩, Fin.ext rfl⟩⟩

theorem nodup_indicesBelow {k : Nat} (h : k ≤ Config.NODE_CAP) : (indicesBelow k h).Nodup :=
  (List.nodup_finRange k).map (Fin.castLE_injective h)

section

variable {s t : State} (h0 : s.nnodes = 0) (h : seedLeaves allSymbols s = some t)
include h0 h

/-- Seeding an empty arena: one leaf per counted symbol, ascending, and all of them in the queue (R122). -/
theorem seedLeaves_allSymbols :
    t.freq = s.freq ∧ t.nnodes = (presentSymbols s.freq).length ∧
    ∀ j : ArenaIx,
      t.node[j] = ((presentSymbols s.freq)[j.val]?).elim s.node[j] (leafOf s.freq s.node[j]) ∧
      t.inq[j] = (decide (j.val < t.nnodes) || s.inq[j]) := by
  obtain ⟨N, Q, n, ht, -, -⟩ := seedLeaves_frame _ _ _ h
  obtain ⟨hk, -, hnew⟩ := seedLeaves_spec _ _ _ h
  rw [h0] at hk hnew
  exact ⟨by rw [ht], hk.trans (Nat.zero_add _), fun j => hnew j (Nat.zero_le _)⟩

theorem node_of_seedLeaves (j : ArenaIx) (hj : j.val < (presentSymbols s.freq).length) :
    t.node[j] = leafOf s.freq s.node[j] ((presentSymbols s.freq)[j.val]'hj) := by
  obtain ⟨-, -, hnew⟩ := seedLeaves_allSymbols h0 h
  rw [(hnew j).1, List.getElem?_eq_getElem hj]; rfl

theorem queue_of_seedLeaves (hcap : (presentSymbols s.freq).length ≤ Config.NODE_CAP) :
    (queue t).Perm (indicesBelow (presentSymbols s.freq).length hcap) := by
  obtain ⟨-, hk, hnew⟩ := seedLeaves_allSymbols h0 h
  refine (List.perm_ext_iff_of_nodup (nodup_queue t) (nodup_indicesBelow hcap)).mpr fun j => ?_
  rw [mem_queue, mem_indicesBelow, (hnew j).2, hk]
  exact ⟨And.left, fun hj => ⟨hj, by rw [decide_eq_true hj, Bool.true_or]⟩⟩

/-- Seeding an empty arena leaves a forest of leaves (R122, R126). -/
theorem forest_of_seedLeaves : Forest t ∧ (queue t).length = (presentSymbols s.freq).length := by
  obtain ⟨hfreq, hk, -⟩ := seedLeaves_allSymbols h0 h
  have hcap : (presentSymbols s.freq).length ≤ Config.NODE_CAP := (presentSymbols_length_le _).trans (by decide)
  have hq := queue_of_seedLeaves h0 h hcap
  have hleaf := node_of_seedLeaves h0 h
  have hlen : (queue t).length = (presentSymbols s.freq).length := by
    rw [hq.length_eq, indicesBelow, List.length_map, List.length_finRange]
  refine ⟨⟨fun j hj hi => ?_, by rw [hlen, hk, hfreq]; omega, fun i => [(t.node[i].sym, [])], fun i hi => ?_, ?_⟩, hlen⟩
  · rw [hleaf j (hk ▸ hj)] at hi; cases hi
  · exact .leaf i (by rw [hleaf i (hk ▸ ((mem_queue t i).mp hi).1)]; rfl)
  · rw [hfreq]
    refine (hq.flatMap_right _).trans (.of_eq ?_)
    simp only [List.map_cons, List.map_nil, ← List.map_eq_flatMap, indicesBelow, List.map_map]
    refine List.ext_getElem (by simp) fun k h1 h2 => ?_
    simp only [List.getElem_map, List.getElem_finRange, Function.comp_apply]
    rw [hleaf _ h2]; rfl

end

/-! ### One merge -/

/-- The state after the merge of the nodes `a` and `b` (R124). -/
def merged (a b : ArenaIx) (s : State) (hn : s.nnodes < Config.NODE_CAP) : State :=
  { s with
    node := s.node.set s.nnodes (mergeNode s.node a b (s.node[s.nnodes]'hn)) hn
    inq := ((s.inq.set a.val false a.isLt).set b.val false b.isLt).set s.nnodes true hn
    nnodes := s.nnodes + 1 }

section

variable {s : State} {a b : ArenaIx} (ha : a ∈ queue s) (hb : b ∈ queue s) (hab : a ≠ b) (hn : s.nnodes < Config.NODE_CAP)

/-- The nodes of the queue a merge leaves in it. -/
def others (a b : ArenaIx) (s : State) : List ArenaIx := (queue s).filter (fun i => i ≠ a ∧ i ≠ b)

theorem mem_others {i : ArenaIx} : i ∈ others a b s ↔ i ∈ queue s ∧ i ≠ a ∧ i ≠ b := by simp [others]

theorem lt_nnodes_of_mem_queue {i : ArenaIx} (h : i ∈ queue s) : i.val < s.nnodes := ((mem_queue s i).mp h).1

include ha hb hab in
theorem queue_perm_others : (queue s).Perm (a :: b :: others a b s) := by
  refine (List.perm_ext_iff_of_nodup (nodup_queue s) ?_).mpr fun i => ?_
  · simp [hab, others, (nodup_queue s).filter]
  · by_cases h1 : i = a
    · simp [h1, ha]
    · by_cases h2 : i = b <;> simp [h1, h2, hb, mem_others]

theorem mem_queue_merged (i : ArenaIx) :
    i ∈ queue (merged a b s hn) ↔ i = ⟨s.nnodes, hn⟩ ∨ i ∈ others a b s := by
  rw [mem_others, mem_queue, mem_queue, Fin.ext_iff, ne_eq, ne_eq, Fin.ext_iff, Fin.ext_iff]
  simp only [merged, Fin.getElem_fin, Vector.getElem_set]
  by_cases hi : s.nnodes = i.val
  · simp [← hi]
  · by_cases h1 : b.val = i.val
    · simp [hi, h1, Ne.symm hi]
    · by_cases h2 : a.val = i.val
      · simp [hi, h1, h2, Ne.symm hi]
      · simp [hi, h1, h2, Ne.symm hi, Ne.symm h1, Ne.symm h2]
        omega

theorem queue_merged_perm_others : (queue (merged a b s hn)).Perm (⟨s.nnodes, hn⟩ :: others a b s) := by
  refine (List.perm_ext_iff_of_nodup (nodup_queue _) ?_).mpr fun i => by rw [mem_queue_merged, List.mem_cons]
  refine List.nodup_cons.mpr ⟨fun hm => ?_, (nodup_queue s).filter _⟩
  exact absurd (lt_nnodes_of_mem_queue (mem_others.mp hm).1) (lt_irrefl _)

include ha hb hab in
theorem queue_merged_length : (queue (merged a b s hn)).length + 1 = (queue s).length := by
  rw [(queue_merged_perm_others hn).length_eq, (queue_perm_others ha hb hab).length_eq]; rfl

theorem merged_node_new : (merged a b s hn).node[(⟨s.nnodes, hn⟩ : ArenaIx)] = mergeNode s.node a b (s.node[s.nnodes]'hn) :=
  Vector.getElem_set_self _

theorem merged_node_old {j : ArenaIx} (hj : s.nnodes ≠ j.val) : (merged a b s hn).node[j] = s.node[j] :=
  Vector.getElem_set_ne hn j.isLt hj

/-- The leaves and the turns to them of a tree whose children have these (R136). -/
def joined (l r : List (Byte × BitString)) : List (Byte × BitString) :=
  l.map (fun x => (x.1, false :: x.2)) ++ r.map (fun x => (x.1, true :: x.2))

theorem joined_symbols (l r : List (Byte × BitString)) : (joined l r).map Prod.fst = l.map Prod.fst ++ r.map Prod.fst := by
  rw [joined, List.map_append, List.map_map, List.map_map]; rfl

include ha hb hab in
/-- A merge keeps the forest (R124, R128): the two trees become the children of one, all others stay. -/
theorem forest_merged (hF : Forest s) : Forest (merged a b s hn) := by
  obtain ⟨hc, hcount, codes, htree, hperm⟩ := hF
  have hagree : ∀ j : ArenaIx, j.val < s.nnodes → NodeSame s.node[j] (merged a b s hn).node[j] := fun j hj => by
    rw [merged_node_old hn hj.ne']; exact .refl _
  have hkeep : ∀ i ∈ queue s, TreeAt (merged a b s hn).node i (codes i) := fun i hi =>
    (htree i hi).of_agree hc hagree (lt_nnodes_of_mem_queue hi)
  have hnew := merged_node_new (a := a) (b := b) hn
  have ha' := hkeep a ha
  have hb' := hkeep b hb
  have hroot : TreeAt (merged a b s hn).node ⟨s.nnodes, hn⟩ (joined (codes a) (codes b)) :=
    .internal _ _ _ (by rw [hnew]; rfl) (by rw [hnew]; exact ha') (by rw [hnew]; exact hb')
  have hne : ∀ i ∈ others a b s, i ≠ ⟨s.nnodes, hn⟩ := fun i hi e =>
    absurd (lt_nnodes_of_mem_queue (mem_others.mp hi).1) (by rw [e]; exact lt_irrefl _)
  refine ⟨fun j hj hi => ?_, ?_, Function.update codes ⟨s.nnodes, hn⟩ (joined (codes a) (codes b)), fun i hi => ?_, ?_⟩
  · obtain hj | hj := Nat.lt_succ_iff_lt_or_eq.mp hj
    · rw [merged_node_old hn hj.ne'] at hi ⊢
      exact hc j hj hi
    · obtain rfl : j = ⟨s.nnodes, hn⟩ := Fin.ext hj
      rw [hnew]
      exact ⟨lt_nnodes_of_mem_queue ha, lt_nnodes_of_mem_queue hb⟩
  · have := queue_merged_length ha hb hab hn
    change _ + (s.nnodes + 1) = 2 * (presentSymbols s.freq).length
    omega
  · obtain rfl | hi := (mem_queue_merged hn i).mp hi
    · rw [Function.update_self]; exact hroot
    · rw [Function.update_of_ne (hne i hi)]
      exact hkeep i (mem_others.mp hi).1
  · refine ((queue_merged_perm_others hn).flatMap_right _).trans (.trans (.of_eq ?_)
      (((queue_perm_others ha hb hab).flatMap_right _).symm.trans hperm))
    rw [List.flatMap_cons, List.flatMap_cons, List.flatMap_cons, Function.update_self, joined_symbols, List.append_assoc]
    refine congrArg _ (congrArg _ (List.flatMap_congr fun i hi => ?_))
    rw [Function.update_of_ne (hne i hi)]

end

end Sys2Proof.Machine

/-! The invariant of the encoder's tables (`State.EncInv`) along every step. -/

namespace Sys2Proof.Machine

/-! ### The code table the Code Assigner leaves -/

/-- When one node is left in the queue, the root's tree has exactly the counted symbols (R125, R128). -/
theorem forest_root {s : State} (hF : Forest s) (hq : queue s = [s.root]) :
    ∃ codes, TreeAt s.node s.root codes ∧ (codes.map Prod.fst).Perm (presentSymbols s.freq) := by
  obtain ⟨_, _, codes, htree, hperm⟩ := hF
  rw [hq] at htree hperm
  exact ⟨codes s.root, htree _ List.mem_cons_self, by simpa using hperm⟩

theorem nodup_presentSymbols (freq : Vector Count Config.NSYMVALS) : (presentSymbols freq).Nodup := by
  refine List.Nodup.filter _ ?_
  refine List.Nodup.map_on (fun x hx y hy h => ?_) List.nodup_range
  have hx : x < 2 ^ 8 := List.mem_range.mp hx
  have hy : y < 2 ^ 8 := List.mem_range.mp hy
  have := congrArg BitVec.toNat h
  rwa [BitVec.toNat_ofNat, BitVec.toNat_ofNat, Nat.mod_eq_of_lt hx, Nat.mod_eq_of_lt hy] at this

/-- With one symbol the root is the only node (R126, R128). -/
theorem root_of_one_symbol {s : State} (hF : Forest s) (hq : queue s = [s.root]) (h1 : (presentSymbols s.freq).length = 1) :
    s.root = 0 := by
  have hlt := lt_nnodes_of_mem_queue (s := s) (i := s.root) (by rw [hq]; exact List.mem_cons_self)
  have := hF.2.1
  rw [hq, List.length_singleton] at this
  exact Fin.ext (by rw [Fin.val_zero]; omega)

/-- The entry of the code table for a path (R136). -/
def entryOf (path : BitString) : CodeEntry := { valid := true, len := BitVec.ofNat 8 path.length, bits := path }

/-- A code table holds these codes and no other. -/
structure Holds (code : Vector CodeEntry Config.NSYMVALS) (l : List (Byte × BitString)) : Prop where
  entry : ∀ x ∈ l, lookSym code x.1 = entryOf x.2
  other : ∀ c, c ∉ l.map Prod.fst → (lookSym code c).valid = false

theorem Holds.valid_iff {code : Vector CodeEntry Config.NSYMVALS} {l : List (Byte × BitString)} (h : Holds code l) (c : Byte) :
    (lookSym code c).valid = true ↔ ∃ x ∈ l, x.1 = c := by
  constructor
  · intro hv
    by_contra hn
    have := h.other c fun hm => hn (List.mem_map.mp hm)
    exact absurd (this.symm.trans hv) Bool.false_ne_true
  · rintro ⟨x, hx, rfl⟩
    rw [h.entry x hx]; rfl

/-- Codes for the counted symbols that are short enough, none the beginning of another, and of Kraft sum 1, meet the laws of the code
table (R139 to R141). -/
theorem codeLaws_of_holds {t : State} {l : List (Byte × BitString)} (h : Holds t.code l)
    (hperm : (l.map Prod.fst).Perm (presentSymbols t.freq)) (hlen : ∀ x ∈ l, 1 ≤ x.2.length ∧ x.2.length ≤ 255)
    (hfree : l.Pairwise (fun x y => ¬ x.2 <+: y.2 ∧ ¬ y.2 <+: x.2))
    (hkraft : 2 ≤ t.nsym → (l.map (fun x => (1 / 2 : ℚ) ^ x.2.length)).sum = 1)
    (hsingle : t.nsym = 1 → ∀ x ∈ l, x.2 = [false]) : CodeLaws t := by
  have hlenOf : ∀ x ∈ l, (lookSym t.code x.1).len.toNat = x.2.length := fun x hx => by
    rw [h.entry x hx]
    exact (BitVec.toNat_ofNat ..).trans (Nat.mod_eq_of_lt (Nat.lt_succ_of_le (hlen x hx).2))
  constructor
  case valid =>
    intro c
    rw [h.valid_iff, ← mem_presentSymbols, ← hperm.mem_iff, List.mem_map]
  case len =>
    intro c hc
    obtain ⟨x, hx, rfl⟩ := (h.valid_iff c).mp hc
    rw [hlenOf x hx, h.entry x hx]
    exact ⟨rfl, (hlen x hx).1⟩
  case free =>
    intro c d hc hd hne
    obtain ⟨x, hx, rfl⟩ := (h.valid_iff c).mp hc
    obtain ⟨y, hy, rfl⟩ := (h.valid_iff d).mp hd
    rw [h.entry x hx, h.entry y hy]
    have : Std.Symm (fun x y : Byte × BitString => ¬ x.2 <+: y.2 ∧ ¬ y.2 <+: x.2) := ⟨fun _ _ => And.symm⟩
    exact (hfree.forall hx hy fun e => hne (congrArg Prod.fst e)).1
  case kraft =>
    intro h2
    refine (hperm.map _).sum_eq.symm.trans (.trans (congrArg List.sum ?_) (hkraft h2))
    rw [List.map_map]
    exact List.map_congr_left fun x hx => congrArg _ (hlenOf x hx)
  case single =>
    intro h1 c hc
    obtain ⟨x, hx, rfl⟩ := List.mem_map.mp (hperm.mem_iff.mpr hc)
    rw [h.entry x hx]
    exact hsingle h1 x hx

section

variable {s : State} (hn : s.nsym = (presentSymbols s.freq).length) (hv : ∀ c, (lookSym s.code c).valid = false)
  (hF : Forest s) (hq : queue s = [s.root])
include hn hv hF hq

/-- The code 0 for the only symbol meets the laws (R137, R139, R141). -/
theorem codeLaws_of_one_symbol (h1 : s.nsym = 1) :
    CodeLaws { s with
      code := putSym s.code s.node[(0 : ArenaIx)].sym { valid := true, len := 1, bits := [false] }
      phase := .cHeader } := by
  obtain ⟨codes, htree, hperm⟩ := forest_root hF hq
  have hl : (presentSymbols s.freq).length = 1 := hn.symm.trans h1
  have hcodes := htree.of_length_one (by rw [← List.length_map, hperm.length_eq, hl])
  rw [hcodes, root_of_one_symbol hF hq hl] at hperm
  refine codeLaws_of_holds (l := [(s.node[(0 : ArenaIx)].sym, [false])]) ⟨?_, fun c hc => ?_⟩ hperm ?_
    (List.pairwise_singleton ..) (fun h2 => absurd (h1.symm.trans_ge h2) (by decide)) ?_
  · rintro x hx
    obtain rfl := List.mem_singleton.mp hx
    exact lookSym_putSym_same ..
  · exact (lookSym_putSym_ne _ _ fun e => hc (List.mem_singleton.mpr e.symm)).symm ▸ hv c
  · simp
  · simp

/-- The walk of the tree meets the laws (R129, R136, R139 to R141). -/
theorem codeLaws_of_visit (h2 : 2 ≤ s.nsym) {C : Vector CodeEntry Config.NSYMVALS}
    (hvis : visit s.node 256 s.root [] s.code = some C) : CodeLaws { s with code := C, phase := .cHeader } := by
  obtain ⟨codes, htree, hperm⟩ := forest_root hF hq
  obtain ⟨hlt, rfl⟩ := (visit_eq_some_iff htree ..).mp hvis
  have hlen : 2 ≤ codes.length := by rw [← List.length_map (f := Prod.fst), hperm.length_eq, ← hn]; exact h2
  have hnodup : (codes.map Prod.fst).Nodup := hperm.nodup_iff.mpr (nodup_presentSymbols _)
  refine codeLaws_of_holds (l := codes) ⟨fun x hx => ?_, fun c hc => ?_⟩ hperm (fun x hx => ⟨?_, ?_⟩) htree.prefixFree
    (fun _ => htree.kraft) (fun h1 => absurd (h1.symm.trans_ge h2) (by decide))
  · exact lookSym_assign_of_mem [] hnodup hx _
  · exact (congrArg CodeEntry.valid (lookSym_assign_of_not_mem [] codes hc _)).trans (hv c)
  · exact List.length_pos_iff.mpr (htree.path_ne_nil hlen x hx)
  · exact Nat.le_of_lt_succ (hlt x hx)

end

/-! ### What the invariant says of each phase -/

/-- Two states with the same encoder's tables. -/
structure SameTables (s t : State) : Prop where
  freq   : t.freq = s.freq
  nsym   : t.nsym = s.nsym
  node   : t.node = s.node
  inq    : t.inq = s.inq
  nnodes : t.nnodes = s.nnodes
  root   : t.root = s.root
  code   : t.code = s.code

section

variable {s t : State}

namespace SameTables

theorem clear (h : SameTables s t) (hc : TablesClear s) : TablesClear t where
  freq := h.freq ▸ hc.freq
  nsym := h.nsym ▸ hc.nsym
  nnodes := h.nnodes ▸ hc.nnodes
  inq := h.inq ▸ hc.inq
  valid := h.code ▸ hc.valid

theorem queue_eq (h : SameTables s t) : queue t = queue s := by simp only [queue, h.nnodes, h.inq]

theorem forest (h : SameTables s t) (hF : Forest s) : Forest t := by
  unfold Forest
  rw [h.queue_eq, h.node, h.nnodes, h.freq]
  exact hF

theorem codeLaws (h : SameTables s t) (hC : CodeLaws s) : CodeLaws t where
  valid := by rw [h.code, h.freq]; exact hC.valid
  len := h.code ▸ hC.len
  free := h.code ▸ hC.free
  kraft := by rw [h.nsym, h.code, h.freq]; exact hC.kraft
  single := by rw [h.nsym, h.code, h.freq]; exact hC.single

theorem trans {u : State} (h : SameTables s t) (h' : SameTables t u) : SameTables s u where
  freq := h'.freq.trans h.freq
  nsym := h'.nsym.trans h.nsym
  node := h'.node.trans h.node
  inq := h'.inq.trans h.inq
  nnodes := h'.nnodes.trans h.nnodes
  root := h'.root.trans h.root
  code := h'.code.trans h.code

end SameTables

theorem sameTables_afterReads (xs : List Byte) (s : State) : SameTables s (afterReads xs s) :=
  ⟨rfl, rfl, rfl, rfl, rfl, rfl, rfl⟩

theorem sameTables_atEos (s : State) : SameTables s (atEos s) := ⟨rfl, rfl, rfl, rfl, rfl, rfl, rfl⟩

theorem sameTables_afterWrites (bs : List Byte) (s : State) : SameTables s (afterWrites bs s) :=
  ⟨rfl, rfl, rfl, rfl, rfl, rfl, rfl⟩

/-- The phases in which the encoder's tables are clear (R43, R251). -/
def clearIn : Phase → Bool
  | .idle | .cFreq | .dHeader | .dPayload | .pPack | .uUnpack => true
  | .cBuild | .cAssign | .cHeader | .cTerm | .cPayload | .cFlush | .done | .error => false

/-- The phases in which the code table is complete (R139). -/
def codedIn : Phase → Bool
  | .cHeader | .cTerm | .cPayload | .cFlush => true
  | .idle | .cFreq | .cBuild | .cAssign | .dHeader | .dPayload | .pPack | .uUnpack | .done | .error => false

theorem encInv_iff_clear (hp : clearIn s.phase = true) : s.EncInv ↔ TablesClear s := by
  cases h : s.phase <;> simp_all [State.EncInv, clearIn]

theorem encInv_iff_coded (hp : codedIn s.phase = true) :
    s.EncInv ↔ s.nsym = (presentSymbols s.freq).length ∧ CodeLaws s := by
  cases h : s.phase <;> simp_all [State.EncInv, codedIn]

theorem encInv_of_ended (hp : s.phase = .done ∨ s.phase = .error) : s.EncInv := by
  obtain hp | hp := hp <;> simp [State.EncInv, hp]

/-- The counts are there and no code is, as the Tree Builder and the Code Assigner find it (R111, R122, R136). -/
structure Counted (s : State) : Prop where
  nsym  : s.nsym = (presentSymbols s.freq).length
  pos   : 1 ≤ s.nsym
  valid : ∀ c, (lookSym s.code c).valid = false

theorem encInv_iff_cBuild (hp : s.phase = .cBuild) :
    s.EncInv ↔ Counted s ∧ (s.nnodes = 0 ∨ Forest s ∧ 2 ≤ (queue s).length) := by
  simp only [State.EncInv, hp]
  exact ⟨fun ⟨h1, h2, h3, h4⟩ => ⟨⟨h1, h2, h3⟩, h4⟩, fun ⟨⟨h1, h2, h3⟩, h4⟩ => ⟨h1, h2, h3, h4⟩⟩

theorem encInv_iff_cAssign (hp : s.phase = .cAssign) :
    s.EncInv ↔ Counted s ∧ Forest s ∧ queue s = [s.root] := by
  simp only [State.EncInv, hp]
  exact ⟨fun ⟨h1, h2, h3, h4⟩ => ⟨⟨h1, h2, h3⟩, h4⟩, fun ⟨⟨h1, h2, h3⟩, h4⟩ => ⟨h1, h2, h3, h4⟩⟩

/-- A step that keeps the tables and the phase keeps the invariant. -/
theorem State.EncInv.of_sameTables (hE : s.EncInv) (h : SameTables s t) (hp : t.phase = s.phase) : t.EncInv := by
  cases hs : s.phase with
  | idle | cFreq | dHeader | dPayload | pPack | uUnpack =>
    exact (encInv_iff_clear (by rw [hp, hs]; rfl)).mpr (h.clear ((encInv_iff_clear (by rw [hs]; rfl)).mp hE))
  | cHeader | cTerm | cPayload | cFlush =>
    obtain ⟨hn, hC⟩ := (encInv_iff_coded (by rw [hs]; rfl)).mp hE
    exact (encInv_iff_coded (by rw [hp, hs]; rfl)).mpr ⟨by rw [h.nsym, h.freq]; exact hn, h.codeLaws hC⟩
  | cBuild =>
    obtain ⟨⟨h1, h2, h3⟩, h4⟩ := (encInv_iff_cBuild hs).mp hE
    refine (encInv_iff_cBuild (hp.trans hs)).mpr ⟨⟨by rw [h.nsym, h.freq]; exact h1, h.nsym ▸ h2, h.code ▸ h3⟩, ?_⟩
    rw [h.nnodes, h.queue_eq]
    exact h4.imp_right (And.imp_left h.forest)
  | cAssign =>
    obtain ⟨⟨h1, h2, h3⟩, h4, h5⟩ := (encInv_iff_cAssign hs).mp hE
    refine (encInv_iff_cAssign (hp.trans hs)).mpr
      ⟨⟨by rw [h.nsym, h.freq]; exact h1, h.nsym ▸ h2, h.code ▸ h3⟩, h.forest h4, ?_⟩
    rw [h.queue_eq, h.root, h5]
  | done => exact encInv_of_ended (.inl (hp.trans hs))
  | error => exact encInv_of_ended (.inr (hp.trans hs))

/-! ### One lemma per operation that writes a table -/

theorem encInv_execFreqScan (hE : s.EncInv) (hp : s.phase = .cFreq) (he : execFreqScan s = .next t) : t.EncInv := by
  obtain ⟨_, F, _, rfl⟩ := execFreqScan_next he
  obtain ⟨_, _, hnn, _, hvalid⟩ := (encInv_iff_clear (by rw [hp]; rfl)).mp hE
  by_cases hk : (presentSymbols F).length = 0
  · refine (encInv_iff_coded (by rw [if_pos hk]; rfl)).mpr ⟨rfl, ?_⟩
    exact codeLaws_of_holds (l := []) ⟨fun x hx => absurd hx List.not_mem_nil, fun c _ => hvalid c⟩
      (.of_eq (List.length_eq_zero_iff.mp hk).symm) (fun x hx => absurd hx List.not_mem_nil) .nil
      (fun h2 => absurd (hk.symm.trans_ge h2) (by decide)) (fun _ x hx => absurd hx List.not_mem_nil)
  · exact (encInv_iff_cBuild (if_neg hk)).mpr ⟨⟨rfl, Nat.pos_of_ne_zero hk, hvalid⟩, .inl hnn⟩

/-- The end of the Tree Builder's phase: one tree, whose root is the only node of the queue, or more (R123, R125). -/
theorem encInv_endBuild (hp : s.phase = .cBuild) (hc : Counted s) (hF : Forest s) (hq : queue s ≠ []) : (endBuild s).EncInv := by
  obtain ⟨r, hr, he⟩ | ⟨hl, he⟩ := endBuild_cases s <;> rw [he]
  · exact (encInv_iff_cAssign rfl).mpr ⟨⟨hc.nsym, hc.pos, hc.valid⟩, hF, hr⟩
  · have := List.length_pos_iff.mpr hq
    exact (encInv_iff_cBuild hp).mpr ⟨hc, .inr ⟨hF, by omega⟩⟩

theorem encInv_execTreeSeed (hE : s.EncInv) (hp : s.phase = .cBuild) (h0 : s.nnodes = 0) (he : execTreeSeed s = .next t) :
    t.EncInv := by
  obtain ⟨s1, N, Q, n, hs, rfl, _, _, rfl⟩ := execTreeSeed_next he
  obtain ⟨hc, _⟩ := (encInv_iff_cBuild hp).mp hE
  obtain ⟨hF, hl⟩ := forest_of_seedLeaves h0 hs
  exact encInv_endBuild hp ⟨hc.nsym, hc.pos, hc.valid⟩ hF (List.length_pos_iff.mp (by rw [hl, ← hc.nsym]; exact hc.pos))

theorem encInv_execTreeMerge (hE : s.EncInv) (hp : s.phase = .cBuild) (h0 : s.nnodes ≠ 0) (he : execTreeMerge s = .next t) :
    t.EncInv := by
  obtain ⟨hc, hF⟩ := (encInv_iff_cBuild hp).mp hE
  obtain ⟨hF, h2⟩ := hF.resolve_left h0
  obtain ⟨a, _, _, rfl⟩ | ⟨a, b, hn, ha, hb, rfl⟩ := execTreeMerge_next he
  · exact encInv_endBuild hp hc hF (List.length_pos_iff.mp (by omega))
  · obtain ⟨hb, hab⟩ := (mem_queue_dequeue s a b).mp (mem_of_least hb)
    have ha := mem_of_least ha
    have hl := queue_merged_length ha hb (Ne.symm hab) hn
    exact encInv_endBuild (s := merged a b s hn) hp ⟨hc.nsym, hc.pos, hc.valid⟩ (forest_merged ha hb (Ne.symm hab) hn hF)
      (List.length_pos_iff.mp (by omega))

theorem encInv_execCodeAssign (hE : s.EncInv) (hp : s.phase = .cAssign) (he : execCodeAssign s = .next t) : t.EncInv := by
  obtain ⟨hc, hF, hq⟩ := (encInv_iff_cAssign hp).mp hE
  obtain ⟨C, rfl, ⟨h1, rfl⟩ | ⟨h1, hvis⟩⟩ := execCodeAssign_next he <;>
    refine (encInv_iff_coded rfl).mpr ⟨hc.nsym, ?_⟩
  · exact codeLaws_of_one_symbol hc.nsym hc.valid hF hq h1
  · exact codeLaws_of_visit hc.nsym hc.valid hF hq (by have := hc.pos; omega) hvis

/-! ### The operations that write none -/

theorem sameTables_execSerHeader (he : execSerHeader s = .next t) : SameTables s t := by
  obtain rfl := Host.Outcome.next.inj ((execSerHeader_eq s).symm.trans he)
  exact ⟨rfl, rfl, rfl, rfl, rfl, rfl, rfl⟩

theorem sameTables_execSerTerm (he : execSerTerm s = .next t) : SameTables s t := by
  obtain rfl := Host.Outcome.next.inj he
  exact ⟨rfl, rfl, rfl, rfl, rfl, rfl, rfl⟩

theorem sameTables_execSerFlush (he : execSerFlush s = .next t) : SameTables s t := by
  obtain rfl := Host.Outcome.next.inj ((execSerFlush_eq s).symm.trans he)
  exact ⟨rfl, rfl, rfl, rfl, rfl, rfl, rfl⟩

theorem sameTables_execSerPayload (he : execSerPayload s = .next t) : SameTables s t := by
  obtain ⟨_, h1⟩ | ⟨b, rest, _, _, h1⟩ | ⟨b, rest, _, _, h1⟩ := execSerPayload_cases s <;>
    obtain rfl := Host.Outcome.next.inj (h1.symm.trans he) <;> exact ⟨rfl, rfl, rfl, rfl, rfl, rfl, rfl⟩

theorem sameTables_insertEntry (s : State) : SameTables s (insertEntry s) := by
  obtain ⟨_, h⟩ | ⟨_, _, h⟩ | ⟨_, _, h⟩ := insertEntry_cases s <;> rw [h] <;> exact ⟨rfl, rfl, rfl, rfl, rfl, rfl, rfl⟩

theorem sameTables_execDesHeader (he : execDesHeader s = .next t) : SameTables s t := by
  obtain ⟨_, h1⟩ | ⟨rest, _, h1⟩ | ⟨b, _, _, h1⟩ | ⟨b, c, cs, _, _, _, h1⟩ | ⟨b, c, cs, rest, _, _, _, h1⟩ :=
    execDesHeader_cases s <;> obtain rfl := Host.Outcome.next.inj (h1.symm.trans he)
  case inr.inr.inr.inr => exact { sameTables_insertEntry _ with }
  all_goals exact ⟨rfl, rfl, rfl, rfl, rfl, rfl, rfl⟩

theorem sameTables_execDesPayload (he : execDesPayload s = .next t) : SameTables s t := by
  obtain ⟨_, h1⟩ | ⟨b, rest, _, h1⟩ := execDesPayload_cases s <;> obtain rfl := Host.Outcome.next.inj (h1.symm.trans he)
  · exact ⟨rfl, rfl, rfl, rfl, rfl, rfl, rfl⟩
  · obtain ⟨syms, cand, _, hm⟩ := matchByte_frame b (afterReads [b] s)
    rw [hm]; exact ⟨rfl, rfl, rfl, rfl, rfl, rfl, rfl⟩

theorem sameTables_execPackBits (he : execPackBits s = .next t) : SameTables s t := by
  obtain ⟨bits, _, h1⟩ | ⟨bits, c, rest, _, _, h1⟩ := execPackBits_cases s <;>
    obtain rfl := Host.Outcome.next.inj (h1.symm.trans he)
  · exact { ((sameTables_afterReads (unread s) s).trans (sameTables_atEos _)).trans (sameTables_afterWrites (pack bits) _) with }
  · exact ⟨rfl, rfl, rfl, rfl, rfl, rfl, rfl⟩

theorem sameTables_execUnpackBits (he : execUnpackBits s = .next t) : SameTables s t := by
  obtain ⟨xs, rest, _, _, h1⟩ | ⟨_, h1⟩ := execUnpackBits_cases s <;>
    obtain rfl := Host.Outcome.next.inj (h1.symm.trans he) <;> exact ⟨rfl, rfl, rfl, rfl, rfl, rfl, rfl⟩

/-- The phases of COMPRESS whose operation writes a table of the encoder (R62, R207). -/
def buildsTables : Phase → Bool
  | .cFreq | .cBuild | .cAssign => true
  | .idle | .cHeader | .cTerm | .cPayload | .cFlush | .dHeader | .dPayload | .pPack | .uUnpack | .done | .error => false

/-- An edge of R207 from a phase that writes no table leads to a phase of which the invariant says the same, or to an end. -/
theorem edge_cases {p : Phase} (hb : buildsTables p = false) : ∀ q ∈ successors p,
    clearIn p = true ∧ clearIn q = true ∨ codedIn p = true ∧ codedIn q = true ∨ q = .done ∨ q = .error := by
  revert hb
  cases p <;> decide

theorem encInv_of_edge (hT : SameTables s t) (hp : t.phase ∈ successors s.phase) (hb : buildsTables s.phase = false)
    (hE : s.EncInv) : t.EncInv := by
  obtain ⟨h1, h2⟩ | ⟨h1, h2⟩ | hend := edge_cases hb t.phase hp
  · exact (encInv_iff_clear h2).mpr (hT.clear ((encInv_iff_clear h1).mp hE))
  · obtain ⟨hn, hC⟩ := (encInv_iff_coded h1).mp hE
    exact (encInv_iff_coded h2).mpr ⟨by rw [hT.nsym, hT.freq]; exact hn, hT.codeLaws hC⟩
  · exact encInv_of_ended hend

end

/-! ### The step -/

theorem encInv_block {s t : State} {l : List HostAct} {i : Instr} (hE : s.EncInv) (hi : selected s = some i)
    (he : exec i { s with inbox := l } = .next t) : t.EncInv := by
  have hE' : State.EncInv { s with inbox := l } := hE.of_sameTables ⟨rfl, rfl, rfl, rfl, rfl, rfl, rfl⟩ rfl
  have hedge : SameTables { s with inbox := l } t → buildsTables s.phase = false → t.EncInv := fun hT hb =>
    encInv_of_edge hT (block_phase hi he) hb hE'
  cases selected_cases hi with
  | freqScan hp => exact encInv_execFreqScan hE' hp he
  | treeSeed hp h0 => exact encInv_execTreeSeed hE' hp h0 he
  | treeMerge hp h0 => exact encInv_execTreeMerge hE' hp h0 he
  | codeAssign hp => exact encInv_execCodeAssign hE' hp he
  | serHeader hp => exact hedge (sameTables_execSerHeader he) (congrArg buildsTables hp)
  | serTerm hp => exact hedge (sameTables_execSerTerm he) (congrArg buildsTables hp)
  | serPayload hp => exact hedge (sameTables_execSerPayload he) (congrArg buildsTables hp)
  | serFlush hp => exact hedge (sameTables_execSerFlush he) (congrArg buildsTables hp)
  | desHeader hp => exact hedge (sameTables_execDesHeader he) (congrArg buildsTables hp)
  | desPayload hp => exact hedge (sameTables_execDesPayload he) (congrArg buildsTables hp)
  | packBits hp => exact hedge (sameTables_execPackBits he) (congrArg buildsTables hp)
  | unpackBits hp => exact hedge (sameTables_execUnpackBits he) (congrArg buildsTables hp)

theorem ResetValues.tablesClear {s : State} (h : ResetValues s) : TablesClear s :=
  ⟨h.freq, h.nsym, h.nnodes, h.inq, h.valid⟩

theorem tablesClear_of_start (op : BitVec 3) (p : Phase) (s : State) : TablesClear { initRun (latchOp op s) with phase := p } where
  freq := lookSym_replicate 0
  nsym := rfl
  nnodes := rfl
  inq _ := Vector.getElem_replicate _
  valid c := by simp

theorem clearIn_firstPhase {op : BitVec 3} {p : Phase} (h : firstPhase op = some p) : clearIn p = true := by
  obtain rfl | rfl | rfl | rfl := firstPhase_cases h <;> rfl

theorem encInv_command {s t : State} {b : Byte} (hE : s.EncInv) (he : exec (decodeCmd b) s = .next t) : t.EncInv := by
  obtain rfl | ⟨_, rfl⟩ | ⟨e, _, rfl⟩ | ⟨p, _, _, hp, _, rfl⟩ := command_next he
  · exact hE
  · exact hE.of_sameTables ⟨rfl, rfl, rfl, rfl, rfl, rfl, rfl⟩ rfl
  · exact encInv_of_ended (.inr rfl)
  · exact (encInv_iff_clear (clearIn_firstPhase hp)).mpr (tablesClear_of_start _ p s)

/-- Settles O24, by the four things a step can be. -/
theorem encoderInvariantIsKept : Obligations.EncoderInvariantIsKept := by
  intro s t hE hstep
  cases step_next hstep with
  | reset l _ =>
    exact (encInv_iff_clear rfl).mpr (resetValues_resetBlock _).tablesClear
  | command b rest _ _ _ he =>
    exact encInv_command (s := { s with inbox := rest }) (hE.of_sameTables ⟨rfl, rfl, rfl, rfl, rfl, rfl, rfl⟩ rfl) he
  | host _ ho =>
    obtain ⟨_, _, _, _, _, rfl⟩ := ho.block
    exact hE.of_sameTables ⟨rfl, rfl, rfl, rfl, rfl, rfl, rfl⟩ rfl
  | block l i _ _ hi he => exact encInv_block hE hi he

end Sys2Proof.Machine

/-! Two runs of one command from different pasts: the simulation that ties them, step for step (R43, R251, R252). -/

namespace Sys2Proof.Machine

/-- Two code table entries that no operation can tell apart: `len` and `bits` are read only where `valid` is 1 (R32, R164, R168). -/
structure CodeSame (e f : CodeEntry) : Prop where
  valid : e.valid = f.valid
  entry : e.valid = true → e = f

theorem CodeSame.refl (e : CodeEntry) : CodeSame e e := ⟨rfl, fun _ => rfl⟩

/-- Two states of the same run, which began with the access records `p` and `q`: equal in every register the run can still read, and
with the same accesses since. What they may differ in is what the run has not written: arena entries at `NNODES` and above, `ROOT`
before `C_ASSIGN`, the `len` and `bits` of invalid codes, `DTAB` at `DN` and above, the entry registers, `CMD` (R252). -/
structure SameRun (p q : List Access) (a b : State) : Prop where
  lenArg  : a.lenArg = b.lenArg
  status  : a.status = b.status
  errcode : a.errcode = b.errcode
  phase   : a.phase = b.phase
  freq    : a.freq = b.freq
  nsym    : a.nsym = b.nsym
  inq     : a.inq = b.inq
  nnodes  : a.nnodes = b.nnodes
  node    : ∀ i : ArenaIx, i.val < a.nnodes → NodeSame a.node[i] b.node[i]
  root    : a.phase = .cAssign → a.root = b.root
  code    : ∀ c, CodeSame (lookSym a.code c) (lookSym b.code c)
  acc     : a.acc = b.acc
  dn      : a.dn = b.dn
  entries : usedEntries a = usedEntries b
  cand    : a.cand = b.cand
  src     : a.src = b.src
  snk     : a.snk = b.snk
  free    : a.rst = false ∧ b.rst = false
  inbox   : a.inbox = [] ∧ b.inbox = []
  trace   : ∃ d, a.trace = d ++ p ∧ b.trace = d ++ q

/-- Where the first answer is a next state, so is the second, and the two are of the same run. -/
def SameAnswer (p q : List Access) (x y : Answer) : Prop :=
  ∀ a, x = .next a → ∃ b, y = .next b ∧ SameRun p q a b

theorem sameAnswer_next {p q : List Access} {a b : State} (h : SameRun p q a b) : SameAnswer p q (.next a) (.next b) := by
  rintro _ ⟨⟩
  exact ⟨b, rfl, h⟩

theorem sameAnswer_refused {p q : List Access} (r : Refusal) (y : Answer) : SameAnswer p q (.refused r) y := by
  intro a h; simp only [reduceCtorEq] at h

theorem sameAnswer_fault {p q : List Access} (f : Fault) (y : Answer) : SameAnswer p q (.fault f) y := by
  intro a h; simp only [reduceCtorEq] at h

section

variable {p q : List Access} {a b : State}

namespace SameRun

/-! ### The parts the operations are made of -/

theorem unread_eq (h : SameRun p q a b) : unread a = unread b := by rw [unread, unread, h.src]

theorem srcLeft_eq (h : SameRun p q a b) : srcLeft a = srcLeft b := by rw [srcLeft, srcLeft, h.src]

/-- One access more, the same in both. -/
theorem access (h : SameRun p q a b) (x : Access) : ∃ d, x :: a.trace = d ++ p ∧ x :: b.trace = d ++ q := by
  obtain ⟨d, hp, hq⟩ := h.trace
  exact ⟨x :: d, by rw [hp]; rfl, by rw [hq]; rfl⟩

/-- A read gives the same byte, or EOS, in both. -/
theorem srcRead (h : SameRun p q a b) :
    ∃ r a1 b1, srcRead a = (r, a1) ∧ srcRead b = (r, b1) ∧ SameRun p q a1 b1 := by
  unfold Machine.srcRead
  rw [← h.src]
  cases a.src.data[a.src.pos]? with
  | none => exact ⟨_, _, _, rfl, rfl, { h with src := rfl, trace := h.access _ }⟩
  | some c =>
    exact ⟨_, _, _, rfl, rfl, { h with src := rfl, trace := h.access _ }⟩

theorem atEos (h : SameRun p q a b) : SameRun p q (atEos a) (atEos b) := { h with trace := h.access _ }

theorem afterReads (h : SameRun p q a b) (xs : List Byte) : SameRun p q (afterReads xs a) (afterReads xs b) :=
  { h with
    src := congrArg (fun x => { x with pos := x.pos + xs.length }) h.src
    trace := by
      obtain ⟨d, hp, hq⟩ := h.trace
      exact ⟨(xs.map Access.read).reverse ++ d, by rw [List.append_assoc, ← hp]; rfl, by rw [List.append_assoc, ← hq]; rfl⟩ }

theorem srcRewind (h : SameRun p q a b) : SameRun p q (srcRewind a) (srcRewind b) :=
  { h with src := congrArg (fun x => { x with pos := 0 }) h.src, trace := h.access _ }

theorem sinkWrite (h : SameRun p q a b) (x : Byte) : SameRun p q (sinkWrite x a) (sinkWrite x b) :=
  { h with snk := congrArg (fun k : Sink => (⟨k.data ++ [x]⟩ : Sink)) h.snk, trace := h.access _ }

theorem sinkWrites (bs : List Byte) : ∀ {a b}, SameRun p q a b → SameRun p q (sinkWrites bs a) (sinkWrites bs b) := by
  induction bs with
  | nil => exact fun h => h
  | cons x bs ih => exact fun h => ih (h.sinkWrite x)

theorem raise (h : SameRun p q a b) (e : Err) : SameRun p q (raise e a) (raise e b) :=
  { h with status := rfl, errcode := rfl, phase := rfl, root := nofun }

theorem finish (h : SameRun p q a b) : SameRun p q (finish a) (finish b) :=
  { h with status := rfl, phase := rfl, root := nofun }

theorem toPhase (h : SameRun p q a b) {ph : Phase} (hne : ph ≠ .cAssign) :
    SameRun p q { a with phase := ph } { b with phase := ph } :=
  { h with phase := rfl, root := fun e => absurd e hne }

theorem withAcc (h : SameRun p q a b) (acc : BitString) : SameRun p q { a with acc := acc } { b with acc := acc } :=
  { h with acc := rfl }

theorem withCand (h : SameRun p q a b) (cand : BitString) : SameRun p q { a with cand := cand } { b with cand := cand } :=
  { h with cand := rfl }

theorem withEntry (h : SameRun p q a b) (c l c' l' : Byte) (n n' : Nat) (x y : Vector Byte Config.EBUF_CAP) :
    SameRun p q { a with eSym := c, eLen := l, eNb := n, eBuf := x } { b with eSym := c', eLen := l', eNb := n', eBuf := y } :=
  { h with }

/-! ### Frequency Analyzer -/

theorem countLoop (n : Nat) : ∀ {a b}, SameRun p q a b → SameRun p q (countLoop n a) (countLoop n b) := by
  induction n with
  | zero =>
    intro a b h
    obtain ⟨r, a1, b1, ha, hb, h1⟩ := h.srcRead
    simpa only [Machine.countLoop, ha, hb] using h1
  | succ n ih =>
    intro a b h
    obtain ⟨r, a1, b1, ha, hb, h1⟩ := h.srcRead
    simp only [Machine.countLoop, ha, hb]
    cases r with
    | none => exact h1
    | some c => exact ih { h1 with freq := congrArg (fun f => putSym f c (lookSym f c + 1)) h1.freq }

theorem execFreqScan (h : SameRun p q a b) : SameAnswer p q (execFreqScan a) (execFreqScan b) := by
  have h1 := h.countLoop (srcLeft a)
  unfold Machine.execFreqScan
  rw [← h.srcLeft_eq]
  split
  · exact sameAnswer_refused _ _
  · refine sameAnswer_next { h1 with
      nsym := congrArg countSymbols h1.freq
      phase := congrArg (fun f => if countSymbols f = 0 then Phase.cHeader else .cBuild) h1.freq
      root := ?_ }
    dsimp only
    split <;> nofun

/-! ### Packer and unpacker -/

theorem readChars (n : Nat) : ∀ {a b}, SameRun p q a b →
    ∃ r a1 b1, readChars n a = (r, a1) ∧ readChars n b = (r, b1) ∧ SameRun p q a1 b1 := by
  induction n with
  | zero =>
    intro a b h
    obtain ⟨r, a1, b1, ha, hb, h1⟩ := h.srcRead
    exact ⟨true, a1, b1, by simp only [Machine.readChars, ha], by simp only [Machine.readChars, hb], h1⟩
  | succ n ih =>
    intro a b h
    obtain ⟨r, a1, b1, ha, hb, h1⟩ := h.srcRead
    simp only [Machine.readChars, ha, hb]
    cases r with
    | none => exact ⟨_, _, _, rfl, rfl, h1⟩
    | some c =>
      dsimp only
      cases charBit c with
      | none => exact ⟨_, _, _, rfl, rfl, h1⟩
      | some x => exact ih { h1 with acc := congrArg (· ++ [x]) h1.acc }

theorem execPackBits (h : SameRun p q a b) : SameAnswer p q (execPackBits a) (execPackBits b) := by
  obtain ⟨r, a1, b1, ha, hb, h1⟩ := (h.withAcc []).readChars (srcLeft a)
  simp only [Machine.execPackBits, ← h.srcLeft_eq, ha, hb]
  cases r with
  | false => exact sameAnswer_next (h1.raise _)
  | true =>
    dsimp only
    rw [← h1.acc]
    exact sameAnswer_next ((h1.sinkWrites _).withAcc []).finish

theorem srcTake (n : Nat) : ∀ {a b}, SameRun p q a b →
    ∃ r a1 b1, srcTake n a = (r, a1) ∧ srcTake n b = (r, b1) ∧ SameRun p q a1 b1 := by
  induction n with
  | zero => exact fun h => ⟨_, _, _, rfl, rfl, h⟩
  | succ n ih =>
    intro a b h
    obtain ⟨r, a1, b1, ha, hb, h1⟩ := h.srcRead
    simp only [Machine.srcTake, ha, hb]
    cases r with
    | none => exact ⟨_, _, _, rfl, rfl, h1⟩
    | some c =>
      obtain ⟨r, a2, b2, ha, hb, h2⟩ := ih h1
      simp only [ha, hb]
      cases r <;> exact ⟨_, _, _, rfl, rfl, h2⟩

theorem execUnpackBits (h : SameRun p q a b) : SameAnswer p q (execUnpackBits a) (execUnpackBits b) := by
  obtain ⟨r, a1, b1, ha, hb, h1⟩ := h.srcTake (ceil8 a.lenArg.toNat)
  simp only [Machine.execUnpackBits, ← h.lenArg, ha, hb]
  cases r with
  | none => exact sameAnswer_next (h1.raise _)
  | some buf => exact sameAnswer_next (h1.sinkWrites _).finish

/-! ### Serializer -/

theorem headerBytes_eq (h : SameRun p q a b) : headerBytes a.code = headerBytes b.code := by
  unfold headerBytes
  refine List.flatMap_congr fun c _ => ?_
  rw [← (h.code c).valid]
  split
  · next hv => rw [(h.code c).entry hv]
  · rfl

theorem execSerHeader (h : SameRun p q a b) : SameAnswer p q (execSerHeader a) (execSerHeader b) := by
  unfold Machine.execSerHeader
  rw [← h.headerBytes_eq]
  exact sameAnswer_next ((h.sinkWrites _).toPhase (by decide))

theorem execSerTerm (h : SameRun p q a b) : SameAnswer p q (execSerTerm a) (execSerTerm b) :=
  sameAnswer_next (((h.sinkWrite _).srcRewind.toPhase (ph := .cPayload) (by decide)).withAcc [])

theorem emitBytes (n : Nat) : ∀ {a b}, SameRun p q a b → SameRun p q (emitBytes n a) (emitBytes n b) := by
  induction n with
  | zero => exact fun h => h
  | succ n ih =>
    intro a b h
    simp only [Machine.emitBytes, ← h.acc]
    exact ih ((h.sinkWrite _).withAcc _)

theorem execSerPayload (h : SameRun p q a b) : SameAnswer p q (execSerPayload a) (execSerPayload b) := by
  obtain ⟨r, a1, b1, ha, hb, h1⟩ := h.srcRead
  simp only [Machine.execSerPayload, ha, hb]
  cases r with
  | none => exact sameAnswer_next (h1.toPhase (by decide))
  | some c =>
    dsimp only
    rw [← (h1.code c).valid]
    split
    · next hv =>
      rw [← (h1.code c).entry hv, ← h1.acc]
      exact sameAnswer_next ((h1.withAcc _).emitBytes _)
    · exact sameAnswer_next (h1.raise _)

theorem execSerFlush (h : SameRun p q a b) : SameAnswer p q (execSerFlush a) (execSerFlush b) := by
  unfold Machine.execSerFlush
  rw [← h.acc]
  split
  · exact sameAnswer_next h.finish
  · exact sameAnswer_next ((h.sinkWrite _).withAcc []).finish

/-! ### Deserializer -/

theorem matchBit (h : SameRun p q a b) (bit : Bool) : SameRun p q (matchBit a bit) (matchBit b bit) := by
  simp only [Machine.matchBit, ← h.entries, ← h.cand]
  split
  · exact (h.sinkWrite _).withCand []
  · exact h.withCand _

theorem matchByte (h : SameRun p q a b) (c : Byte) : SameRun p q (matchByte c a) (matchByte c b) := by
  rw [matchByte_eq, matchByte_eq]
  generalize byteBits c = bits
  induction bits generalizing a b with
  | nil => exact h
  | cons x bits ih => exact ih (h.matchBit x)

theorem execDesPayload (h : SameRun p q a b) : SameAnswer p q (execDesPayload a) (execDesPayload b) := by
  obtain ⟨r, a1, b1, ha, hb, h1⟩ := h.srcRead
  simp only [Machine.execDesPayload, ha, hb]
  cases r with
  | none => exact sameAnswer_next (h1.withCand []).finish
  | some c => exact sameAnswer_next (h1.matchByte c)

end SameRun

end

end Sys2Proof.Machine

/-! The simulation for the operations that read what two runs may differ in, and for the run as a whole (R252). -/

namespace Sys2Proof.Machine

/-! ### The entry buffer -/

/-- Bytes written to the buffer stand after those before them (R36, R181). -/
theorem take_putBytes {n : Nat} (xs : List Byte) : ∀ (buf : Vector Byte n) (j : Nat), j + xs.length ≤ n →
    (putBytes buf j xs).toList.take (j + xs.length) = buf.toList.take j ++ xs := by
  induction xs with
  | nil => intro buf j _; simp [putBytes]
  | cons x xs ih =>
    intro buf j hj
    rw [List.length_cons] at hj
    have hlt : j < n := by omega
    have h1 := ih (buf.setIfInBounds j x) (j + 1) (by omega)
    rw [putBytes, List.length_cons, ← Nat.add_assoc, Nat.add_right_comm, h1]
    simp [Vector.toList_setIfInBounds, List.take_set, List.take_add_one, hlt, List.set_eq_of_length_le]

section

variable {p q : List Access} {a b : State}

/-! ### The tree -/

theorem least_congr {node node' : Vector Node Config.NODE_CAP} : ∀ {l : List ArenaIx},
    (∀ i ∈ l, node[i].freq = node'[i].freq) → least node l = least node' l := by
  intro l
  induction l with
  | nil => exact fun _ => rfl
  | cons i l ih =>
    intro h
    have hl := ih fun j hj => h j (List.mem_cons_of_mem _ hj)
    simp only [least, ← hl]
    cases hj : least node l with
    | none => rfl
    | some j =>
      have : before node i j = before node' i j := by
        simp only [before, h i List.mem_cons_self, h j (List.mem_cons_of_mem _ (mem_of_least hj))]
      simp only [this]

theorem endBuild_of_singleton {s : State} {r : ArenaIx} (h : queue s = [r]) :
    endBuild s = { s with root := r, phase := .cAssign } := by
  simp only [endBuild, h]

theorem endBuild_of_length {s : State} (h : (queue s).length ≠ 1) : endBuild s = s :=
  (endBuild_cases s).elim (fun ⟨r, hr, _⟩ => absurd (by rw [hr]; rfl) h) And.right

namespace SameRun

theorem queue_eq (h : SameRun p q a b) : queue a = queue b := by simp only [queue, h.nnodes, h.inq]

theorem freq_node (h : SameRun p q a b) {i : ArenaIx} (hi : i ∈ queue a) : a.node[i].freq = b.node[i].freq :=
  (h.node i (lt_nnodes_of_mem_queue hi)).freq

theorem endBuild (h : SameRun p q a b) : SameRun p q (endBuild a) (endBuild b) := by
  obtain ⟨r, hr, he⟩ | ⟨hl, he⟩ := endBuild_cases a <;> rw [he]
  · rw [endBuild_of_singleton (h.queue_eq ▸ hr)]
    exact { h with phase := rfl, root := fun _ => rfl }
  · rw [endBuild_of_length (h.queue_eq ▸ hl)]
    exact h

/-- A node pushed in both, the same where its fields have a meaning. -/
theorem pushed (h : SameRun p q a b) {m n : Node} (hm : NodeSame m n) {Q R : Vector Bool Config.NODE_CAP} (hQ : Q = R)
    (ha : a.nnodes < Config.NODE_CAP) (hb : b.nnodes < Config.NODE_CAP) :
    SameRun p q { a with node := a.node.set a.nnodes m ha, inq := Q, nnodes := a.nnodes + 1 }
      { b with node := b.node.set b.nnodes n hb, inq := R, nnodes := b.nnodes + 1 } :=
  { h with
    inq := hQ
    nnodes := congrArg (· + 1) h.nnodes
    node := fun i hi => by
      simp only [Fin.getElem_fin, Vector.getElem_set, ← h.nnodes]
      split
      · exact hm
      · next hne => exact h.node i (by dsimp only at hi; omega) }

theorem seedLeaves (cs : List Byte) : ∀ {a b}, SameRun p q a b → ∀ a1, seedLeaves cs a = some a1 →
    ∃ b1, seedLeaves cs b = some b1 ∧ SameRun p q a1 b1 := by
  induction cs with
  | nil =>
    intro a b h a1 ha
    obtain rfl : a = a1 := Option.some.inj ha
    exact ⟨b, rfl, h⟩
  | cons c cs ih =>
    intro a b h a1 ha
    by_cases hc : lookSym a.freq c = 0
    · rw [seedLeaves_cons_absent hc] at ha
      rw [seedLeaves_cons_absent (h.freq ▸ hc)]
      exact ih h a1 ha
    · rw [seedLeaves_cons_present hc] at ha
      rw [seedLeaves_cons_present (h.freq ▸ hc), ← h.freq]
      obtain ⟨_, h1⟩ | ⟨hn, h1⟩ := pushNode_cases (leafOf a.freq · c) a <;> rw [h1] at ha
      · cases ha
      · obtain ⟨hf, _⟩ | ⟨hn', h2⟩ := pushNode_cases (leafOf a.freq · c) b
        · exact absurd (h.nnodes ▸ hf) (Nat.not_le.mpr hn)
        · rw [h2]
          have hnew : NodeSame (leafOf a.freq (a.node[a.nnodes]'hn) c) (leafOf a.freq (b.node[b.nnodes]'hn') c) :=
            ⟨rfl, rfl, fun _ => rfl, nofun, nofun⟩
          exact ih (h.pushed hnew (by simp only [h.nnodes, h.inq]) hn hn') a1 ha

theorem execTreeSeed (h : SameRun p q a b) : SameAnswer p q (execTreeSeed a) (execTreeSeed b) := by
  unfold Machine.execTreeSeed
  cases ha : Machine.seedLeaves allSymbols a with
  | none => exact sameAnswer_fault _ _
  | some a1 =>
    obtain ⟨b1, hb, h1⟩ := h.seedLeaves allSymbols a1 ha
    rw [hb]
    exact sameAnswer_next h1.endBuild

theorem dequeue (h : SameRun p q a b) (i : ArenaIx) : SameRun p q (dequeue i a) (dequeue i b) :=
  { h with inq := congrArg (fun Q : Vector Bool Config.NODE_CAP => Q.set i.val false i.isLt) h.inq }

theorem execTreeMerge (h : SameRun p q a b) : SameAnswer p q (execTreeMerge a) (execTreeMerge b) := by
  unfold Machine.execTreeMerge
  rw [← h.queue_eq, ← least_congr fun i hi => h.freq_node hi]
  cases hx : least a.node (queue a) with
  | none => exact sameAnswer_fault _ _
  | some x =>
    have h1 := h.dequeue x
    dsimp only
    rw [← h1.queue_eq, ← least_congr fun i hi => h1.freq_node hi]
    cases hy : least (Machine.dequeue x a).node (queue (Machine.dequeue x a)) with
    | none => exact sameAnswer_next h.endBuild
    | some y =>
      have h2 := h1.dequeue y
      have hxq := mem_of_least hx
      have hyq := ((mem_queue_dequeue a x y).mp (mem_of_least hy)).1
      dsimp only
      obtain ⟨_, e1⟩ | ⟨hn, e1⟩ := pushNode_cases (mergeNode a.node x y) (Machine.dequeue y (Machine.dequeue x a))
      · rw [e1]; exact sameAnswer_fault _ _
      · obtain ⟨hf, _⟩ | ⟨hn', e2⟩ := pushNode_cases (mergeNode b.node x y) (Machine.dequeue y (Machine.dequeue x b))
        · exact absurd (h2.nnodes ▸ hf) (Nat.not_le.mpr hn)
        · rw [e1, e2]
          have hnew : NodeSame (mergeNode a.node x y (a.node[a.nnodes]'hn)) (mergeNode b.node x y (b.node[b.nnodes]'hn')) :=
            ⟨rfl, congrArg₂ (· + ·) (h.freq_node hxq) (h.freq_node hyq), nofun, fun _ => rfl, fun _ => rfl⟩
          exact sameAnswer_next (h2.pushed hnew (by simp only [h2.nnodes, h2.inq]) hn hn').endBuild

/-! ### Code Assigner -/

theorem withCode (h : SameRun p q a b) {C D : Vector CodeEntry Config.NSYMVALS} (hC : ∀ c, CodeSame (lookSym C c) (lookSym D c))
    {ph : Phase} (hph : ph ≠ .cAssign) : SameRun p q { a with code := C, phase := ph } { b with code := D, phase := ph } :=
  { h with code := hC, phase := rfl, root := fun e => absurd e hph }

end SameRun

theorem codeSame_putSym {C D : Vector CodeEntry Config.NSYMVALS} (h : ∀ c, CodeSame (lookSym C c) (lookSym D c)) (x : Byte)
    (e : CodeEntry) (c : Byte) : CodeSame (lookSym (putSym C x e) c) (lookSym (putSym D x e) c) := by
  rw [lookSym_putSym, lookSym_putSym]
  split
  · exact .refl e
  · exact h c

theorem codeSame_assign (path : BitString) (l : List (Byte × BitString)) : ∀ {C D : Vector CodeEntry Config.NSYMVALS},
    (∀ c, CodeSame (lookSym C c) (lookSym D c)) →
    ∀ c, CodeSame (lookSym (assign path l C) c) (lookSym (assign path l D) c) := by
  induction l with
  | nil => exact fun h => h
  | cons x l ih => exact fun h => ih (codeSame_putSym h _ _)

/-- The tree the Code Assigner walks is the same in both, since it lies below `NNODES` (R120, R124). -/
theorem SameRun.treeAt (h : SameRun p q a b) (hF : Forest a) {i : ArenaIx} {l : List (Byte × BitString)} (ht : TreeAt a.node i l)
    (hi : i.val < a.nnodes) : TreeAt b.node i l :=
  ht.of_agree hF.1 h.node hi

theorem SameRun.execCodeAssign (h : SameRun p q a b) (hp : a.phase = .cAssign) (hE : a.EncInv) :
    SameAnswer p q (execCodeAssign a) (execCodeAssign b) := by
  obtain ⟨hc, hF, hq⟩ := (encInv_iff_cAssign hp).mp hE
  obtain ⟨codes, htree, hperm⟩ := forest_root hF hq
  have hlt : a.root.val < a.nnodes := lt_nnodes_of_mem_queue (by rw [hq]; exact List.mem_cons_self)
  have htree' := h.treeAt hF htree hlt
  intro a' ha
  obtain ⟨C, rfl, ⟨h1, rfl⟩ | ⟨h1, hv⟩⟩ := execCodeAssign_next ha
  · have hl : (presentSymbols a.freq).length = 1 := hc.nsym.symm.trans h1
    have hcl : codes.length = 1 := by rw [← List.length_map (f := Prod.fst), hperm.length_eq, hl]
    have hsym := (htree.of_length_one hcl).symm.trans (htree'.of_length_one hcl)
    rw [root_of_one_symbol hF hq hl] at hsym
    have hsym : a.node[(0 : ArenaIx)].sym = b.node[(0 : ArenaIx)].sym := congrArg Prod.fst (List.head_eq_of_cons_eq hsym)
    refine ⟨_, by rw [Machine.execCodeAssign, if_pos (h.nsym ▸ h1)], ?_⟩
    rw [← hsym]
    exact h.withCode (codeSame_putSym h.code _ _) (by decide)
  · obtain ⟨hlen, rfl⟩ := (visit_eq_some_iff htree ..).mp hv
    have hv' := (visit_eq_some_iff htree' 256 [] b.code _).mpr ⟨hlen, rfl⟩
    rw [h.root hp] at hv'
    refine ⟨{ b with code := assign [] codes b.code, phase := .cHeader }, ?_,
      h.withCode (codeSame_assign [] codes h.code) (by decide)⟩
    rw [Machine.execCodeAssign, if_neg (h.nsym ▸ h1), show Config.MAXLEN + 1 = 256 from rfl, hv']

/-! ### The header of the stream -/

/-- An entry inserted, or rejected, in both, once the same entry stands in the entry registers. -/
theorem SameRun.insertEntry (h : SameRun p q a b) (hs : a.eSym = b.eSym) (hl : a.eLen = b.eLen)
    (hk : a.eBuf.toList.take a.eNb = b.eBuf.toList.take b.eNb) : SameRun p q (insertEntry a) (insertEntry b) := by
  unfold Machine.insertEntry
  rw [← hk, ← hl, ← hs, ← h.entries]
  dsimp only
  split
  · exact h.raise _
  · by_cases hd : a.dn < Config.DTAB_CAP
    · have hd' : b.dn < Config.DTAB_CAP := h.dn ▸ hd
      rw [dif_pos hd, dif_pos hd']
      exact { h with
        dn := congrArg (· + 1) h.dn
        entries := (usedEntries_insert hd _).trans ((congrArg (· ++ [_]) h.entries).trans (usedEntries_insert hd' _).symm) }
    · have hd' : ¬ b.dn < Config.DTAB_CAP := h.dn ▸ hd
      rw [dif_neg hd, dif_neg hd']
      exact h.raise _

/-- What DES_HEADER does with the bytes left to read (R181, R184). -/
def headerStep (s : State) : List Byte → State
  | [] => raise .formatTruncated (atEos s)
  | b :: us =>
    if b = Config.TERM then { afterReads [b] s with phase := .dPayload }
    else match us with
      | [] => raise .formatTruncated { atEos (afterReads [b] s) with eSym := b }
      | l :: cs =>
        if cs.length < ceil8 l.toNat then
          raise .formatTruncated { atEos (afterReads (b :: l :: cs) s) with
            eSym := b, eLen := l, eNb := ceil8 l.toNat, eBuf := putBytes s.eBuf 0 cs }
        else insertEntry { afterReads (b :: l :: cs.take (ceil8 l.toNat)) s with
          eSym := b, eLen := l, eNb := ceil8 l.toNat, eBuf := putBytes s.eBuf 0 (cs.take (ceil8 l.toNat)) }

theorem execDesHeader_eq (s : State) : execDesHeader s = .next (headerStep s (unread s)) := by
  obtain ⟨hu, h1⟩ | ⟨rest, hu, h1⟩ | ⟨b, hu, hb, h1⟩ | ⟨b, l, cs, hu, hb, hl, h1⟩ | ⟨b, l, cs, rest, hu, hb, hl, h1⟩ :=
    execDesHeader_cases s <;> rw [h1, hu]
  · rfl
  · rfl
  · rw [headerStep, if_neg hb]
  · rw [headerStep, if_neg hb]
    dsimp only
    rw [if_pos hl]
  · have hn : ¬ (cs ++ rest).length < ceil8 l.toNat := by rw [List.length_append]; omega
    have ht : (cs ++ rest).take (ceil8 l.toNat) = cs := by rw [← hl, List.take_left']; rfl
    rw [List.cons_append, List.cons_append, headerStep, if_neg hb]
    dsimp only
    rw [if_neg hn, ht]

theorem SameRun.headerStep (h : SameRun p q a b) (us : List Byte) : SameRun p q (headerStep a us) (headerStep b us) := by
  cases us with
  | nil => exact h.atEos.raise _
  | cons c us =>
    simp only [Machine.headerStep]
    by_cases hc : c = Config.TERM
    · rw [if_pos hc, if_pos hc]
      exact (h.afterReads _).toPhase (by decide)
    · rw [if_neg hc, if_neg hc]
      cases us with
      | nil => exact { (h.afterReads [c]).atEos.raise .formatTruncated with }
      | cons l cs =>
        dsimp only
        by_cases hl : cs.length < ceil8 l.toNat
        · rw [if_pos hl, if_pos hl]
          exact { (h.afterReads (c :: l :: cs)).atEos.raise .formatTruncated with }
        · rw [if_neg hl, if_neg hl]
          have hlen : (cs.take (ceil8 l.toNat)).length = ceil8 l.toNat := List.length_take_of_le (Nat.not_lt.mp hl)
          have htake : ∀ buf : Vector Byte Config.EBUF_CAP,
              (putBytes buf 0 (cs.take (ceil8 l.toNat))).toList.take (ceil8 l.toNat) = cs.take (ceil8 l.toNat) := fun buf => by
            have := take_putBytes (cs.take (ceil8 l.toNat)) buf 0 (by rw [hlen, Nat.zero_add]; exact ceil8_le_32 l)
            rwa [hlen, Nat.zero_add] at this
          exact ((h.afterReads (c :: l :: cs.take (ceil8 l.toNat))).withEntry ..).insertEntry rfl rfl
            ((htake a.eBuf).trans (htake b.eBuf).symm)

theorem SameRun.execDesHeader (h : SameRun p q a b) : SameAnswer p q (execDesHeader a) (execDesHeader b) := by
  rw [execDesHeader_eq, execDesHeader_eq, ← h.unread_eq]
  exact sameAnswer_next (h.headerStep _)

/-! ### The step and the run -/

theorem SameRun.step (h : SameRun p q a b) (hE : a.EncInv) : SameAnswer p q (step a) (step b) := by
  rw [step_of_inbox_nil h.inbox.1, step_of_inbox_nil h.inbox.2]
  have hsel : selected b = selected a := by simp only [selected, h.phase, h.nnodes]
  cases hi : selected a with
  | none =>
    rw [advance_of_none h.free.1 hi, advance_of_none h.free.2 (hsel.trans hi)]
    exact sameAnswer_next h
  | some i =>
    rw [advance_of_free h.free.1 hi, advance_of_free h.free.2 (hsel.trans hi)]
    cases selected_cases hi with
    | freqScan => exact h.execFreqScan
    | treeSeed => exact h.execTreeSeed
    | treeMerge => exact h.execTreeMerge
    | codeAssign hp => exact h.execCodeAssign hp hE
    | serHeader => exact h.execSerHeader
    | serTerm => exact h.execSerTerm
    | serPayload => exact h.execSerPayload
    | serFlush => exact h.execSerFlush
    | desHeader => exact h.execDesHeader
    | desPayload => exact h.execDesPayload
    | packBits => exact h.execPackBits
    | unpackBits => exact h.execUnpackBits

theorem SameRun.runSteps (k : Nat) : ∀ {a b}, SameRun p q a b → a.EncInv → SameAnswer p q (runSteps k a) (runSteps k b) := by
  induction k with
  | zero => exact fun h _ => sameAnswer_next h
  | succ k ih =>
    intro a b h hE
    unfold Machine.runSteps
    cases ha : Machine.step a with
    | fault f => exact sameAnswer_fault _ _
    | refused r => exact sameAnswer_refused _ _
    | next a1 =>
      obtain ⟨b1, hb, h1⟩ := h.step hE a1 ha
      rw [hb]
      exact ih h1 (encoderInvariantIsKept a a1 hE ha)

end

/-! ### START -/

section

variable {s1 s2 : State} (hr1 : s1.rst = false) (hr2 : s2.rst = false) (hi1 : s1.inbox = []) (hi2 : s2.inbox = [])
  (hsrc : s1.src = s2.src) (hsnk : s1.snk = s2.snk) (hlen : s1.lenArg = s2.lenArg)
include hr1 hr2 hi1 hi2 hsrc hsnk hlen

/-- The initialisation leaves nothing of two different pasts that a run can read (R43). -/
theorem sameRun_initRun (op : BitVec 3) {ph : Phase} (hph : ph ≠ .cAssign) :
    SameRun s1.trace s2.trace { initRun (latchOp op s1) with phase := ph } { initRun (latchOp op s2) with phase := ph } where
  lenArg := hlen
  status := rfl
  errcode := rfl
  phase := rfl
  freq := rfl
  nsym := rfl
  inq := rfl
  nnodes := rfl
  node i hi := absurd hi (Nat.not_lt_zero _)
  root e := absurd e hph
  code c := by
    have hv : ∀ s : State, (lookSym (initRun s).code c).valid = false := fun s => by simp
    exact ⟨(hv _).trans (hv _).symm, fun h => absurd ((hv _).symm.trans h) Bool.false_ne_true⟩
  acc := rfl
  dn := rfl
  entries := (usedEntries_of_dn_zero rfl).trans (usedEntries_of_dn_zero rfl).symm
  cand := rfl
  src := hsrc
  snk := hsnk
  free := ⟨hr1, hr2⟩
  inbox := ⟨hi1, hi2⟩
  trace := ⟨[], rfl, rfl⟩

/-- Two idle states with the same streams and `LEN_ARG` begin the same run with the same START (R201, R209). -/
theorem sameRun_start (op : BitVec 3) : SameRun s1.trace s2.trace (start op s1) (start op s2) := by
  have hinit {ph : Phase} (hph : ph ≠ .cAssign) := sameRun_initRun hr1 hr2 hi1 hi2 hsrc hsnk hlen op hph
  have hfail : ∀ e, SameRun s1.trace s2.trace (raise e (initRun (latchOp op s1))) (raise e (initRun (latchOp op s2))) := fun e =>
    { (hinit (ph := .idle) (by decide)).raise e with }
  simp only [start]
  cases hop : firstPhase op with
  | none => exact hfail _
  | some ph =>
    have havail : (initRun (latchOp op s1)).src.avail = (initRun (latchOp op s2)).src.avail := congrArg Source.avail hsrc
    dsimp only
    rw [← havail]
    by_cases ha : (initRun (latchOp op s1)).src.avail = true
    · rw [if_pos ha, if_pos ha]
      exact hinit (by obtain rfl | rfl | rfl | rfl := firstPhase_cases hop <;> decide)
    · rw [if_neg ha, if_neg ha]
      exact hfail _

end

theorem encInv_start (op : BitVec 3) (s : State) : (start op s).EncInv := by
  simp only [start]
  split
  · exact encInv_of_ended (.inr rfl)
  · next ph hph =>
    split
    · exact (encInv_iff_clear (clearIn_firstPhase hph)).mpr (tablesClear_of_start op ph s)
    · exact encInv_of_ended (.inr rfl)

/-- A START while idle, as the very next step (R201). -/
theorem step_commanded {s : State} {cmd : Byte} (hr : s.rst = false) (hb : s.status.busy = false) (hs : startField cmd = true) :
    step (commanded s cmd) = .next (start (opField cmd) { s with inbox := [] }) := by
  rw [step_of_inbox_cons (s := commanded s cmd) rfl]
  have hact : hostAct (.writeCmd cmd) { s with inbox := [] } = exec (decodeCmd cmd) { s with inbox := [] } := by
    simp only [hostAct, hr, Bool.false_eq_true, if_false]
  refine hact.trans ((exec_decodeCmd _ _).trans ?_)
  rw [if_pos hs, writeStart, if_neg (by simp [hb])]

theorem runSteps_of_next {s t : State} (k : Nat) (h : step s = .next t) : runSteps (k + 1) s = runSteps k t := by
  simp only [runSteps, h]

/-- Settles O49: START makes the two states those of one run, and every step keeps them so. -/
theorem runsDoNotDependOnEarlierRuns : Obligations.RunsDoNotDependOnEarlierRuns := by
  intro s1 s2 cmd k t1 hr1 hr2 hb1 hb2 hsrc hsnk hlen hs hrun
  rw [runSteps_of_next k (step_commanded hr1 hb1 hs)] at hrun
  rw [runSteps_of_next k (step_commanded hr2 hb2 hs)]
  have hstart := sameRun_start (s1 := { s1 with inbox := [] }) (s2 := { s2 with inbox := [] }) hr1 hr2 rfl rfl hsrc hsnk hlen
    (opField cmd)
  obtain ⟨t2, hrun2, h⟩ := hstart.runSteps k (encInv_start _ _) t1 hrun
  obtain ⟨d, hd1, hd2⟩ := h.trace
  exact ⟨t2, d, hrun2, ⟨h.status, h.errcode, h.snk, h.src⟩, h.phase, hd1, hd2⟩

end Sys2Proof.Machine

/-! What an operation of the block does to the two streams and to the record of accesses (R19, R50, R51, R53, R54, R56). -/

namespace Sys2Proof.Machine

/-! ### Access lists -/

@[simp] theorem readsOf_nil : readsOf [] = [] := rfl
@[simp] theorem writesOf_nil : writesOf [] = [] := rfl

theorem readsOf_append (x y : List Access) : readsOf (x ++ y) = readsOf y ++ readsOf x := by simp [readsOf]
theorem writesOf_append (x y : List Access) : writesOf (x ++ y) = writesOf y ++ writesOf x := by simp [writesOf]

@[simp] theorem readsOf_reads (xs : List Byte) : readsOf (xs.map Access.read).reverse = xs := by
  simp [readsOf, List.filterMap_map]
@[simp] theorem writesOf_reads (xs : List Byte) : writesOf (xs.map Access.read).reverse = [] := by
  simp [writesOf, List.filterMap_map]
@[simp] theorem readsOf_writes (xs : List Byte) : readsOf (xs.map Access.write).reverse = [] := by
  simp [readsOf, List.filterMap_map]
@[simp] theorem writesOf_writes (xs : List Byte) : writesOf (xs.map Access.write).reverse = xs := by
  simp [writesOf, List.filterMap_map]

/-! ### What an operation owns of the streams -/

/-- What the block's own operations never write: the host's registers, the source's content and availability, the reset input, the
acts still to come (R22, R23, R38, R250). -/
structure HostSide (s t : State) : Prop where
  cmd    : t.cmd = s.cmd
  lenArg : t.lenArg = s.lenArg
  rst    : t.rst = s.rst
  inbox  : t.inbox = s.inbox
  data   : t.src.data = s.src.data
  avail  : t.src.avail = s.src.avail

/-- From `s` to `t` exactly the accesses `d`, newest first, were made, none of them a rewind: the sink has grown by what they wrote
and the cursor is past what they read (R53, R56). -/
structure Streamed (d : List Access) (s t : State) : Prop extends HostSide s t where
  trace  : t.trace = d ++ s.trace
  sink   : t.snk.data = s.snk.data ++ writesOf d
  cursor : unread s = readsOf d ++ unread t

theorem Streamed.refl (s : State) : Streamed [] s s :=
  ⟨⟨rfl, rfl, rfl, rfl, rfl, rfl⟩, rfl, (List.append_nil _).symm, rfl⟩

theorem Streamed.trans {d e : List Access} {s t u : State} (h : Streamed d s t) (h' : Streamed e t u) : Streamed (e ++ d) s u where
  cmd := h'.cmd.trans h.cmd
  lenArg := h'.lenArg.trans h.lenArg
  rst := h'.rst.trans h.rst
  inbox := h'.inbox.trans h.inbox
  data := h'.data.trans h.data
  avail := h'.avail.trans h.avail
  trace := by rw [h'.trace, h.trace, List.append_assoc]
  sink := by rw [h'.sink, h.sink, writesOf_append, List.append_assoc]
  cursor := by rw [h.cursor, h'.cursor, readsOf_append, List.append_assoc]

theorem streamed_afterReads {s : State} {xs rest : List Byte} (h : unread s = xs ++ rest) :
    Streamed (xs.map Access.read).reverse s (afterReads xs s) where
  toHostSide := ⟨rfl, rfl, rfl, rfl, rfl, rfl⟩
  trace := rfl
  sink := by rw [writesOf_reads, List.append_nil]; rfl
  cursor := by rw [readsOf_reads, unread_afterReads h, h]

theorem streamed_atEos (s : State) : Streamed [.eos] s (atEos s) :=
  ⟨⟨rfl, rfl, rfl, rfl, rfl, rfl⟩, rfl, (List.append_nil _).symm, rfl⟩

/-- Everything left is read, up to EOS (R53). -/
theorem streamed_toEos (s : State) :
    Streamed ([.eos] ++ ((unread s).map Access.read).reverse) s (atEos (afterReads (unread s) s)) :=
  (streamed_afterReads (rest := []) (List.append_nil _).symm).trans (streamed_atEos _)

theorem streamed_afterWrites (bs : List Byte) (s : State) : Streamed (bs.map Access.write).reverse s (afterWrites bs s) where
  toHostSide := ⟨rfl, rfl, rfl, rfl, rfl, rfl⟩
  trace := rfl
  sink := by rw [writesOf_writes]; rfl
  cursor := by rw [readsOf_writes]; rfl

/-- The entry registers are none of the streams (R36). -/
theorem Streamed.withEntry {d : List Access} {s t : State} (h : Streamed d s t) (b l : Byte) (n : Nat)
    (buf : Vector Byte Config.EBUF_CAP) : Streamed d s { t with eSym := b, eLen := l, eNb := n, eBuf := buf } := { h with }

theorem streamed_insertEntry (s : State) : Streamed [] s (insertEntry s) := by
  obtain ⟨_, h⟩ | ⟨_, _, h⟩ | ⟨_, _, h⟩ := insertEntry_cases s <;> rw [h] <;> exact { Streamed.refl s with }

theorem streamed_endBuild (s : State) : Streamed [] s (endBuild s) := by
  obtain ⟨_, _, h⟩ | ⟨_, h⟩ := endBuild_cases s <;> rw [h] <;> exact { Streamed.refl s with }

/-- From `s` to `t` exactly the accesses `d`, newest first, were made: the sink has grown by what they wrote, and the cursor is past
what they read or, after a rewind, at the start (R53, R54, R56). -/
structure Accessed (d : List Access) (s t : State) : Prop extends HostSide s t where
  trace  : t.trace = d ++ s.trace
  sink   : t.snk.data = s.snk.data ++ writesOf d
  cursor : t.src.pos = 0 ∧ .rewind ∈ d ∨ unread s = readsOf d ++ unread t

theorem Streamed.accessed {d : List Access} {s t : State} (h : Streamed d s t) : ∃ d, Accessed d s t :=
  ⟨d, { h with cursor := .inr h.cursor }⟩

theorem accessed_execSerTerm (s : State) :
    Accessed [.rewind, .write Config.TERM] s { srcRewind (sinkWrite Config.TERM s) with phase := .cPayload, acc := [] } where
  toHostSide := ⟨rfl, rfl, rfl, rfl, rfl, rfl⟩
  trace := rfl
  sink := rfl
  cursor := .inl ⟨rfl, List.mem_cons_self⟩

/-- The accesses of the operation `PHASE` selects are recorded as they are made. -/
theorem accessed_block {s t : State} {i : Instr} (hi : selected s = some i) (he : exec i s = .next t) : ∃ d, Accessed d s t := by
  cases selected_cases hi with
  | freqScan =>
    obtain ⟨_, F, _, rfl⟩ := execFreqScan_next he
    exact Streamed.accessed { streamed_toEos s with }
  | treeSeed =>
    obtain ⟨s1, N, Q, n, _, rfl, _, _, rfl⟩ := execTreeSeed_next he
    exact Streamed.accessed { streamed_endBuild { s with node := N, inq := Q, nnodes := n } with }
  | treeMerge =>
    obtain ⟨a, _, _, rfl⟩ | ⟨a, b, hn, _, _, rfl⟩ := execTreeMerge_next he
    · exact (streamed_endBuild s).accessed
    · exact Streamed.accessed { streamed_endBuild (merged a b s hn) with }
  | codeAssign =>
    obtain ⟨C, rfl, _⟩ := execCodeAssign_next he
    exact Streamed.accessed { Streamed.refl s with }
  | serHeader =>
    obtain rfl := Host.Outcome.next.inj ((execSerHeader_eq s).symm.trans he)
    exact Streamed.accessed { streamed_afterWrites (headerBytes s.code) s with }
  | serTerm =>
    obtain rfl := Host.Outcome.next.inj he
    exact ⟨_, accessed_execSerTerm s⟩
  | serPayload =>
    obtain ⟨_, h1⟩ | ⟨b, rest, hu, _, h1⟩ | ⟨b, rest, hu, _, h1⟩ := execSerPayload_cases s <;>
      obtain rfl := Host.Outcome.next.inj (h1.symm.trans he)
    · exact Streamed.accessed { streamed_atEos s with }
    · exact Streamed.accessed { streamed_afterReads (xs := [b]) hu with }
    · exact Streamed.accessed { (streamed_afterReads (xs := [b]) hu).trans (streamed_afterWrites _ _) with }
  | serFlush =>
    obtain rfl := Host.Outcome.next.inj ((execSerFlush_eq s).symm.trans he)
    exact Streamed.accessed { streamed_afterWrites _ s with }
  | desHeader =>
    obtain ⟨_, h1⟩ | ⟨rest, hu, h1⟩ | ⟨b, hu, _, h1⟩ | ⟨b, l, cs, hu, _, _, h1⟩ | ⟨b, l, cs, rest, hu, _, _, h1⟩ :=
      execDesHeader_cases s <;> obtain rfl := Host.Outcome.next.inj (h1.symm.trans he)
    · exact Streamed.accessed { streamed_atEos s with }
    · exact Streamed.accessed { streamed_afterReads (xs := [Config.TERM]) hu with }
    · exact Streamed.accessed { hu ▸ streamed_toEos s with }
    · exact Streamed.accessed { hu ▸ streamed_toEos s with }
    · exact (((streamed_afterReads hu).withEntry b l _ _).trans (streamed_insertEntry _)).accessed
  | desPayload =>
    obtain ⟨_, h1⟩ | ⟨b, rest, hu, h1⟩ := execDesPayload_cases s <;> obtain rfl := Host.Outcome.next.inj (h1.symm.trans he)
    · exact Streamed.accessed { streamed_atEos s with }
    · obtain ⟨syms, cand, _, hm⟩ := matchByte_frame b (afterReads [b] s)
      rw [hm]
      exact Streamed.accessed { (streamed_afterReads (xs := [b]) hu).trans (streamed_afterWrites syms _) with }
  | packBits =>
    obtain ⟨bits, _, h1⟩ | ⟨bits, c, rest, _, hu, h1⟩ := execPackBits_cases s <;>
      obtain rfl := Host.Outcome.next.inj (h1.symm.trans he)
    · exact Streamed.accessed { (streamed_toEos s).trans (streamed_afterWrites (pack bits) _) with }
    · exact Streamed.accessed
        { streamed_afterReads (s := s) (xs := bits.map bitChar ++ [c]) (rest := rest) (by simpa using hu) with }
  | unpackBits =>
    obtain ⟨xs, rest, hu, _, h1⟩ | ⟨_, h1⟩ := execUnpackBits_cases s <;>
      obtain rfl := Host.Outcome.next.inj (h1.symm.trans he)
    · exact Streamed.accessed { (streamed_afterReads hu).trans (streamed_afterWrites _ _) with }
    · exact Streamed.accessed { streamed_toEos s with }

/-- A step with no act of the host and `rst` released is the block's own. -/
theorem accessed_step {s t : State} (hin : s.inbox = []) (hr : s.rst = false) (h : step s = .next t) : ∃ d, Accessed d s t := by
  rw [step_of_inbox_nil hin] at h
  cases hi : selected s with
  | none =>
    obtain rfl := Host.Outcome.next.inj ((advance_of_none hr hi).symm.trans h)
    exact (Streamed.refl s).accessed
  | some i => exact accessed_block hi ((advance_of_free hr hi).symm.trans h)

/-- Settles O44, by the accesses of the operation `PHASE` selects. -/
theorem blockOnlyReadsTheSourceAndAppendsToTheSink : Obligations.BlockOnlyReadsTheSourceAndAppendsToTheSink := by
  intro s t hin hr h
  obtain ⟨d, hd⟩ := accessed_step hin hr h
  exact ⟨hd.cmd, hd.lenArg, hd.inbox.trans hin, hd.data, hd.avail, d, hd.trace, hd.sink, hd.cursor⟩

end Sys2Proof.Machine

/-! COMPRESS reaches its header: no operation that builds the code table stops, and together they end (R113, R125, R128, R129). -/

namespace Sys2Proof.Machine

/-! ### The operations answer a next state -/

/-- Seeding stops only where the arena has no room for the counted symbols (R122, R128). -/
theorem exists_seedLeaves (cs : List Byte) : ∀ s : State,
    s.nnodes + (cs.filter (fun c => decide (lookSym s.freq c ≠ 0))).length ≤ Config.NODE_CAP → ∃ t, seedLeaves cs s = some t := by
  induction cs with
  | nil => exact fun s _ => ⟨s, rfl⟩
  | cons c cs ih =>
    intro s hl
    by_cases h0 : lookSym s.freq c = 0
    · rw [seedLeaves_cons_absent h0]
      exact ih s (by simpa [h0] using hl)
    · rw [List.filter_cons_of_pos (by simpa using h0), List.length_cons] at hl
      rw [seedLeaves_cons_present h0]
      obtain ⟨hn, _⟩ | ⟨hn, h1⟩ := pushNode_cases (leafOf s.freq · c) s
      · exact absurd hl (by simp only [Config.NODE_CAP]; omega)
      · rw [h1]
        exact ih _ (by dsimp only; omega)

theorem exists_execTreeSeed {s : State} (h0 : s.nnodes = 0) : ∃ t, execTreeSeed s = .next t := by
  have hk : (presentSymbols s.freq).length ≤ Config.NODE_CAP := (presentSymbols_length_le _).trans (by decide)
  obtain ⟨t, ht⟩ := exists_seedLeaves allSymbols s (by rw [h0, Nat.zero_add]; exact hk)
  exact ⟨endBuild t, by simp only [execTreeSeed, ht]⟩

theorem exists_least (node : Vector Node Config.NODE_CAP) {q : List ArenaIx} (h : q ≠ []) : ∃ a, least node q = some a := by
  cases q with
  | nil => exact absurd rfl h
  | cons i q =>
    unfold least
    split
    · exact ⟨i, rfl⟩
    · split <;> exact ⟨_, rfl⟩

/-- With two nodes or more in the queue a merge joins two of them; the arena has room for the new node (R124, R128). -/
theorem execTreeMerge_of_forest {s : State} (hF : Forest s) (h2 : 2 ≤ (queue s).length) :
    ∃ a b, ∃ hn : s.nnodes < Config.NODE_CAP, a ∈ queue s ∧ b ∈ queue s ∧ a ≠ b ∧
      execTreeMerge s = .next (endBuild (merged a b s hn)) := by
  have hn : s.nnodes < Config.NODE_CAP := by
    have hcount := hF.2.1
    have := presentSymbols_length_le s.freq
    simp only [Config.NODE_CAP]; omega
  obtain ⟨a, ha⟩ := exists_least s.node (q := queue s) (List.length_pos_iff.mp (by omega))
  have hrest : queue (dequeue a s) ≠ [] := by
    intro h
    have hsub : ∀ i ∈ queue s, i = a := fun i hi => by
      by_contra hne
      exact List.not_mem_nil (h ▸ (mem_queue_dequeue s a i).mpr ⟨hi, hne⟩)
    have : (queue s).length ≤ [a].length :=
      ((nodup_queue s).subperm fun i hi => List.mem_singleton.mpr (hsub i hi)).length_le
    exact absurd (h2.trans this) (by simp)
  obtain ⟨b, hb⟩ := exists_least s.node hrest
  obtain ⟨hbq, hne⟩ := (mem_queue_dequeue s a b).mp (mem_of_least hb)
  refine ⟨a, b, hn, mem_of_least ha, hbq, Ne.symm hne, ?_⟩
  obtain ⟨hf, _⟩ | ⟨_, h1⟩ := pushNode_cases (mergeNode s.node a b) (dequeue b (dequeue a s))
  · exact absurd hn (Nat.not_lt.mpr hf)
  · simp only [execTreeMerge, ha, dequeue_node, hb, h1]; rfl

/-- A leaf of a strict binary tree is less deep than the tree has leaves (R120, R129). -/
theorem TreeAt.path_length_lt {node : Vector Node Config.NODE_CAP} {i : ArenaIx} {l : List (Byte × BitString)}
    (ht : TreeAt node i l) : ∀ x ∈ l, x.2.length < l.length := by
  induction ht with
  | leaf => simp
  | internal _ l r _ h1 h2 ihl ihr =>
    have hl := List.length_pos_iff.mpr h1.ne_nil
    have hr := List.length_pos_iff.mpr h2.ne_nil
    intro x hx
    rw [List.length_append, List.length_map, List.length_map]
    obtain hx | hx := List.mem_append.mp hx <;> obtain ⟨y, hy, rfl⟩ := List.mem_map.mp hx
    · have := ihl y hy
      simp only [List.length_cons]; omega
    · have := ihr y hy
      simp only [List.length_cons]; omega

/-- No path of a run's tree is too long for its length to be held: it has at most 256 leaves (R129, R139). -/
theorem exists_execCodeAssign {s : State} (hF : Forest s) (hq : queue s = [s.root]) : ∃ t, execCodeAssign s = .next t := by
  obtain ⟨codes, htree, hperm⟩ := forest_root hF hq
  have hlen : codes.length ≤ Config.MAXLEN + 1 := by
    rw [← List.length_map (f := Prod.fst), hperm.length_eq]
    exact presentSymbols_length_le _
  have hvisit := (visit_eq_some_iff htree (Config.MAXLEN + 1) [] s.code _).mpr
    ⟨fun x hx => (htree.path_length_lt x hx).trans_le hlen, rfl⟩
  by_cases h1 : s.nsym = 1
  · exact ⟨_, if_pos h1⟩
  · exact ⟨_, by rw [execCodeAssign, if_neg h1, hvisit]⟩

/-! ### A run of the block on its own -/

theorem reaches_of_step {s t : State} (h : step s = .next t) : Reaches s t := .single h

/-- The block is on its own and its tables are as a run leaves them. -/
structure Alone (s : State) : Prop where
  free   : s.rst = false
  alone  : s.inbox = []
  tables : s.EncInv

theorem Alone.step {s t : State} (h : Alone s) (ht : step s = .next t) : Alone t := by
  obtain ⟨_, hd⟩ := accessed_step h.alone h.free ht
  exact ⟨hd.rst.trans h.free, hd.inbox.trans h.alone, encoderInvariantIsKept s t h.tables ht⟩

theorem Alone.step_eq {s : State} (h : Alone s) {i : Instr} (hi : selected s = some i) : Machine.step s = exec i s :=
  (step_of_inbox_nil h.alone).trans (advance_of_free h.free hi)

/-- The states differ in nothing but what the Tree Builder and the Code Assigner write. -/
def BuiltFrom (s t : State) : Prop :=
  ∃ N Q n r C p, t = { s with node := N, inq := Q, nnodes := n, root := r, code := C, phase := p }

theorem BuiltFrom.trans {s t u : State} (h : BuiltFrom s t) (h' : BuiltFrom t u) : BuiltFrom s u := by
  obtain ⟨_, _, _, _, _, _, rfl⟩ := h
  obtain ⟨_, _, _, _, _, _, rfl⟩ := h'
  exact ⟨_, _, _, _, _, _, rfl⟩

theorem builtFrom_endBuild (s : State) : BuiltFrom s (endBuild s) := by
  obtain ⟨_, _, h⟩ | ⟨_, h⟩ := endBuild_cases s <;> rw [h] <;> exact ⟨_, _, _, _, _, _, rfl⟩

/-- CODE_ASSIGN as a step of a run. -/
theorem Alone.codeAssign {s : State} (h : Alone s) (hp : s.phase = .cAssign) :
    ∃ t, Reaches s t ∧ t.phase = .cHeader ∧ Alone t ∧ BuiltFrom s t := by
  obtain ⟨_, hF, hq⟩ := (encInv_iff_cAssign hp).mp h.tables
  obtain ⟨t, ht⟩ := exists_execCodeAssign hF hq
  have hstep : Machine.step s = .next t := (h.step_eq (i := .codeAssign) (by simp only [selected, hp])).trans ht
  refine ⟨t, reaches_of_step hstep, ?_, h.step hstep, ?_⟩ <;> obtain ⟨C, rfl, _⟩ := execCodeAssign_next ht
  · rfl
  · exact ⟨_, _, _, _, _, _, rfl⟩

/-- The merges end, since each leaves one node less in the queue (R123, R125). -/
theorem Alone.treeMerges (n : Nat) : ∀ {s : State}, Alone s → s.phase = .cBuild → s.nnodes ≠ 0 → (queue s).length ≤ n →
    ∃ t, Reaches s t ∧ t.phase = .cAssign ∧ Alone t ∧ BuiltFrom s t := by
  induction n with
  | zero =>
    intro s h hp h0 hl
    obtain ⟨_, hF⟩ := (encInv_iff_cBuild hp).mp h.tables
    obtain ⟨_, h2⟩ := hF.resolve_left h0
    omega
  | succ n ih =>
    intro s h hp h0 hl
    obtain ⟨_, hF⟩ := (encInv_iff_cBuild hp).mp h.tables
    obtain ⟨hF, h2⟩ := hF.resolve_left h0
    obtain ⟨a, b, hn, ha, hb, hab, he⟩ := execTreeMerge_of_forest hF h2
    have hsel : selected s = some .treeMerge := by simp only [selected, hp, if_neg h0]
    have hstep : Machine.step s = .next (endBuild (merged a b s hn)) := (h.step_eq hsel).trans he
    have hfrom : BuiltFrom s (merged a b s hn) := ⟨_, _, _, _, _, _, rfl⟩
    obtain ⟨r, _, hend⟩ | ⟨_, hend⟩ := endBuild_cases (merged a b s hn)
    · exact ⟨_, reaches_of_step hstep, by rw [hend], h.step hstep, hfrom.trans (builtFrom_endBuild _)⟩
    · rw [hend] at hstep
      have hq := queue_merged_length ha hb hab hn
      obtain ⟨t, hreach, htp, ht, htf⟩ := ih (h.step hstep) hp (Nat.succ_ne_zero s.nnodes) (by omega)
      exact ⟨t, .head hstep hreach, htp, ht, hfrom.trans htf⟩

/-- The Tree Builder's phase from its beginning: the seeding, then the merges, if any (R122 to R126). -/
theorem Alone.build {s : State} (h : Alone s) (hp : s.phase = .cBuild) (h0 : s.nnodes = 0) :
    ∃ t, Reaches s t ∧ t.phase = .cAssign ∧ Alone t ∧ BuiltFrom s t := by
  obtain ⟨t, ht⟩ := exists_execTreeSeed h0
  have hsel : selected s = some .treeSeed := by simp only [selected, hp, if_pos h0]
  have hstep : Machine.step s = .next t := (h.step_eq hsel).trans ht
  have htA := h.step hstep
  obtain ⟨s1, N, Q, n, hs, rfl, _, _, rfl⟩ := execTreeSeed_next ht
  have hfrom : BuiltFrom s (endBuild { s with node := N, inq := Q, nnodes := n }) :=
    .trans ⟨_, _, _, _, _, _, rfl⟩ (builtFrom_endBuild _)
  obtain ⟨r, _, hend⟩ | ⟨_, hend⟩ := endBuild_cases { s with node := N, inq := Q, nnodes := n }
  · exact ⟨_, reaches_of_step hstep, by rw [hend], htA, hfrom⟩
  · have hn : n ≠ 0 := by
      obtain ⟨hc, _⟩ := (encInv_iff_cBuild hp).mp h.tables
      obtain ⟨_, hk, _⟩ := seedLeaves_allSymbols h0 hs
      have hpos := hc.nsym ▸ hc.pos
      rw [show n = _ from hk]
      omega
    obtain ⟨t, hreach, htp, ht, htf⟩ := htA.treeMerges _ (by rw [hend]; exact hp) (by rw [hend]; exact hn) le_rfl
    exact ⟨t, .head hstep hreach, htp, ht, hfrom.trans htf⟩

/-! ### From START to the header -/

theorem lookSym_count (input : List Byte) (c : Byte) : ∀ freq : Vector Count Config.NSYMVALS,
    lookSym (input.foldl (fun f b => putSym f b (lookSym f b + 1)) freq) c = lookSym freq c + BitVec.ofNat _ (input.count c) := by
  induction input with
  | nil => simp
  | cons b input ih =>
    intro freq
    rw [List.foldl_cons, ih, lookSym_putSym, List.count_cons]
    by_cases hb : b = c
    · subst hb
      rw [if_pos rfl, if_pos BEq.rfl, BitVec.ofNat_add, BitVec.add_assoc, BitVec.add_comm 1]
      rfl
    · simp [hb]

/-- COMPRESS of `input` has its code table and has written nothing: what stands when `C_HEADER` begins (R62, R111, R207). -/
structure HeaderNext (s : State) (input : List Byte) (t : State) : Prop extends Alone t where
  phase   : t.phase = .cHeader
  status  : t.status = Status.running
  errcode : t.errcode = 0
  freq    : ∀ c, lookSym t.freq c = BitVec.ofNat _ (input.count c)
  src     : t.src = { avail := true, data := input, pos := input.length }
  snk     : t.snk = s.snk
  trace   : t.trace = .eos :: (input.map Access.read).reverse ++ s.trace

/-- The state an accepted COMPRESS begins its run in (R201, R202). -/
def compressStarted (s : State) : State := { initRun (latchOp 1 { s with inbox := [] }) with phase := .cFreq }

theorem step_compress {s : State} {input : List Byte} (h : Ready s input) :
    step (commanded s 0x81) = .next (compressStarted s) := by
  rw [step_commanded h.free h.notBusy (by decide), show opField 0x81 = 1 by decide]
  simp [start, firstPhase, h.source, compressStarted]

theorem alone_compressStarted {s : State} (hr : s.rst = false) : Alone (compressStarted s) :=
  ⟨hr, rfl, (encInv_iff_clear rfl).mpr (tablesClear_of_start 1 .cFreq _)⟩

theorem exists_execFreqScan {s : State} (hl : (unread s).length < 2 ^ 64) : ∃ t, execFreqScan s = .next t :=
  ⟨_, if_neg (Nat.not_le.mpr (by rw [srcLeft_eq]; exact hl))⟩

/-- From the first phase of COMPRESS to the header: the counts, and for an input that is not empty the tree and the codes (R207). -/
theorem Alone.toHeader {s : State} (h : Alone s) (hp : s.phase = .cFreq) (hl : (unread s).length < 2 ^ 64) :
    ∃ t, Reaches s t ∧ t.phase = .cHeader ∧ Alone t ∧
      ∃ k, BuiltFrom { atEos (afterReads (unread s) s) with
        freq := (unread s).foldl (fun f b => putSym f b (lookSym f b + 1)) s.freq
        nsym := k } t := by
  obtain ⟨t1, ht1⟩ := exists_execFreqScan hl
  have hstep : Machine.step s = .next t1 := (h.step_eq (i := .freqScan) (by simp only [selected, hp])).trans ht1
  have h1 := h.step hstep
  have hclear := (encInv_iff_clear (by rw [hp]; rfl)).mp h.tables
  obtain ⟨_, F, rfl, rfl⟩ := execFreqScan_next ht1
  by_cases hk : (presentSymbols ((unread s).foldl (fun f b => putSym f b (lookSym f b + 1)) s.freq)).length = 0
  · exact ⟨_, reaches_of_step hstep, if_pos hk, h1, _, _, _, _, _, _, _, rfl⟩
  · obtain ⟨t2, hreach2, hp2, h2, hfrom2⟩ := h1.build (if_neg hk) hclear.nnodes
    obtain ⟨t3, hreach3, hp3, h3, hfrom3⟩ := h2.codeAssign hp2
    exact ⟨t3, ((reaches_of_step hstep).trans hreach2).trans hreach3, hp3, h3, _,
      .trans ⟨_, _, _, _, _, _, rfl⟩ (hfrom2.trans hfrom3)⟩

theorem reaches_header {s : State} {input : List Byte} (h : Ready s input) (hl : input.length < 2 ^ 64) :
    ∃ t, Reaches (commanded s 0x81) t ∧ HeaderNext s input t := by
  have hunread : unread (compressStarted s) = input := by
    simp [unread, compressStarted, h.source]
  obtain ⟨t, hreach, hp, ht, k, hfrom⟩ := (alone_compressStarted h.free).toHeader rfl (by rw [hunread]; exact hl)
  rw [hunread] at hfrom
  refine ⟨t, (reaches_of_step (step_compress h)).trans hreach, ht, hp, ?_, ?_, fun c => ?_, ?_, ?_, ?_⟩ <;>
    obtain ⟨_, _, _, _, _, _, rfl⟩ := hfrom
  · rfl
  · rfl
  · exact (lookSym_count input c _).trans (by simp [compressStarted])
  · simp [compressStarted, atEos, afterReads, h.source]
  · rfl
  · rfl

end Sys2Proof.Machine

/-! The second pass of COMPRESS: the bytes it completes as it reads, and the order of all accesses (R62, R168, R171, R172). -/

namespace Sys2Proof.Machine

/-! ### Whole bytes of a bit-string -/

theorem packBytes_add (m n : Nat) : ∀ s : BitString, packBytes (m + n) s = packBytes m s ++ packBytes n (s.drop (8 * m)) := by
  induction m with
  | zero => intro s; simp [packBytes]
  | succ m ih =>
    intro s
    rw [Nat.add_right_comm, packBytes, packBytes, ih, List.drop_drop, Nat.mul_succ, Nat.add_comm 8]; rfl

theorem byteOf_append {s : BitString} (h : 8 ≤ s.length) (t : BitString) : byteOf (s ++ t) = byteOf s := by
  have hbit : ∀ i < 8, bitAt (s ++ t) i = bitAt s i := fun i hi => List.getD_append _ _ _ _ (hi.trans_le h)
  simp only [byteOf, hbit, Nat.reduceLT]

theorem packBytes_append {n : Nat} (t : BitString) : ∀ {s : BitString}, 8 * n ≤ s.length → packBytes n (s ++ t) = packBytes n s := by
  induction n with
  | zero => exact fun _ => rfl
  | succ n ih =>
    intro s h
    have h8 : 8 ≤ s.length := by omega
    rw [packBytes, packBytes, byteOf_append h8, List.drop_append_of_le_length h8, ih (by rw [List.length_drop]; omega)]

/-- The bytes a bit-string completes (R168). -/
def completed (s : BitString) : List Byte := packBytes (s.length / 8) s

/-- The bits left over after them (R168). -/
def carried (s : BitString) : BitString := s.drop (8 * (s.length / 8))

@[simp] theorem length_completed (s : BitString) : (completed s).length = s.length / 8 := packBytes_length ..

@[simp] theorem length_carried (s : BitString) : (carried s).length = s.length % 8 := by
  rw [carried, List.length_drop]; omega

theorem completed_of_lt {s : BitString} (h : s.length < 8) : completed s = [] := by
  rw [completed, Nat.div_eq_of_lt h]; rfl

theorem carried_of_lt {s : BitString} (h : s.length < 8) : carried s = s := by
  rw [carried, Nat.div_eq_of_lt h]; rfl

theorem drop_append_completed (s t : BitString) : (s ++ t).drop (8 * (s.length / 8)) = carried s ++ t :=
  List.drop_append_of_le_length (by omega)

theorem length_div_append (s t : BitString) : (s ++ t).length / 8 = s.length / 8 + (carried s ++ t).length / 8 := by
  simp only [List.length_append, length_carried]; omega

/-- Bits that follow complete bytes from what is left over (R168, R172). -/
theorem completed_append (s t : BitString) : completed (s ++ t) = completed s ++ completed (carried s ++ t) := by
  rw [completed, length_div_append, packBytes_add, packBytes_append t (by omega), drop_append_completed]; rfl

theorem carried_append (s t : BitString) : carried (s ++ t) = carried (carried s ++ t) := by
  rw [carried, length_div_append, Nat.mul_add, ← List.drop_drop, drop_append_completed]; rfl

/-- The last byte of a payload, if bits are left over (R171). -/
def lastByte (acc : BitString) : List Byte := if acc = [] then [] else [byteOf acc]

/-- A packed bit-string is the bytes it completes and one byte more for the bits left over (R147, R172). -/
theorem pack_eq_completed (s : BitString) : pack s = completed s ++ lastByte (carried s) := by
  have hlen := length_carried s
  by_cases h : carried s = []
  · rw [h, List.length_nil] at hlen
    have : ceil8 s.length = s.length / 8 := by rw [ceil8]; omega
    rw [pack, this, lastByte, if_pos h, List.append_nil, completed]
  · have := List.length_pos_iff.mpr h
    have : ceil8 s.length = s.length / 8 + 1 := by rw [ceil8]; omega
    rw [pack, this, packBytes_add, lastByte, if_neg h]; rfl

/-! ### The accesses of the second pass -/

section

variable (code : Vector CodeEntry Config.NSYMVALS)

/-- The accesses of the second pass from the carried bits `acc`, oldest first: after the read of each byte the writes of the bytes its
code completes (R62, R168). -/
def pass2Accesses : BitString → List Byte → List Access
  | _, [] => []
  | acc, b :: bs =>
    .read b :: ((completed (acc ++ (lookSym code b).bits)).map .write ++
      pass2Accesses (carried (acc ++ (lookSym code b).bits)) bs)

theorem codesOf_cons (b : Byte) (bs : List Byte) : codesOf code (b :: bs) = (lookSym code b).bits ++ codesOf code bs := rfl

theorem mem_pass2Accesses {a : Access} (bs : List Byte) : ∀ {acc : BitString}, a ∈ pass2Accesses code acc bs →
    (∃ b, a = .read b) ∨ ∃ b, a = .write b := by
  induction bs with
  | nil => intro acc h; exact absurd h List.not_mem_nil
  | cons b bs ih =>
    intro acc h
    obtain rfl | h := List.mem_cons.mp h
    · exact .inl ⟨b, rfl⟩
    · obtain h | h := List.mem_append.mp h
      · obtain ⟨y, _, rfl⟩ := List.mem_map.mp h
        exact .inr ⟨y, rfl⟩
      · exact ih h

theorem readsOf_read_cons (b : Byte) (l : List Access) : readsOf (.read b :: l).reverse = b :: readsOf l.reverse := by
  rw [List.reverse_cons, readsOf_append]; rfl

theorem writesOf_read_cons (b : Byte) (l : List Access) : writesOf (.read b :: l).reverse = writesOf l.reverse := by
  rw [List.reverse_cons, writesOf_append]; rfl

theorem readsOf_writes_append (ws : List Byte) (l : List Access) : readsOf (ws.map Access.write ++ l).reverse = readsOf l.reverse := by
  rw [List.reverse_append, readsOf_append, readsOf_writes, List.nil_append]

theorem writesOf_writes_append (ws : List Byte) (l : List Access) :
    writesOf (ws.map Access.write ++ l).reverse = ws ++ writesOf l.reverse := by
  rw [List.reverse_append, writesOf_append, writesOf_writes]

theorem readsOf_pass2 (bs : List Byte) : ∀ acc, readsOf (pass2Accesses code acc bs).reverse = bs := by
  induction bs with
  | nil => exact fun _ => rfl
  | cons b bs ih => intro acc; rw [pass2Accesses, readsOf_read_cons, readsOf_writes_append, ih]

theorem writesOf_pass2 (bs : List Byte) : ∀ {acc : BitString}, acc.length < 8 →
    writesOf (pass2Accesses code acc bs).reverse = completed (acc ++ codesOf code bs) := by
  induction bs with
  | nil => intro acc h; exact (completed_of_lt (by simpa [codesOf] using h)).symm
  | cons b bs ih =>
    intro acc h
    rw [pass2Accesses, writesOf_read_cons, writesOf_writes_append, ih (by rw [length_carried]; omega), codesOf_cons,
      ← List.append_assoc, completed_append (acc ++ (lookSym code b).bits)]

/-- A part of the pass that begins with the first byte's read: some of its writes and, when these are done, a part of the rest. -/
theorem take_succ_pass2 (acc : BitString) (b : Byte) (bs : List Byte) (m : Nat) :
    (pass2Accesses code acc (b :: bs)).take (m + 1) =
      .read b :: (((completed (acc ++ (lookSym code b).bits)).take m).map .write ++
        (pass2Accesses code (carried (acc ++ (lookSym code b).bits)) bs).take
          (m - (acc ++ (lookSym code b).bits).length / 8)) := by
  rw [pass2Accesses, List.take_succ_cons, List.take_append, List.map_take, List.length_map, length_completed]

/-- At no point has more been written than the codes of the bytes read complete (R62, R168). -/
theorem writes_take_pass2_le (bs : List Byte) : ∀ (acc : BitString) (n : Nat),
    (writesOf ((pass2Accesses code acc bs).take n).reverse).length ≤
      (acc ++ codesOf code (readsOf ((pass2Accesses code acc bs).take n).reverse)).length / 8 := by
  induction bs with
  | nil => intro acc n; simp [pass2Accesses]
  | cons b bs ih =>
    intro acc n
    cases n with
    | zero => simp
    | succ m =>
      have := ih (carried (acc ++ (lookSym code b).bits)) (m - (acc ++ (lookSym code b).bits).length / 8)
      rw [take_succ_pass2, readsOf_read_cons, readsOf_writes_append, writesOf_read_cons, writesOf_writes_append, codesOf_cons,
        ← List.append_assoc, length_div_append (acc ++ (lookSym code b).bits), List.length_append, List.length_take,
        length_completed]
      omega

/-- Where the next access of a list is a read, or the list ends (R62). -/
def AtRead (l : List Access) (n : Nat) : Prop := n = l.length ∨ ∃ b, l[n]? = some (.read b)

/-- The next read after the first byte's comes when all writes of that byte are done. -/
theorem atRead_succ_pass2 {acc : BitString} {b : Byte} {bs : List Byte} {m : Nat}
    (h : AtRead (pass2Accesses code acc (b :: bs)) (m + 1)) :
    (acc ++ (lookSym code b).bits).length / 8 ≤ m ∧
      AtRead (pass2Accesses code (carried (acc ++ (lookSym code b).bits)) bs) (m - (acc ++ (lookSym code b).bits).length / 8) := by
  obtain h | ⟨c, h⟩ := h
  · rw [pass2Accesses, List.length_cons, List.length_append, List.length_map, length_completed] at h
    exact ⟨by omega, .inl (by omega)⟩
  · rw [pass2Accesses, List.getElem?_cons_succ, List.getElem?_append, List.length_map, length_completed] at h
    split at h
    · simp at h
    · exact ⟨by omega, .inr ⟨c, h⟩⟩

/-- Before the next read, and at the end, all of it has been written (R62, R168). -/
theorem writes_take_pass2_eq (bs : List Byte) : ∀ {acc : BitString} {n : Nat}, acc.length < 8 →
    AtRead (pass2Accesses code acc bs) n →
    (writesOf ((pass2Accesses code acc bs).take n).reverse).length =
      (acc ++ codesOf code (readsOf ((pass2Accesses code acc bs).take n).reverse)).length / 8 := by
  induction bs with
  | nil => intro acc n h _; simpa [pass2Accesses, codesOf] using (Nat.div_eq_of_lt h).symm
  | cons b bs ih =>
    intro acc n h hn
    cases n with
    | zero => simpa [codesOf] using (Nat.div_eq_of_lt h).symm
    | succ m =>
      obtain ⟨hle, hrest⟩ := atRead_succ_pass2 code hn
      have := ih (by rw [length_carried]; omega) hrest
      rw [take_succ_pass2, readsOf_read_cons, readsOf_writes_append, writesOf_read_cons, writesOf_writes_append, codesOf_cons,
        ← List.append_assoc, length_div_append (acc ++ (lookSym code b).bits), List.length_append, List.length_take,
        length_completed]
      omega

end

/-! ### The run from the header to its end -/

/-- The state after the second pass over `input`, EOS read, as SER_PAYLOAD leaves it (R168). -/
def afterPayload (input : List Byte) (s : State) : State :=
  { s with
    src := { s.src with pos := s.src.pos + input.length }
    snk := { data := s.snk.data ++ completed (s.acc ++ codesOf s.code input) }
    acc := carried (s.acc ++ codesOf s.code input)
    trace := .eos :: ((pass2Accesses s.code s.acc input).reverse ++ s.trace)
    phase := .cFlush }

theorem afterPayload_nil {s : State} (h : s.acc.length < 8) : afterPayload [] s = { atEos s with phase := .cFlush } := by
  simp [afterPayload, atEos, codesOf, completed_of_lt h, carried_of_lt h, pass2Accesses]

theorem afterPayload_cons (b : Byte) (bs : List Byte) (s : State) :
    afterPayload (b :: bs) s =
      afterPayload bs { afterWrites (completed (s.acc ++ (lookSym s.code b).bits)) (afterReads [b] s) with
        acc := carried (s.acc ++ (lookSym s.code b).bits) } := by
  simp only [afterPayload, afterWrites, afterReads, codesOf_cons, pass2Accesses, ← List.append_assoc]
  rw [completed_append, carried_append]
  simp [Nat.add_assoc, Nat.add_comm]

/-- SER_PAYLOAD byte by byte to EOS (R168, R170). -/
theorem Alone.payload (input : List Byte) : ∀ {s : State}, Alone s → s.phase = .cPayload → unread s = input → s.acc.length < 8 →
    (∀ b ∈ input, (lookSym s.code b).valid = true) →
    Reaches s (afterPayload input s) ∧ Alone (afterPayload input s) := by
  induction input with
  | nil =>
    intro s h hp hu hacc _
    obtain ⟨_, he⟩ | ⟨b, rest, hu', _⟩ | ⟨b, rest, hu', _⟩ := execSerPayload_cases s
    · have hstep := (h.step_eq (i := .serPayload) (by simp only [selected, hp])).trans he
      rw [afterPayload_nil hacc]
      exact ⟨reaches_of_step hstep, h.step hstep⟩
    · cases hu.symm.trans hu'
    · cases hu.symm.trans hu'
  | cons b bs ih =>
    intro s h hp hu hacc hv
    obtain ⟨hu', _⟩ | ⟨c, rest, hu', hc, _⟩ | ⟨c, rest, hu', _, he⟩ := execSerPayload_cases s <;> cases hu.symm.trans hu'
    · exact absurd (hc.symm.trans (hv b List.mem_cons_self)) Bool.false_ne_true
    · have hstep := (h.step_eq (i := .serPayload) (by simp only [selected, hp])).trans he
      obtain ⟨hreach, ht⟩ := ih (h.step hstep) hp (unread_afterReads (xs := [b]) hu)
        ((length_carried (s.acc ++ (lookSym s.code b).bits)).trans_lt (Nat.mod_lt _ (by decide)))
        fun c hc => hv c (List.mem_cons_of_mem _ hc)
      rw [afterPayload_cons]
      exact ⟨(reaches_of_step hstep).trans hreach, ht⟩

/-- The state in which the second pass begins: header and terminator written, the source rewound (R164, R166, R167). -/
def beforePayload (s : State) : State :=
  { srcRewind (sinkWrite Config.TERM (afterWrites (headerBytes s.code) s)) with phase := .cPayload, acc := [] }

/-- The state after SER_FLUSH (R171, R208). -/
def flushed (s : State) : State := finish { afterWrites (lastByte s.acc) s with acc := [] }

/-- The state a COMPRESS ends in, from the one in which its header begins (R207). -/
def compressDone (s : State) : State := flushed (afterPayload s.src.data (beforePayload s))

@[simp] theorem beforePayload_code (s : State) : (beforePayload s).code = s.code := by simp [beforePayload, afterWrites]
@[simp] theorem beforePayload_acc (s : State) : (beforePayload s).acc = [] := rfl
@[simp] theorem beforePayload_trace (s : State) :
    (beforePayload s).trace = .rewind :: .write Config.TERM :: (((headerBytes s.code).map Access.write).reverse ++ s.trace) := rfl

@[simp] theorem afterPayload_code (input : List Byte) (s : State) : (afterPayload input s).code = s.code := rfl
@[simp] theorem afterPayload_acc (input : List Byte) (s : State) :
    (afterPayload input s).acc = carried (s.acc ++ codesOf s.code input) := rfl
@[simp] theorem afterPayload_trace (input : List Byte) (s : State) :
    (afterPayload input s).trace = .eos :: ((pass2Accesses s.code s.acc input).reverse ++ s.trace) := rfl

@[simp] theorem flushed_phase (s : State) : (flushed s).phase = .done := rfl
@[simp] theorem flushed_code (s : State) : (flushed s).code = s.code := rfl
@[simp] theorem flushed_trace (s : State) : (flushed s).trace = ((lastByte s.acc).map Access.write).reverse ++ s.trace := rfl

@[simp] theorem compressDone_phase (s : State) : (compressDone s).phase = .done := by simp [compressDone]
@[simp] theorem compressDone_code (s : State) : (compressDone s).code = s.code := by simp [compressDone]

/-- Header, terminator, second pass and last byte, when every byte of the source has a code (R207). -/
theorem Alone.reaches_compressDone {s : State} (h : Alone s) (hp : s.phase = .cHeader)
    (hv : ∀ b ∈ s.src.data, (lookSym s.code b).valid = true) : Reaches s (compressDone s) := by
  have hheader : Machine.step s = .next { afterWrites (headerBytes s.code) s with phase := .cTerm } :=
    (h.step_eq (i := .serHeader) (by simp only [selected, hp])).trans (execSerHeader_eq s)
  have hterm : Machine.step { afterWrites (headerBytes s.code) s with phase := .cTerm } = .next (beforePayload s) :=
    (h.step hheader).step_eq (i := .serTerm) rfl
  obtain ⟨hreach, ht⟩ := ((h.step hheader).step hterm).payload s.src.data rfl rfl (by decide : 0 < 8)
    (by rw [beforePayload_code]; exact hv)
  have hflush : Machine.step (afterPayload s.src.data (beforePayload s)) = .next (compressDone s) :=
    (ht.step_eq (i := .serFlush) rfl).trans (execSerFlush_eq _)
  exact (((reaches_of_step hheader).trans (reaches_of_step hterm)).trans hreach).trans (reaches_of_step hflush)

theorem headerBytes_eq_codedSymbols (code : Vector CodeEntry Config.NSYMVALS) :
    headerBytes code = (codedSymbols code).flatMap (fun c => [c, (lookSym code c).len] ++ pack (lookSym code c).bits) := by
  rw [headerBytes, codedSymbols]
  induction allSymbols with
  | nil => rfl
  | cons c cs ih =>
    rw [List.flatMap_cons, ih, List.filter_cons]
    split <;> rfl

/-- The accesses from the header to the end, oldest first (R62). -/
theorem compressDone_trace (s : State) :
    (compressDone s).trace.reverse = s.trace.reverse ++ (headerBytes s.code).map Access.write ++
      [Access.write Config.TERM, Access.rewind] ++ pass2Accesses s.code [] s.src.data ++ [Access.eos] ++
      (lastByte (carried (codesOf s.code s.src.data))).map Access.write := by
  simp [compressDone]

/-- A byte of the input has a code (R112, R139). -/
theorem HeaderNext.valid {s : State} {input : List Byte} {t : State} (h : HeaderNext s input t) (hl : input.length < 2 ^ 64)
    {b : Byte} (hb : b ∈ input) : (lookSym t.code b).valid = true := by
  obtain ⟨_, hlaws⟩ := (encInv_iff_coded (by rw [h.phase]; rfl)).mp h.tables
  rw [hlaws.valid, h.freq]
  intro h0
  have hcount := congrArg BitVec.toNat h0
  rw [BitVec.toNat_ofNat, Nat.mod_eq_of_lt ((List.count_le_length ..).trans_lt hl)] at hcount
  exact absurd (List.count_pos_iff.mpr hb) (by rw [hcount]; decide)

/-- Settles O53: pass 1 up to the header, then the accesses from there to the end. -/
theorem compressAccessesInOrder : Obligations.CompressAccessesInOrder := by
  intro s input hready hl
  obtain ⟨u, hreach, hu⟩ := reaches_header hready hl
  have hdata : u.src.data = input := by rw [hu.src]
  have hdone := hu.toAlone.reaches_compressDone hu.phase (by rw [hdata]; exact fun b hb => hu.valid hl hb)
  refine ⟨compressDone u, pass2Accesses u.code [] input, (lastByte (carried (codesOf u.code input))).map .write,
    hreach.trans hdone, compressDone_phase u, ?_, fun h => ?_, fun h => ?_, readsOf_pass2 .., ?_, fun a ha => ?_, ?_,
    fun n => ?_, fun n hn => ?_⟩
  · rw [compressDone_trace, hu.trace, hdata, compressDone_code, headerBytes_eq_codedSymbols]
    simp
  · obtain ⟨_, h⟩ | ⟨_, h⟩ := mem_pass2Accesses _ _ h <;> cases h
  · obtain ⟨_, h⟩ | ⟨_, h⟩ := mem_pass2Accesses _ _ h <;> cases h
  · unfold lastByte; split <;> simp
  · obtain ⟨y, _, rfl⟩ := List.mem_map.mp ha
    exact ⟨y, rfl⟩
  · rw [writesOf_pass2 _ _ (by decide), writesOf_writes, compressDone_code, pack_eq_completed, List.nil_append]
  · rw [compressDone_code]
    exact writes_take_pass2_le u.code input [] n
  · rw [compressDone_code]
    exact writes_take_pass2_eq u.code input (by decide) hn

end Sys2Proof.Machine

/-! The encoder and the decoder of the instructions undo each other (30_encoding.md). -/

namespace Sys2Proof

/-! ### The fields of a `CMD` value -/

/-- Bits 7 and 2:0 of a built `CMD` value are the fields it was built from (R90). -/
theorem fields_encodeCmd : ∀ (start : Bool) (op : BitVec 3),
    startField (encodeCmd start op) = start ∧ opField (encodeCmd start op) = op := by decide

/-- Building a `CMD` value from the fields of another clears its ignored bits 6:3 and nothing else (R22, R90). -/
theorem encodeCmd_fields : ∀ b : Byte, encodeCmd (startField b) (opField b) = b &&& 0x87 := by decide +kernel

theorem decodeCmd_congr {b c : Byte} (hs : startField b = startField c) (ho : opField b = opField c) :
    decodeCmd b = decodeCmd c := by
  simp only [decodeCmd, hs, ho]

theorem fields_mask (b : Byte) : startField (b &&& 0x87) = startField b ∧ opField (b &&& 0x87) = opField b := by
  rw [← encodeCmd_fields]
  exact fields_encodeCmd _ _

/-- Bits 6:3 of a `CMD` value are ignored (R22). -/
theorem decodeCmd_mask (b : Byte) : decodeCmd (b &&& 0x87) = decodeCmd b :=
  decodeCmd_congr (fields_mask b).1 (fields_mask b).2

/-- What the four commands leave of `OP` is reserved (R91, R92). -/
theorem reservedOp_of_ne : ∀ {op : BitVec 3}, op ≠ 1 → op ≠ 2 → op ≠ 3 → op ≠ 4 → reservedOp op = true := by decide

theorem ne_of_reservedOp : ∀ {op : BitVec 3}, reservedOp op = true → op ≠ 1 ∧ op ≠ 2 ∧ op ≠ 3 ∧ op ≠ 4 := by decide

theorem decodeCmd_of_not_start {b : Byte} (hs : startField b = false) : decodeCmd b = .cmdNoStart (opField b) := by
  rw [decodeCmd, hs, if_neg Bool.false_ne_true]

theorem decodeCmd_of_reserved {b : Byte} (hs : startField b = true) (hr : reservedOp (opField b) = true) :
    decodeCmd b = .cmdReserved (opField b) := by
  obtain ⟨h1, h2, h3, h4⟩ := ne_of_reservedOp hr
  rw [decodeCmd, if_pos hs, if_neg h1, if_neg h2, if_neg h3, if_neg h4]

/-- A `CMD` value decodes to a well-formed instruction, whose encoding has the value's `START` and `OP` (R90, R91). -/
theorem encode_decodeCmd_fields (b : Byte) : (decodeCmd b).wellFormed = true ∧
    encode (decodeCmd b) = some (.command, [encodeCmd (startField b) (opField b)]) := by
  cases hs : startField b with
  | false => rw [decodeCmd_of_not_start hs]; exact ⟨rfl, rfl⟩
  | true =>
    simp only [decodeCmd, hs, if_true]
    split
    · next h => rw [h]; exact ⟨rfl, rfl⟩
    split
    · next h => rw [h]; exact ⟨rfl, rfl⟩
    split
    · next h => rw [h]; exact ⟨rfl, rfl⟩
    split
    · next h => rw [h]; exact ⟨rfl, rfl⟩
    · next h1 h2 h3 h4 => exact ⟨reservedOp_of_ne h1 h2 h3 h4, rfl⟩

theorem wellFormed_decodeCmd (b : Byte) : (decodeCmd b).wellFormed = true := (encode_decodeCmd_fields b).1

theorem encode_decodeCmd (b : Byte) : encode (decodeCmd b) = some (.command, [b &&& 0x87]) := by
  rw [← encodeCmd_fields]
  exact (encode_decodeCmd_fields b).2

/-! ### The records of the stream -/

theorem wellFormed_hdrEntry_iff {b l : Byte} {cs : List Byte} :
    (Instr.hdrEntry b l cs).wellFormed = true ↔ b ≠ Config.TERM ∧ cs.length = ceil8 l.toNat := by
  simp [Instr.wellFormed]

theorem decodeRecord_symbol {b : Byte} (hb : b ≠ Config.TERM) : decodeRecord [b] = .error .noLength := by
  simp only [decodeRecord, if_neg hb]

theorem decodeRecord_cut {b l : Byte} {cs : List Byte} (hb : b ≠ Config.TERM) (hl : cs.length < ceil8 l.toNat) :
    decodeRecord (b :: l :: cs) = .error .codeCut := by
  simp only [decodeRecord, if_neg hb, if_pos hl]

/-- A record with all its code bytes is decoded whole, and what follows is left (R81). -/
theorem decodeRecord_entry {b l : Byte} {cs : List Byte} (hb : b ≠ Config.TERM) (hl : cs.length = ceil8 l.toNat)
    (rest : List Byte) : decodeRecord (b :: l :: cs ++ rest) = .ok (.hdrEntry b l cs, rest) := by
  have hn : ¬ (cs ++ rest).length < cs.length := by rw [List.length_append]; omega
  simp only [List.cons_append, decodeRecord, if_neg hb, ← hl, if_neg hn, List.take_left, List.drop_left]

/-- A record that decodes is well formed and is its own encoding (R81, R85, R86, R87). -/
theorem encode_decodeRecord {bs rest : List Byte} {i : Instr} (h : decodeRecord bs = .ok (i, rest)) :
    i.wellFormed = true ∧ ∃ record, bs = record ++ rest ∧ encode i = some (.header, record) := by
  match bs with
  | [] => cases h
  | b :: us =>
    by_cases hb : b = Config.TERM
    · subst hb
      cases h
      exact ⟨rfl, [Config.TERM], rfl, rfl⟩
    · match us with
      | [] => cases (decodeRecord_symbol hb).symm.trans h
      | l :: cs =>
        by_cases hl : cs.length < ceil8 l.toNat
        · cases (decodeRecord_cut hb hl).symm.trans h
        · have hlen : (cs.take (ceil8 l.toNat)).length = ceil8 l.toNat := List.length_take_of_le (Nat.not_lt.mp hl)
          have hbs : b :: l :: cs = b :: l :: cs.take (ceil8 l.toNat) ++ cs.drop (ceil8 l.toNat) := by simp
          rw [hbs, decodeRecord_entry hb hlen] at h
          cases h
          exact ⟨wellFormed_hdrEntry_iff.mpr ⟨hb, hlen⟩, _, hbs, rfl⟩

/-! ### Round trips -/

/-- Settles O1: by the rows of the opcode table. -/
theorem decodeUndoesEncode : Obligations.DecodeUndoesEncode := by
  intro i c bs rest hw he
  cases i with
  | compress | decompress | pack | unpack => cases he; rfl
  | cmdReserved op =>
    cases he
    obtain ⟨hs, ho⟩ := fields_encodeCmd true op
    rw [List.singleton_append, decode, decodeCmd_of_reserved hs (by rw [ho]; exact hw), ho]
  | cmdNoStart op =>
    cases he
    obtain ⟨hs, ho⟩ := fields_encodeCmd false op
    rw [List.singleton_append, decode, decodeCmd_of_not_start hs, ho]
  | hdrTerm | payloadByte => cases he; rfl
  | hdrEntry b l cs =>
    cases he
    obtain ⟨hb, hl⟩ := wellFormed_hdrEntry_iff.mp hw
    exact decodeRecord_entry hb hl rest
  | _ => cases he

/-- Settles O2: a context at a time. -/
theorem encodeUndoesDecode : Obligations.EncodeUndoesDecode := by
  intro c bs rest i h
  cases c with
  | command =>
    cases bs with
    | nil => cases h
    | cons b us =>
      cases h
      exact ⟨wellFormed_decodeCmd b, [b], rfl, .inr ⟨b, rfl, rfl, encode_decodeCmd b⟩⟩
  | header =>
    obtain ⟨hw, record, hbs, he⟩ := encode_decodeRecord h
    exact ⟨hw, record, hbs, .inl ⟨by decide, he⟩⟩
  | payload =>
    cases bs with
    | nil => cases h
    | cons b us =>
      cases h
      exact ⟨rfl, [b], rfl, .inl ⟨by decide, rfl⟩⟩

/-! ### The rows of `CMD` -/

/-- A `CMD` value is a row's instruction exactly when its bits 7 and 2:0 are those of the row (R91, R99). -/
theorem decodeCmd_eq_iff {i : Instr} {w : Byte} (hw : i.wellFormed = true) (he : encode i = some (.command, [w])) (b : Byte) :
    decodeCmd b = i ↔ b &&& 0x87 = w := by
  constructor
  · rintro rfl
    simpa using (encode_decodeCmd b).symm.trans he
  · rintro rfl
    have h : decode .command [b &&& 0x87] = .ok (i, []) := decodeUndoesEncode i .command _ [] hw he
    rw [decode, decodeCmd_mask] at h
    simpa using h

theorem decodeCmd_eq_cmdReserved_iff (b : Byte) :
    decodeCmd b = .cmdReserved (opField b) ↔ startField b = true ∧ reservedOp (opField b) = true := by
  constructor
  · intro h
    have hw := wellFormed_decodeCmd b
    cases hs : startField b with
    | false => rw [decodeCmd_of_not_start hs] at h; cases h
    | true => rw [h] at hw; exact ⟨rfl, hw⟩
  · exact fun ⟨hs, hr⟩ => decodeCmd_of_reserved hs hr

/-- The four words of CMD_RESERVED, as the table's match and mask give them (R92, R99). -/
theorem reserved_words : ∀ b : Byte, startField b = true ∧ reservedOp (opField b) = true ↔
    b &&& 0x87 = 0x80 ∨ b &&& 0x87 = 0x85 ∨ b &&& 0x87 = 0x86 ∨ b &&& 0x87 = 0x87 := by decide +kernel

/-- CMD_NO_START leaves `OP` free: the row's match is bit 7 alone (R99). -/
theorem noStart_words : ∀ b : Byte, b &&& 0x87 = encodeCmd false (opField b) ↔ b &&& 0x80 = 0x00 := by decide +kernel

/-- Settles O3: the rows without an operand by their one word, the other two by the words of their operand's values. -/
theorem commandRowsPartitionAllValues : Obligations.CommandRowsPartitionAllValues := fun b =>
  ⟨decodeCmd_eq_iff rfl rfl b, decodeCmd_eq_iff rfl rfl b, decodeCmd_eq_iff rfl rfl b, decodeCmd_eq_iff rfl rfl b,
    (decodeCmd_eq_cmdReserved_iff b).trans (reserved_words b), (decodeCmd_eq_iff rfl rfl b).trans (noStart_words b)⟩

/-- Settles O4: each word is run through the decoder. -/
theorem writtenWordsDecode : Obligations.WrittenWordsDecode := ⟨rfl, rfl, rfl, rfl, rfl, rfl, rfl, rfl⟩

end Sys2Proof

/-! The records of the stream: DES_HEADER and DES_PAYLOAD read one and execute it, and what a header entry does to the decode table
(R81, R86, R88, R181, R185, R186, R189). -/

namespace Sys2Proof.Machine

/-! ### The record at the cursor -/

/-- Only HDR_TERM and HDR_ENTRY are encoded in the header (R99). -/
theorem header_record_cases {i : Instr} {record : List Byte} (h : encode i = some (.header, record)) :
    (i = .hdrTerm ∧ record = [Config.TERM]) ∨ ∃ b l cs, i = .hdrEntry b l cs ∧ record = b :: l :: cs := by
  cases i with
  | hdrTerm => cases h; exact .inl ⟨rfl, rfl⟩
  | hdrEntry b l cs => cases h; exact .inr ⟨b, l, cs, rfl, rfl⟩
  | _ => cases h

/-- Only PAYLOAD_BYTE is encoded in the payload (R99). -/
theorem payload_record_cases {i : Instr} {record : List Byte} (h : encode i = some (.payload, record)) :
    ∃ b, i = .payloadByte b ∧ record = [b] := by
  cases i with
  | payloadByte b => cases h; exact ⟨b, rfl, rfl⟩
  | _ => cases h

section

variable {s : State} {i : Instr} {record rest : List Byte}

/-- DES_HEADER reads the record at the cursor and executes it (R87, R181). -/
theorem execDesHeader_record (hw : i.wellFormed = true) (he : encode i = some (.header, record))
    (hu : unread s = record ++ rest) : execDesHeader s = exec i (afterReads record s) := by
  obtain ⟨rfl, rfl⟩ | ⟨b, l, cs, rfl, rfl⟩ := header_record_cases he
  · rw [execDesHeader_eq, hu]; rfl
  · obtain ⟨hb, hl⟩ := wellFormed_hdrEntry_iff.mp hw
    have hn : ¬ (cs ++ rest).length < cs.length := by rw [List.length_append]; omega
    simp only [execDesHeader_eq, hu, List.cons_append, headerStep, if_neg hb, ← hl, if_neg hn, List.take_left]
    rw [hl]; rfl

/-- DES_PAYLOAD reads the byte at the cursor and executes it (R189). -/
theorem execDesPayload_record (he : encode i = some (.payload, record)) (hu : unread s = record ++ rest) :
    execDesPayload s = exec i (afterReads record s) := by
  obtain ⟨b, rfl, rfl⟩ := payload_record_cases he
  obtain ⟨h, _⟩ | ⟨c, us, h, h1⟩ := execDesPayload_cases s <;> cases h.symm.trans hu
  exact h1

/-- The record in front of the bytes that follow it is the encoding of what was decoded. -/
theorem encode_of_decode {c : Context} (hc : c ≠ .command) (h : decode c (record ++ rest) = .ok (i, rest)) :
    i.wellFormed = true ∧ encode i = some (c, record) := by
  obtain ⟨hw, hd, hbs, ⟨_, he⟩ | ⟨_, h, _⟩⟩ := encodeUndoesDecode c _ rest i h
  · rw [List.append_cancel_right hbs]
    exact ⟨hw, he⟩
  · exact absurd h hc

end

/-- Settles O7: the phase selects DES_HEADER or DES_PAYLOAD, which executes the record that was decoded. -/
theorem stepRunsTheRecordAtTheCursor : Obligations.StepRunsTheRecordAtTheCursor := by
  intro s i record rest hin hr hu
  rw [step_of_inbox_nil hin]
  refine ⟨fun hp hd => ?_, fun hp hd => ?_⟩
  · obtain ⟨hw, he⟩ := encode_of_decode (by decide) (hu ▸ hd)
    exact (advance_of_free hr (i := .desHeader) (by rw [selected, hp])).trans (execDesHeader_record hw he hu)
  · obtain ⟨_, he⟩ := encode_of_decode (by decide) (hu ▸ hd)
    exact (advance_of_free hr (i := .desPayload) (by rw [selected, hp])).trans (execDesPayload_record he hu)

/-! ### A header entry -/

/-- Bytes written to the buffer stand in its entries from `j` on, the rest keeps what it held (R36, R181). -/
theorem getElem_putBytes {n : Nat} (xs : List Byte) : ∀ (buf : Vector Byte n) (j i : Nat) (hi : i < n),
    (putBytes buf j xs)[i] = if j ≤ i then xs.getD (i - j) buf[i] else buf[i] := by
  induction xs with
  | nil => intro buf j i hi; simp [putBytes]
  | cons x xs ih =>
    intro buf j i hi
    rw [putBytes, ih, Vector.getElem_setIfInBounds hi]
    obtain hlt | rfl | hgt := Nat.lt_trichotomy i j
    · rw [if_neg (by omega), if_neg (by omega), if_neg (by omega)]
    · rw [if_neg (by omega), if_pos rfl, if_pos (Nat.le_refl i), Nat.sub_self, List.getD_cons_zero]
    · have hd : i - j = i - (j + 1) + 1 := by omega
      rw [if_pos (by omega), if_neg (by omega), if_pos (by omega), hd, List.getD_cons_succ]

/-- The entry registers once the bytes of an entry have been read into them (R36, R181). -/
def entryRead (b l : Byte) (cs : List Byte) (s : State) : State :=
  { s with eSym := b, eLen := l, eNb := ceil8 l.toNat, eBuf := putBytes s.eBuf 0 cs }

theorem exec_hdrEntry (b l : Byte) (cs : List Byte) (s : State) :
    exec (.hdrEntry b l cs) s = .next (insertEntry (entryRead b l cs s)) := rfl

@[simp] theorem usedEntries_entryRead (b l : Byte) (cs : List Byte) (s : State) :
    usedEntries (entryRead b l cs s) = usedEntries s := rfl

section

variable {s : State} {b l : Byte} {cs : List Byte} (hl : cs.length = ceil8 l.toNat)

include hl

/-- The code bytes in use in the buffer are the entry's (R181). -/
theorem take_eBuf_entryRead :
    (entryRead b l cs s).eBuf.toList.take (entryRead b l cs s).eNb = cs := by
  have h := take_putBytes cs s.eBuf 0 (by rw [hl, Nat.zero_add]; exact ceil8_le_32 l)
  rwa [Nat.zero_add, hl] at h

/-- Everything HDR_ENTRY can do (R181, R185, R186, R229). -/
theorem exec_hdrEntry_cases :
    ((∃ e ∈ usedEntries s, e.key = unpack cs l.toNat) ∧
      exec (.hdrEntry b l cs) s = .next (raise .formatDuplicateKey (entryRead b l cs s))) ∨
    ((∀ e ∈ usedEntries s, e.key ≠ unpack cs l.toNat) ∧ 256 ≤ s.dn ∧
      exec (.hdrEntry b l cs) s = .next (raise .formatTableFull (entryRead b l cs s))) ∨
    ∃ h : s.dn < 256, (∀ e ∈ usedEntries s, e.key ≠ unpack cs l.toNat) ∧
      exec (.hdrEntry b l cs) s =
        .next { entryRead b l cs s with dtab := s.dtab.set s.dn (tableEntry b l cs) h, dn := s.dn + 1 } := by
  have h := insertEntry_cases (entryRead b l cs s)
  rw [take_eBuf_entryRead hl] at h
  rw [exec_hdrEntry]
  obtain ⟨hd, he⟩ | ⟨hn, hf, he⟩ | ⟨hf, hn, he⟩ := h <;> rw [he]
  · exact .inl ⟨hd, rfl⟩
  · exact .inr (.inl ⟨hn, hf, rfl⟩)
  · exact .inr (.inr ⟨hf, hn, rfl⟩)

theorem exec_hdrEntry_duplicate (hd : ∃ e ∈ usedEntries s, e.key = unpack cs l.toNat) :
    exec (.hdrEntry b l cs) s = .next (failedWith 3 (entryRead b l cs s)) := by
  obtain ⟨e, he, hk⟩ := hd
  obtain ⟨_, h⟩ | ⟨hn, _⟩ | ⟨_, hn, _⟩ := exec_hdrEntry_cases (s := s) (b := b) hl
  · exact h
  · exact absurd hk (hn e he)
  · exact absurd hk (hn e he)

variable (hn : ∀ e ∈ usedEntries s, e.key ≠ unpack cs l.toNat)

include hn

theorem exec_hdrEntry_full (hf : 256 ≤ s.dn) : exec (.hdrEntry b l cs) s = .next (failedWith 5 (entryRead b l cs s)) := by
  obtain ⟨⟨e, he, hk⟩, _⟩ | ⟨_, _, h⟩ | ⟨hlt, _⟩ := exec_hdrEntry_cases (s := s) (b := b) hl
  · exact absurd hk (hn e he)
  · exact h
  · exact absurd hlt (Nat.not_lt.mpr hf)

theorem exec_hdrEntry_inserts (hf : s.dn < 256) :
    ∃ D, (∀ j : Fin 256, D[j] = if j.val = s.dn then tableEntry b l cs else s.dtab[j]) ∧
      exec (.hdrEntry b l cs) s = .next { entryRead b l cs s with dtab := D, dn := s.dn + 1 } := by
  obtain ⟨⟨e, he, hk⟩, _⟩ | ⟨_, hge, _⟩ | ⟨_, _, h⟩ := exec_hdrEntry_cases (s := s) (b := b) hl
  · exact absurd hk (hn e he)
  · exact absurd hf (Nat.not_lt.mpr hge)
  · refine ⟨_, fun j => ?_, h⟩
    simp only [Fin.getElem_fin, Vector.getElem_set, eq_comm (a := s.dn)]

end

/-- Settles O36: HDR_ENTRY case by case. -/
theorem headerRecordsExecute : Obligations.HeaderRecordsExecute := by
  refine ⟨fun _ => rfl, fun s b l cs hw => ?_⟩
  obtain ⟨_, hl⟩ := wellFormed_hdrEntry_iff.mp hw
  exact ⟨putBytes s.eBuf 0 cs, fun j => getElem_putBytes cs s.eBuf 0 j j.isLt, exec_hdrEntry_duplicate hl,
    exec_hdrEntry_full hl, exec_hdrEntry_inserts hl⟩

/-! ### The empty key -/

/-- As long as no key in use equals the candidate grown by some of the bits, it only grows (R190). -/
theorem foldl_matchBit_of_no_key (bits : BitString) : ∀ s : State,
    (∀ n, 1 ≤ n → n ≤ bits.length → ∀ e ∈ usedEntries s, e.key ≠ s.cand ++ bits.take n) →
    bits.foldl matchBit s = { s with cand := s.cand ++ bits } := by
  induction bits with
  | nil => intro s _; simp
  | cons bit bits ih =>
    intro s hn
    obtain ⟨e, he, hk, _⟩ | ⟨_, h⟩ := matchBit_cases s bit
    · exact absurd hk (hn 1 (Nat.le_refl 1) (by simp) e he)
    · have ih' := ih { s with cand := s.cand ++ [bit] } fun n _ hle e he => by
        simpa using hn (n + 1) (by omega) (by simpa using hle) e he
      rw [List.foldl_cons, h, ih', List.append_assoc]
      rfl

/-- The grown candidate is not empty, so entries of the empty key are never found (R94). -/
theorem find?_key_eq_find?_filter (l : List DecEntry) {cand : BitString} (hc : cand ≠ []) :
    l.find? (fun e => decide (e.key = cand)) =
      (l.filter (fun e => decide (e.key ≠ []))).find? (fun e => decide (e.key = cand)) := by
  rw [List.find?_filter]
  congr 1
  funext e
  by_cases h : e.key = cand <;> simp [h, hc]

/-- A decode table that differs from the state's in entries of the empty key only (R94). -/
def SameKeys (D : Vector DecEntry 256) (n : Nat) (s : State) : Prop :=
  (usedEntries { s with dtab := D, dn := n }).filter (fun e => decide (e.key ≠ [])) =
    (usedEntries s).filter (fun e => decide (e.key ≠ []))

section

variable {D : Vector DecEntry 256} {n : Nat}

theorem matchBit_of_sameKeys {s : State} (h : SameKeys D n s) (bit : Bool) :
    matchBit { s with dtab := D, dn := n } bit = { matchBit s bit with dtab := D, dn := n } := by
  have hc : s.cand ++ [bit] ≠ [] := List.append_ne_nil_of_right_ne_nil _ (List.cons_ne_nil _ _)
  have hf : (usedEntries { s with dtab := D, dn := n }).find? (fun e => decide (e.key = s.cand ++ [bit])) =
      (usedEntries s).find? (fun e => decide (e.key = s.cand ++ [bit])) := by
    rw [find?_key_eq_find?_filter _ hc, h, ← find?_key_eq_find?_filter _ hc]
  cases hm : (usedEntries s).find? (fun e => decide (e.key = s.cand ++ [bit])) with
  | some e => simp only [matchBit, hf, hm]; rfl
  | none => simp only [matchBit, hf, hm]

theorem SameKeys.matchBit {s : State} (h : SameKeys D n s) (bit : Bool) : SameKeys D n (matchBit s bit) := by
  obtain ⟨e, _, _, he⟩ | ⟨_, he⟩ := matchBit_cases s bit <;> rw [he] <;> exact h

theorem foldl_matchBit_of_sameKeys (bits : BitString) : ∀ {s : State}, SameKeys D n s →
    bits.foldl matchBit { s with dtab := D, dn := n } = { bits.foldl matchBit s with dtab := D, dn := n } := by
  induction bits with
  | nil => intro s _; rfl
  | cons bit bits ih =>
    intro s h
    rw [List.foldl_cons, List.foldl_cons, matchBit_of_sameKeys h, ih (h.matchBit bit)]

end

/-- PAYLOAD_BYTE gives its bits to the matcher (R189). -/
theorem exec_payloadByte (b : Byte) (s : State) : exec (.payloadByte b) s = .next ((byteBits b).foldl matchBit s) :=
  congrArg Host.Outcome.next (matchByte_eq b s)

/-- Settles O37: the entry by HDR_ENTRY's cases, the payload byte bit by bit. -/
theorem emptyKeyIsInert : Obligations.EmptyKeyIsInert := by
  refine ⟨fun s b hd => exec_hdrEntry_duplicate rfl hd, fun s b hn hf => exec_hdrEntry_inserts rfl hn hf, fun s b he => ?_,
    fun s b D n (h : SameKeys D n s) => ?_⟩
  · rw [exec_payloadByte, foldl_matchBit_of_no_key]
    intro n hn hle e hm hk
    have hlen := congrArg List.length ((he e hm).symm.trans hk)
    rw [List.length_append, List.length_take, List.length_nil] at hlen
    omega
  · obtain ⟨syms, cand, _, hb⟩ := foldl_matchBit (byteBits b) s
    refine ⟨syms, cand, ?_, ?_⟩
    · rw [exec_payloadByte, hb]
    · rw [exec_payloadByte, foldl_matchBit_of_sameKeys _ h, hb]
      rfl

end Sys2Proof.Machine

/-! The counts of the Frequency Analyzer: what FREQ_SCAN leaves in `FREQ`, and that no other operation of the block writes it
(40_frequency_analyzer.md). -/

namespace Sys2Proof.Machine

/-! ### What FREQ_SCAN counts -/

/-- On cleared counters the count of a symbol is exact as long as `CW` bits hold the input's length (R112, R113). -/
theorem toNat_lookSym_count {input : List Byte} (hl : input.length < 2 ^ 64) {freq : Vector Count Config.NSYMVALS} {c : Byte}
    (h0 : lookSym freq c = 0) :
    (lookSym (input.foldl (fun f b => putSym f b (lookSym f b + 1)) freq) c).toNat = input.count c := by
  rw [lookSym_count, h0, zero_add, BitVec.toNat_ofNat, Nat.mod_eq_of_lt (List.count_le_length.trans_lt hl)]

/-- The list of all symbols is the list of present ones where every count is 1. -/
theorem nodup_allSymbols : allSymbols.Nodup := by
  simpa [presentSymbols] using nodup_presentSymbols (Vector.replicate _ 1)

/-- The counts along a list that names every element of another, each once, add up to the other's length. -/
theorem sum_count_of_nodup {α : Type} [DecidableEq α] {l input : List α} (hn : l.Nodup) (hm : ∀ c ∈ input, c ∈ l) :
    (l.map input.count).sum = input.length := by
  rw [← List.sum_toFinset _ hn]
  simpa using Multiset.sum_count_eq_card (m := (input : Multiset α)) fun c hc => List.mem_toFinset.mpr (hm c hc)

/-- Settles O14, by the counting loop. -/
theorem freqScanCountsTheSource : Obligations.FreqScanCountsTheSource := by
  intro s hl
  obtain ⟨t, ht⟩ := exists_execFreqScan hl
  obtain ⟨_, F, hF, rfl⟩ := execFreqScan_next ht
  exact ⟨F, fun c => hF ▸ lookSym_count (unread s) c s.freq, ht⟩

/-! ### Which operations write `FREQ` -/

theorem freq_execTreeSeed {s t : State} (he : execTreeSeed s = .next t) : t.freq = s.freq := by
  obtain ⟨_, _, _, _, _, rfl, _, _, rfl⟩ := execTreeSeed_next he
  exact endBuild_freq _

theorem freq_execTreeMerge {s t : State} (he : execTreeMerge s = .next t) : t.freq = s.freq := by
  obtain ⟨_, _, _, rfl⟩ | ⟨_, _, _, _, _, rfl⟩ := execTreeMerge_next he <;> exact endBuild_freq _

theorem freq_execCodeAssign {s t : State} (he : execCodeAssign s = .next t) : t.freq = s.freq := by
  obtain ⟨_, rfl, _⟩ := execCodeAssign_next he
  rfl

/-- Of the operations `PHASE` selects only FREQ_SCAN writes `FREQ` (R112). -/
theorem freq_of_selected {s t : State} {i : Instr} (hp : s.phase ≠ .cFreq) (hi : selected s = some i)
    (he : exec i s = .next t) : t.freq = s.freq := by
  cases selected_cases hi with
  | freqScan h => exact absurd h hp
  | treeSeed => exact freq_execTreeSeed he
  | treeMerge => exact freq_execTreeMerge he
  | codeAssign => exact freq_execCodeAssign he
  | serHeader => exact (sameTables_execSerHeader he).freq
  | serTerm => exact (sameTables_execSerTerm he).freq
  | serPayload => exact (sameTables_execSerPayload he).freq
  | serFlush => exact (sameTables_execSerFlush he).freq
  | desHeader => exact (sameTables_execDesHeader he).freq
  | desPayload => exact (sameTables_execDesPayload he).freq
  | packBits => exact (sameTables_execPackBits he).freq
  | unpackBits => exact (sameTables_execUnpackBits he).freq

/-- A step of the block, in no phase but `C_FREQ`, leaves `FREQ` as it is (R112). -/
theorem freq_of_step {s t : State} (hin : s.inbox = []) (hr : s.rst = false) (hp : s.phase ≠ .cFreq)
    (h : step s = .next t) : t.freq = s.freq := by
  rw [step_of_inbox_nil hin] at h
  cases hi : selected s with
  | none =>
    obtain rfl := Host.Outcome.next.inj ((advance_of_none hr hi).symm.trans h)
    rfl
  | some i => exact freq_of_selected hp hi ((advance_of_free hr hi).symm.trans h)

/-- Settles O15: the counts are those of the counting loop, and each operation but FREQ_SCAN keeps them. -/
theorem frequenciesSumToTheInputLength : Obligations.FrequenciesSumToTheInputLength := by
  refine ⟨fun s t h0 he => ?_, fun s t => freq_of_step⟩
  obtain ⟨hl, F, rfl, rfl⟩ := execFreqScan_next he
  have hcount := fun c => toNat_lookSym_count hl (h0 c)
  refine ⟨hcount, ?_⟩
  rw [List.map_congr_left fun c _ => hcount c]
  exact sum_count_of_nodup nodup_allSymbols fun c _ => mem_allSymbols c

/-! ### What FREQ_SCAN refuses -/

/-- Settles O16: the length is compared before anything is read. -/
theorem freqScanRefusesUncountableInputs : Obligations.FreqScanRefusesUncountableInputs := by
  intro s hl
  rw [← srcLeft_eq] at hl
  exact if_pos hl

end Sys2Proof.Machine

/-! The Tree Builder: the order of the queue, and what TREE_SEED and TREE_MERGE do (41_tree_builder.md). -/

namespace Sys2Proof.Machine

/-! ### The order of the queue -/

section

variable {node : Vector Node Config.NODE_CAP} {q : List ArenaIx} {a b i j k : ArenaIx}

/-- The place of a node in the queue's order: its frequency, then its index (R121). -/
def rank (node : Vector Node Config.NODE_CAP) (i : ArenaIx) : ℕ ×ₗ ArenaIx := toLex (node[i].freq.toNat, i)

theorem earlier_iff_rank_lt : Earlier node i j ↔ rank node i < rank node j := by
  rw [rank, rank, Prod.Lex.toLex_lt_toLex, Earlier, BitVec.lt_def, ← BitVec.toNat_inj]

theorem rank_injective : Function.Injective (rank node) := fun _ _ h => congrArg (fun x => (ofLex x).2) h

theorem Earlier.trans (h : Earlier node i j) (h' : Earlier node j k) : Earlier node i k :=
  earlier_iff_rank_lt.mpr ((earlier_iff_rank_lt.mp h).trans (earlier_iff_rank_lt.mp h'))

theorem Earlier.asymm (h : Earlier node i j) : ¬ Earlier node j i := fun h' =>
  lt_asymm (earlier_iff_rank_lt.mp h) (earlier_iff_rank_lt.mp h')

theorem earlier_of_not_earlier (hne : i ≠ j) (h : ¬ Earlier node i j) : Earlier node j i :=
  earlier_iff_rank_lt.mpr (lt_of_le_of_ne (not_lt.mp (mt earlier_iff_rank_lt.mpr h)) (rank_injective.ne hne.symm))

theorem before_iff_earlier : before node i j = true ↔ Earlier node i j := by simp [before, Earlier]

/-- The node is in the queue and comes before every other (R121). -/
def IsLowest (node : Vector Node Config.NODE_CAP) (q : List ArenaIx) (a : ArenaIx) : Prop :=
  a ∈ q ∧ ∀ i ∈ q, i ≠ a → Earlier node a i

theorem IsLowest.unique (ha : IsLowest node q a) (hb : IsLowest node q b) : a = b := by
  by_contra hne
  exact (ha.2 b hb.1 (Ne.symm hne)).asymm (hb.2 a ha.1 hne)

theorem isLowest_singleton (i : ArenaIx) : IsLowest node [i] i :=
  ⟨List.mem_singleton_self i, fun _ hj hne => absurd (List.mem_singleton.mp hj) hne⟩

/-- A node before the lowest of the rest is the lowest. -/
theorem IsLowest.cons_of_earlier (hj : IsLowest node q j) (h : Earlier node i j) : IsLowest node (i :: q) i := by
  refine ⟨List.mem_cons_self, fun k hk hne => ?_⟩
  by_cases hkj : k = j
  · exact hkj ▸ h
  · exact h.trans (hj.2 k ((List.mem_cons.mp hk).resolve_left hne) hkj)

/-- A node not before the lowest of the rest leaves it the lowest. -/
theorem IsLowest.cons_of_not_earlier (hj : IsLowest node q j) (h : ¬ Earlier node i j) : IsLowest node (i :: q) j := by
  refine ⟨List.mem_cons_of_mem _ hj.1, fun k hk hne => ?_⟩
  obtain rfl | hk := List.mem_cons.mp hk
  · exact earlier_of_not_earlier hne h
  · exact hj.2 k hk hne

theorem isLowest_of_least : ∀ {q : List ArenaIx} {a : ArenaIx}, least node q = some a → IsLowest node q a := by
  intro q
  induction q with
  | nil => intro a h; cases h
  | cons i q ih =>
    intro a h
    cases hq : least node q with
    | none =>
      obtain rfl : q = [] := by
        by_contra hne
        obtain ⟨j, hj⟩ := exists_least node hne
        exact Option.some_ne_none j (hj.symm.trans hq)
      obtain rfl : i = a := Option.some.inj h
      exact isLowest_singleton i
    | some j =>
      simp only [least, hq] at h
      split at h <;> cases h
      · next hij => exact (ih hq).cons_of_earlier (before_iff_earlier.mp hij)
      · next hij => exact (ih hq).cons_of_not_earlier (mt before_iff_earlier.mpr hij)

/-- What `least` answers, by the order alone (R14, R121). -/
theorem least_eq_some_iff : least node q = some a ↔ IsLowest node q a := by
  refine ⟨isLowest_of_least, fun h => ?_⟩
  obtain ⟨b, hb⟩ := exists_least node (List.ne_nil_of_mem h.1)
  rw [hb, (isLowest_of_least hb).unique h]

end

/-- Settles O20. -/
theorem leastIsTheArgmin : Obligations.LeastIsTheArgmin := by
  refine ⟨mem_queue, fun node q hq => ?_⟩
  obtain ⟨a, ha⟩ := exists_least node hq
  obtain ⟨hmem, hlow⟩ := isLowest_of_least ha
  exact ⟨a, hmem, ha, hlow⟩

/-! ### The end of the phase -/

@[simp] theorem queue_endBuild (s : State) : queue (endBuild s) = queue s := by simp [queue]

/-- The end of the Tree Builder as one update: `r` is any node that is in the queue when it holds one node only (R125). -/
theorem endBuild_eq_ite {s : State} {r : ArenaIx} (hr : (queue s).length = 1 → r ∈ queue s) :
    endBuild s = { s with
      root := if (queue s).length = 1 then r else s.root
      phase := if (queue s).length = 1 then .cAssign else s.phase } := by
  obtain ⟨r', hq, he⟩ | ⟨hl, he⟩ := endBuild_cases s
  · have hl : (queue s).length = 1 := by rw [hq]; rfl
    have hr := hr hl
    rw [hq, List.mem_singleton] at hr
    rw [he, if_pos hl, if_pos hl, hr]
  · rw [he, if_neg hl, if_neg hl]

/-! ### TREE_SEED -/

/-- Settles O17, by the seeding of an empty arena. -/
theorem treeSeedMakesTheLeaves : Obligations.TreeSeedMakesTheLeaves := by
  intro s h0
  obtain ⟨t, ht⟩ := exists_execTreeSeed h0
  obtain ⟨_, N, Q, n, hs, rfl, -, -, rfl⟩ := execTreeSeed_next ht
  obtain ⟨-, hn, hnew⟩ := seedLeaves_allSymbols h0 hs
  obtain ⟨-, hlen⟩ := forest_of_seedLeaves h0 hs
  dsimp only at hn hnew
  refine ⟨N, Q, fun j => ?_, fun j => by rw [(hnew j).2, hn], ht.trans ?_⟩
  · rw [(hnew j).1]
    cases (presentSymbols s.freq)[j.val]? <;> rfl
  · have hroot : (presentSymbols s.freq).length = 1 → (0 : ArenaIx) ∈ queue { s with node := N, inq := Q, nnodes := n } := by
      intro h1
      rw [mem_queue, (hnew 0).2]
      simp [hn, h1]
    rw [endBuild_eq_ite (hlen ▸ hroot), hlen, hn]

/-! ### TREE_MERGE -/

section

variable {s : State} {a b : ArenaIx}

/-- The second node removed is the lowest of those that are not the first (R124). -/
theorem isLowest_dequeue_iff : IsLowest s.node (queue (dequeue a s)) b ↔
    b ∈ queue s ∧ b ≠ a ∧ ∀ i ∈ queue s, i ≠ a → i ≠ b → Earlier s.node b i := by
  simp only [IsLowest, mem_queue_dequeue, and_imp, and_assoc]

/-- TREE_MERGE joins the two lowest nodes when there are two and the arena has room (R124). -/
theorem execTreeMerge_of_isLowest (ha : IsLowest s.node (queue s) a) (hb : IsLowest s.node (queue (dequeue a s)) b)
    (hn : s.nnodes < Config.NODE_CAP) : execTreeMerge s = .next (endBuild (merged a b s hn)) := by
  obtain ⟨hf, _⟩ | ⟨_, h1⟩ := pushNode_cases (mergeNode s.node a b) (dequeue b (dequeue a s))
  · exact absurd hn (Nat.not_lt.mpr hf)
  · simp only [execTreeMerge, least_eq_some_iff.mpr ha, dequeue_node, least_eq_some_iff.mpr hb, h1]
    rfl

/-- A queue of two or more has a lowest node and, without it, a lowest again (R124). -/
theorem exists_two_isLowest (h2 : 2 ≤ (queue s).length) :
    ∃ a b, IsLowest s.node (queue s) a ∧ IsLowest s.node (queue (dequeue a s)) b := by
  obtain ⟨a, ha⟩ := exists_least s.node (q := queue s) (List.length_pos_iff.mp (by omega))
  obtain ⟨i, hi, hne⟩ := Finset.exists_mem_ne (s := (queue s).toFinset)
    (by rw [List.toFinset_card_of_nodup (nodup_queue s)]; exact h2) a
  obtain ⟨b, hb⟩ := exists_least s.node
    (List.ne_nil_of_mem ((mem_queue_dequeue s a i).mpr ⟨List.mem_toFinset.mp hi, hne⟩))
  exact ⟨a, b, isLowest_of_least ha, isLowest_of_least hb⟩

/-- A queue of one node is merged no further (R125; log 8). -/
theorem execTreeMerge_of_singleton {r : ArenaIx} (hq : queue s = [r]) :
    execTreeMerge s = .next { s with root := r, phase := .cAssign } := by
  have hrest : queue (dequeue r s) = [] := List.eq_nil_iff_forall_not_mem.mpr fun i hi => by
    obtain ⟨hi, hne⟩ := (mem_queue_dequeue s r i).mp hi
    rw [hq] at hi
    exact hne (List.mem_singleton.mp hi)
  rw [← endBuild_of_singleton hq]
  simp only [execTreeMerge, hq, hrest, least]

end

/-- Settles O18: the two nodes are the lowest and the next, and the new one is in the queue. -/
theorem treeMergeJoinsTheTwoLowest : Obligations.TreeMergeJoinsTheTwoLowest := by
  intro s a b m hm ha hb hab hlowA hlowB
  have hn : s.nnodes < Config.NODE_CAP := hm ▸ m.isLt
  obtain rfl : m = ⟨s.nnodes, hn⟩ := Fin.ext hm.symm
  have hlen := queue_merged_length ha hb hab hn
  have hone : (queue (merged a b s hn)).length = 1 ↔ (queue s).length = 2 := by omega
  refine ⟨(merged a b s hn).node, (merged a b s hn).inq, fun j => ?_, fun j => ?_, ?_⟩
  · split
    · next hj => subst hj; exact merged_node_new hn
    · next hj => exact merged_node_old hn fun e => hj (Fin.ext e.symm)
  · simp only [merged, Fin.getElem_fin, Vector.getElem_set, Fin.ext_iff, eq_comm (a := j.val)]
    split
    · rfl
    · by_cases h1 : b.val = j.val <;> by_cases h2 : a.val = j.val <;> simp [h1, h2]
  · refine (execTreeMerge_of_isLowest ⟨ha, hlowA⟩ (isLowest_dequeue_iff.mpr ⟨hb, hab.symm, hlowB⟩) hn).trans ?_
    rw [endBuild_eq_ite fun _ => (mem_queue_merged hn _).mpr (.inl rfl)]
    simp only [hone]
    rfl

/-- Settles O19: a merge of the two lowest, or the end of the phase. -/
theorem treeMergeShrinksTheQueue : Obligations.TreeMergeShrinksTheQueue := by
  refine ⟨fun s h2 hn => ?_, fun s r => execTreeMerge_of_singleton⟩
  obtain ⟨a, b, ha, hb⟩ := exists_two_isLowest h2
  obtain ⟨hbq, hba, -⟩ := isLowest_dequeue_iff.mp hb
  refine ⟨_, execTreeMerge_of_isLowest ha hb hn, ?_, endBuild_nnodes _, ?_⟩
  · rw [queue_endBuild]
    exact queue_merged_length ha.1 hbq hba.symm hn
  · rw [queue_endBuild]
    obtain ⟨r, hq, he⟩ | ⟨hl, he⟩ := endBuild_cases (merged a b s hn)
    · rw [he, hq]
      exact ⟨rfl, rfl⟩
    · rw [if_neg hl, he]
      rfl

end Sys2Proof.Machine

/-! From the invariants no step meets a stop of the model's own (log 15, log 16): what is left to refuse is an input too long to
count (log 14) and acts of the host (log 12, log 29). -/

namespace Sys2Proof.Machine

theorem State.EncInv.withInbox {s : State} (hE : s.EncInv) (l : List HostAct) : State.EncInv { s with inbox := l } :=
  hE.of_sameTables ⟨rfl, rfl, rfl, rfl, rfl, rfl, rfl⟩ rfl

/-- The operation `PHASE` selects completes, or refuses an input too long to count (R113, R128, R139). -/
theorem exec_selected_answers {s : State} {i : Instr} (hE : s.EncInv) (hi : selected s = some i) :
    (∃ t, exec i s = .next t) ∨ exec i s = .refused .inputTooLong := by
  cases selected_cases hi with
  | freqScan =>
    obtain hl | hl := lt_or_ge (unread s).length (2 ^ 64)
    · exact .inl (exists_execFreqScan hl)
    · exact .inr (freqScanRefusesUncountableInputs s hl)
  | treeSeed _ h0 => exact .inl (exists_execTreeSeed h0)
  | treeMerge hp h0 =>
    obtain ⟨_, hF⟩ := (encInv_iff_cBuild hp).mp hE
    obtain ⟨hF, h2⟩ := hF.resolve_left h0
    obtain ⟨a, b, hn, -, -, -, he⟩ := execTreeMerge_of_forest hF h2
    exact .inl ⟨_, he⟩
  | codeAssign hp =>
    obtain ⟨_, hF, hq⟩ := (encInv_iff_cAssign hp).mp hE
    exact .inl (exists_execCodeAssign hF hq)
  | serHeader => exact .inl ⟨_, execSerHeader_eq s⟩
  | serTerm => exact .inl ⟨_, rfl⟩
  | serPayload => obtain ⟨_, h⟩ | ⟨_, _, _, _, h⟩ | ⟨_, _, _, _, h⟩ := execSerPayload_cases s <;> exact .inl ⟨_, h⟩
  | serFlush => exact .inl ⟨_, execSerFlush_eq s⟩
  | desHeader => exact .inl ⟨_, execDesHeader_eq s⟩
  | desPayload => obtain ⟨_, h⟩ | ⟨_, _, _, h⟩ := execDesPayload_cases s <;> exact .inl ⟨_, h⟩
  | packBits => obtain ⟨_, _, h⟩ | ⟨_, _, _, _, _, h⟩ := execPackBits_cases s <;> exact .inl ⟨_, h⟩
  | unpackBits => obtain ⟨_, _, _, _, h⟩ | ⟨_, h⟩ := execUnpackBits_cases s <;> exact .inl ⟨_, h⟩

theorem advance_answers {s : State} (hE : s.EncInv) : (∃ t, advance s = .next t) ∨ advance s = .refused .inputTooLong := by
  cases hr : s.rst with
  | true => exact .inl ⟨_, advance_of_held hr⟩
  | false =>
    cases hi : selected s with
    | none => exact .inl ⟨_, advance_of_none hr hi⟩
    | some i => rw [advance_of_free hr hi]; exact exec_selected_answers hE hi

/-- An act of the host is done, or refused as the spec or R52 says, or lets the block on to an input too long to count
(R113, R262; log 12, log 29). -/
theorem hostAct_answers {s : State} (hE : s.EncInv) (a : HostAct) :
    (∃ t, hostAct a s = .next t) ∨ hostAct a s = .refused .inputTooLong ∨
      hostAct a s = .refused .hostDuty ∨ hostAct a s = .refused .cursorPastEnd := by
  have hadvance : ∀ l, (∃ t, advance { s with inbox := l } = .next t) ∨
      advance { s with inbox := l } = .refused .inputTooLong := fun l => advance_answers (hE.withInbox l)
  cases a <;> simp only [hostAct]
  case writeCmd b => split <;> simp [exec_decodeCmd]
  case writeLenArg | presentSource => split_ifs <;> simp
  case changeSource | presentSink => split <;> simp
  case assertRst | releaseRst => simp
  case pass => exact (hadvance s.inbox).imp_right .inl
  case poll =>
    split
    · exact (hadvance (.poll :: s.inbox)).imp_right .inl
    · simp

/-- Settles O42, by the host's acts and the block's operations. -/
theorem noRunMeetsAnInternalStop : Obligations.NoRunMeetsAnInternalStop := by
  intro s _ hE
  cases hin : s.inbox with
  | nil =>
    rw [step_of_inbox_nil hin]
    exact (advance_answers hE).imp_right .inl
  | cons a rest =>
    rw [step_of_inbox_cons hin]
    exact (hostAct_answers (hE.withInbox rest) a).imp_right (.imp_right fun h => ⟨a, rest, rfl, h⟩)

end Sys2Proof.Machine

/-! CODE_ASSIGN: the code table it leaves for one symbol and for a tree (42_code_assigner.md). -/

namespace Sys2Proof.Machine

theorem execCodeAssign_of_one_symbol {s : State} (h1 : s.nsym = 1) :
    execCodeAssign s = .next { s with
      code := putSym s.code s.node[(0 : ArenaIx)].sym { valid := true, len := 1, bits := [false] }
      phase := .cHeader } := if_pos h1

/-- The walk completes on a tree none of whose leaves is too deep, and leaves each leaf's turns (R136, R139). -/
theorem execCodeAssign_of_treeAt {s : State} {codes : List (Byte × BitString)} (h1 : s.nsym ≠ 1)
    (ht : TreeAt s.node s.root codes) (hlen : ∀ x ∈ codes, x.2.length ≤ 255) :
    execCodeAssign s = .next { s with code := assign [] codes s.code, phase := .cHeader } := by
  have hvisit := (visit_eq_some_iff ht (Config.MAXLEN + 1) [] s.code _).mpr
    ⟨fun x hx => Nat.lt_succ_of_le (hlen x hx), rfl⟩
  rw [execCodeAssign, if_neg h1, hvisit]

/-- Settles O21: one entry of the table is written. -/
theorem codeAssignForOneSymbol : Obligations.CodeAssignForOneSymbol := fun _ h1 =>
  ⟨_, fun _ => (lookSym_putSym ..).trans (if_congr eq_comm rfl rfl), execCodeAssign_of_one_symbol h1⟩

/-- Settles O22, by the walk of the tree. -/
theorem codeAssignWalksTheTree : Obligations.CodeAssignWalksTheTree := by
  intro s codes h2 ht hnodup hlen
  exact ⟨_, fun x hx => lookSym_assign_of_mem [] hnodup hx s.code, fun c hc => lookSym_assign_of_not_mem [] codes hc s.code,
    execCodeAssign_of_treeAt (by omega) ht hlen⟩

end Sys2Proof.Machine

/-! A symbol that occurs more often has no longer code (R143). In a tree the merges build, of two nodes the deeper one was taken from
the queue first: so of their parents, and so up to the root. -/

namespace Sys2Proof.Machine

/-! ### Children and depths -/

section

variable {node : Vector Node Config.NODE_CAP} {n k : Nat} {c i j r x : ArenaIx}

theorem freq_le_of_earlier (h : Earlier node i j) : node[i].freq.toNat ≤ node[j].freq.toNat :=
  h.elim (fun hlt => (BitVec.lt_def.mp hlt).le) fun ⟨he, _⟩ => (congrArg BitVec.toNat he).le

theorem earlier_of_freq_le (hf : node[i].freq.toNat ≤ node[j].freq.toNat) (hij : i < j) : Earlier node i j :=
  earlier_iff_rank_lt.mpr (Prod.Lex.toLex_lt_toLex.mpr (hf.lt_or_eq.imp_right fun he => ⟨he, hij⟩))

/-- `c` is a child of the internal node `i` (R29). -/
def Child (node : Vector Node Config.NODE_CAP) (c i : ArenaIx) : Prop :=
  node[i].kind = .internal ∧ (c = node[i].left ∨ c = node[i].right)

theorem Child.lt (h : Child node c i) (hc : ChildrenBelow node n) (hi : i.val < n) : c.val < i.val := by
  obtain ⟨hk, rfl | rfl⟩ := h
  exacts [(hc i hi hk).1, (hc i hi hk).2]

/-- A child comes before its parent and, of two parents, the earlier one's children come before the other's. -/
structure Ordered (node : Vector Node Config.NODE_CAP) (n : Nat) : Prop where
  below    : ChildrenBelow node n
  parent   : ∀ {i c : ArenaIx}, i.val < n → Child node c i → Earlier node c i
  children : ∀ {i j c d : ArenaIx}, i.val < n → j.val < n → Earlier node i j → Child node c i → Child node d j →
    Earlier node c d

/-- That many turns lead from `r` down to the node. -/
inductive AtDepth (node : Vector Node Config.NODE_CAP) (r : ArenaIx) : Nat → ArenaIx → Prop where
  | root : AtDepth node r 0 r
  | child {k : Nat} {i c : ArenaIx} (hi : AtDepth node r k i) (hc : Child node c i) : AtDepth node r (k + 1) c

theorem AtDepth.lt (h : AtDepth node r k x) (hc : ChildrenBelow node n) (hr : r.val < n) : x.val < n := by
  induction h with
  | root => exact hr
  | child _ hx ih => exact (hx.lt hc ih).trans ih

/-- The root comes after every node below it. -/
theorem AtDepth.earlier_root (h : AtDepth node r k x) (ho : Ordered node n) (hr : r.val < n) (hk : 0 < k) :
    Earlier node x r := by
  induction h with
  | root => cases hk
  | @child k i c hi hx ih =>
    have hxi := ho.parent (hi.lt ho.below hr) hx
    cases hi with
    | root => exact hxi
    | child => exact hxi.trans (ih (Nat.succ_pos _))

/-- Of two nodes of a tree the deeper one comes first. -/
theorem AtDepth.earlier_of_lt (ho : Ordered node n) (hr : r.val < n) (hx : AtDepth node r k x) :
    ∀ {m : Nat} {y : ArenaIx}, AtDepth node r m y → k < m → Earlier node y x := by
  induction hx with
  | root => exact fun hy hm => hy.earlier_root ho hr hm
  | child hi hx ih =>
    intro m y hy hm
    cases hy with
    | root => cases hm
    | child hj hy =>
      exact ho.children (hj.lt ho.below hr) (hi.lt ho.below hr) (ih hj (Nat.lt_of_succ_lt_succ hm)) hy hx

/-- A leaf stands as deep as its turns are many. -/
theorem TreeAt.exists_atDepth {l : List (Byte × BitString)} (ht : TreeAt node i l) :
    ∀ {k : Nat}, AtDepth node r k i → ∀ z ∈ l, ∃ j, AtDepth node r (k + z.2.length) j ∧ node[j].kind = .leaf ∧ node[j].sym = z.1 := by
  induction ht with
  | leaf i h =>
    intro k hi z hz
    obtain rfl := List.mem_singleton.mp hz
    exact ⟨i, hi, h, rfl⟩
  | internal i _ _ h _ _ ihl ihr =>
    intro k hi z hz
    obtain hz | hz := List.mem_append.mp hz <;> obtain ⟨w, hw, rfl⟩ := List.mem_map.mp hz
    · rw [List.length_cons, Nat.add_comm w.2.length, ← Nat.add_assoc]
      exact ihl (hi.child ⟨h, .inl rfl⟩) w hw
    · rw [List.length_cons, Nat.add_comm w.2.length, ← Nat.add_assoc]
      exact ihr (hi.child ⟨h, .inr rfl⟩) w hw

end

/-! ### The order the merges keep -/

/-- The sum of the frequencies of these nodes, unbounded. -/
def weight (node : Vector Node Config.NODE_CAP) (l : List ArenaIx) : Nat := (l.map fun i => node[i].freq.toNat).sum

/-- The sum of all counts, unbounded (R112). -/
def countSum (freq : Vector Count Config.NSYMVALS) : Nat := ((presentSymbols freq).map fun c => (lookSym freq c).toNat).sum

/-- What holds of the arena between two merges: frequencies are exact, children were taken from the queue in the order of their
parents, and before what is still in it (R121, R122, R124). -/
structure Huffman (s : State) : Prop where
  counts   : countSum s.freq < 2 ^ 64
  queued   : weight s.node (queue s) < 2 ^ 64
  leaf     : ∀ i : ArenaIx, i.val < s.nnodes → s.node[i].kind = .leaf → s.node[i].freq = lookSym s.freq s.node[i].sym
  sum      : ∀ i l r : ArenaIx, i.val < s.nnodes → s.node[i].kind = .internal → s.node[i].left = l → s.node[i].right = r →
    s.node[i].freq.toNat = s.node[l].freq.toNat + s.node[r].freq.toNat
  children : ∀ {i j c d : ArenaIx}, i.val < s.nnodes → j.val < s.nnodes → Earlier s.node i j → Child s.node c i →
    Child s.node d j → Earlier s.node c d
  removed  : ∀ {i c q : ArenaIx}, i.val < s.nnodes → Child s.node c i → q ∈ queue s → Earlier s.node c q

theorem Huffman.ordered {s : State} (h : Huffman s) (hc : ChildrenBelow s.node s.nnodes) : Ordered s.node s.nnodes where
  below := hc
  parent {i c} hi hci := by
    refine earlier_of_freq_le ?_ (hci.lt hc hi)
    have hsum := h.sum i _ _ hi hci.1 rfl rfl
    obtain ⟨_, rfl | rfl⟩ := hci <;> omega
  children := h.children

/-- Of two leaves of the finished tree the one with the higher count is not the deeper one (R143). -/
theorem Huffman.length_le_of_count_lt {s : State} (h : Huffman s) (hF : Forest s) (hq : queue s = [s.root])
    {codes : List (Byte × BitString)} (ht : TreeAt s.node s.root codes) {x y : Byte × BitString} (hx : x ∈ codes) (hy : y ∈ codes)
    (hlt : lookSym s.freq y.1 < lookSym s.freq x.1) : x.2.length ≤ y.2.length := by
  by_contra hlen
  have hr : s.root.val < s.nnodes := lt_nnodes_of_mem_queue (by rw [hq]; exact List.mem_cons_self)
  have ho := h.ordered hF.1
  obtain ⟨i, hi, hik, his⟩ := ht.exists_atDepth .root x hx
  obtain ⟨j, hj, hjk, hjs⟩ := ht.exists_atDepth .root y hy
  have hle := freq_le_of_earlier (hj.earlier_of_lt ho hr hi (by omega))
  rw [h.leaf i (hi.lt ho.below hr) hik, h.leaf j (hj.lt ho.below hr) hjk, his, hjs] at hle
  exact absurd (BitVec.lt_def.mp hlt) (Nat.not_lt.mpr hle)

theorem Huffman.endBuild {s : State} (h : Huffman s) : Huffman (endBuild s) := by
  obtain ⟨_, _, he⟩ | ⟨_, he⟩ := endBuild_cases s <;> rw [he]
  · exact { h with }
  · exact h

/-- An empty arena, with counts that 64 bits can hold the sum of. -/
theorem huffman_of_empty {s : State} (h0 : s.nnodes = 0) (hsum : countSum s.freq < 2 ^ 64) : Huffman s := by
  have hq : queue s = [] := List.eq_nil_iff_forall_not_mem.mpr fun i hi =>
    Nat.not_lt_zero _ (h0 ▸ lt_nnodes_of_mem_queue hi)
  constructor
  case counts => exact hsum
  case queued => rw [hq]; exact Nat.two_pow_pos 64
  all_goals intros; omega

/-- Seeding puts the counts into the queue (R122). -/
theorem huffman_of_seedLeaves {s t : State} (h0 : s.nnodes = 0) (h : seedLeaves allSymbols s = some t)
    (hsum : countSum s.freq < 2 ^ 64) : Huffman t := by
  obtain ⟨hfreq, hk, -⟩ := seedLeaves_allSymbols h0 h
  have hleaf := node_of_seedLeaves h0 h
  have hcap : (presentSymbols s.freq).length ≤ Config.NODE_CAP := (presentSymbols_length_le _).trans (by decide)
  have hkind : ∀ i c : ArenaIx, i.val < t.nnodes → ¬ Child t.node c i := fun i c hi hc => by
    have := hc.1
    rw [hleaf i (hk ▸ hi)] at this
    cases this
  have hweight : weight t.node (queue t) = countSum s.freq := by
    refine ((queue_of_seedLeaves h0 h hcap).map _).sum_eq.trans (congrArg List.sum ?_)
    rw [indicesBelow, List.map_map]
    refine List.ext_getElem (by simp) fun k h1 h2 => ?_
    simp only [List.getElem_map, List.getElem_finRange, Function.comp_apply]
    rw [hleaf _ (by simpa using h2)]
    rfl
  constructor
  case counts => rwa [hfreq]
  case queued => rwa [hweight]
  case leaf =>
    intro i hi _
    rw [hleaf i (hk ▸ hi), hfreq]
    rfl
  case sum => exact fun i _ _ hi hk _ _ => absurd ⟨hk, .inl rfl⟩ (hkind i _ hi)
  case children => exact fun hi _ _ hc _ => absurd hc (hkind _ _ hi)
  case removed => exact fun hi hc _ => absurd hc (hkind _ _ hi)

section

variable {s : State} {a b c i j : ArenaIx} (hn : s.nnodes < Config.NODE_CAP)

theorem child_merged_old (hi : i.val < s.nnodes) : Child (merged a b s hn).node c i ↔ Child s.node c i := by
  rw [Child, Child, merged_node_old hn hi.ne']

theorem child_merged_new : Child (merged a b s hn).node c ⟨s.nnodes, hn⟩ ↔ c = a ∨ c = b := by
  rw [Child, merged_node_new hn]
  exact and_iff_right rfl

theorem earlier_merged_old (hi : i.val < s.nnodes) (hj : j.val < s.nnodes) :
    Earlier (merged a b s hn).node i j ↔ Earlier s.node i j := by
  rw [Earlier, Earlier, merged_node_old hn hi.ne', merged_node_old hn hj.ne']

theorem old_or_new (hi : i.val < (merged a b s hn).nnodes) : i.val < s.nnodes ∨ i = ⟨s.nnodes, hn⟩ :=
  (Nat.lt_succ_iff_lt_or_eq.mp hi).imp_right Fin.ext

/-- The new node's frequency is the exact sum of those of the two nodes it joins (R124). -/
theorem toNat_freq_merged_new (ha : a ∈ queue s) (hb : b ∈ queue s) (hab : a ≠ b) (hq : weight s.node (queue s) < 2 ^ 64) :
    (merged a b s hn).node[(⟨s.nnodes, hn⟩ : ArenaIx)].freq.toNat = s.node[a].freq.toNat + s.node[b].freq.toNat := by
  have hw : weight s.node (queue s) = weight s.node (a :: b :: others a b s) :=
    ((queue_perm_others ha hb hab).map _).sum_eq
  simp only [weight, List.map_cons, List.sum_cons] at hw hq
  rw [merged_node_new hn]
  exact BitVec.toNat_add_of_lt (show _ < 2 ^ 64 by omega)

/-- A merge leaves the sum of the queue's frequencies as it is. -/
theorem weight_merged (ha : a ∈ queue s) (hb : b ∈ queue s) (hab : a ≠ b) (hq : weight s.node (queue s) < 2 ^ 64) :
    weight (merged a b s hn).node (queue (merged a b s hn)) = weight s.node (queue s) := by
  have hold : ∀ i ∈ others a b s, (merged a b s hn).node[i].freq.toNat = s.node[i].freq.toNat := fun i hi => by
    rw [merged_node_old hn (lt_nnodes_of_mem_queue (mem_others.mp hi).1).ne']
  rw [weight, weight, ((queue_merged_perm_others hn).map _).sum_eq, ((queue_perm_others ha hb hab).map _).sum_eq]
  simp only [List.map_cons, List.sum_cons]
  rw [toNat_freq_merged_new hn ha hb hab hq, List.map_congr_left hold, Nat.add_assoc]

theorem mem_queue_of_joined (ha : a ∈ queue s) (hb : b ∈ queue s) (hc : c = a ∨ c = b) : c ∈ queue s :=
  hc.elim (fun e => e ▸ ha) fun e => e ▸ hb

end

section

variable {s : State} {a b : ArenaIx} (h : Huffman s) (ha : IsLowest s.node (queue s) a)
  (hb : IsLowest s.node (queue (dequeue a s)) b) (hn : s.nnodes < Config.NODE_CAP)
include h ha hb

theorem Huffman.freq_new :
    (merged a b s hn).node[(⟨s.nnodes, hn⟩ : ArenaIx)].freq.toNat = s.node[a].freq.toNat + s.node[b].freq.toNat := by
  obtain ⟨hbq, hba, -⟩ := isLowest_dequeue_iff.mp hb
  exact toNat_freq_merged_new hn ha.1 hbq hba.symm h.queued

/-- An old node comes before the new one when it weighs no more than the two joined. -/
theorem Huffman.earlier_new {i : ArenaIx} (hi : i.val < s.nnodes)
    (hf : s.node[i].freq.toNat ≤ s.node[a].freq.toNat + s.node[b].freq.toNat) :
    Earlier (merged a b s hn).node i ⟨s.nnodes, hn⟩ := by
  refine earlier_of_freq_le ?_ hi
  rw [h.freq_new ha hb hn, merged_node_old hn hi.ne']
  exact hf

/-- The node made last weighs the most: an older one's children came out of the queue before the two joined now. -/
theorem Huffman.earlier_new_of_internal {j : ArenaIx} (hj : j.val < s.nnodes) (hk : s.node[j].kind = .internal) :
    Earlier (merged a b s hn).node j ⟨s.nnodes, hn⟩ := by
  obtain ⟨hbq, -, -⟩ := isLowest_dequeue_iff.mp hb
  refine h.earlier_new ha hb hn hj ?_
  rw [h.sum j _ _ hj hk rfl rfl]
  exact Nat.add_le_add (freq_le_of_earlier (h.removed hj ⟨hk, .inl rfl⟩ ha.1))
    (freq_le_of_earlier (h.removed hj ⟨hk, .inr rfl⟩ hbq))

/-- The two joined come before all that is in the queue after the merge. -/
theorem Huffman.joined_earlier {c q : ArenaIx} (hc : c = a ∨ c = b) (hq : q ∈ queue (merged a b s hn)) :
    Earlier (merged a b s hn).node c q := by
  obtain ⟨hbq, -, hlow⟩ := isLowest_dequeue_iff.mp hb
  have hcn := lt_nnodes_of_mem_queue (mem_queue_of_joined ha.1 hbq hc)
  obtain rfl | hq := (mem_queue_merged hn q).mp hq
  · exact h.earlier_new ha hb hn hcn (by obtain rfl | rfl := hc <;> omega)
  · obtain ⟨hqs, hqa, hqb⟩ := mem_others.mp hq
    rw [earlier_merged_old hn hcn (lt_nnodes_of_mem_queue hqs)]
    obtain rfl | rfl := hc
    exacts [ha.2 q hqs hqa, hlow q hqs hqa hqb]

/-- A merge of the two lowest keeps the order (R121, R124). -/
theorem Huffman.merge (hc : ChildrenBelow s.node s.nnodes) : Huffman (merged a b s hn) := by
  obtain ⟨hbq, hba, -⟩ := isLowest_dequeue_iff.mp hb
  constructor
  case counts => exact h.counts
  case queued => rw [weight_merged hn ha.1 hbq hba.symm h.queued]; exact h.queued
  case leaf =>
    intro i hi hk
    obtain hi | rfl := old_or_new hn hi
    · rw [merged_node_old hn hi.ne'] at hk ⊢
      exact h.leaf i hi hk
    · rw [merged_node_new hn] at hk
      cases hk
  case sum =>
    intro i l r hi hk hl hr
    obtain hi | rfl := old_or_new hn hi
    · rw [merged_node_old hn hi.ne'] at hk hl hr ⊢
      have hlow := hc i hi hk
      rw [hl, hr] at hlow
      obtain ⟨hli, hri⟩ := hlow
      rw [merged_node_old hn (hli.trans hi).ne', merged_node_old hn (hri.trans hi).ne']
      exact h.sum i l r hi hk hl hr
    · rw [merged_node_new hn] at hl hr
      obtain rfl : a = l := hl
      obtain rfl : b = r := hr
      rw [h.freq_new ha hb hn, merged_node_old hn (lt_nnodes_of_mem_queue ha.1).ne',
        merged_node_old hn (lt_nnodes_of_mem_queue hbq).ne']
  case children =>
    intro i j c d hi hj hij hci hdj
    obtain hi | rfl := old_or_new hn hi <;> obtain hj | rfl := old_or_new hn hj
    · rw [child_merged_old hn hi] at hci
      rw [child_merged_old hn hj] at hdj
      rw [earlier_merged_old hn hi hj] at hij
      rw [earlier_merged_old hn ((hci.lt hc hi).trans hi) ((hdj.lt hc hj).trans hj)]
      exact h.children hi hj hij hci hdj
    · rw [child_merged_old hn hi] at hci
      have hd := mem_queue_of_joined ha.1 hbq ((child_merged_new hn).mp hdj)
      rw [earlier_merged_old hn ((hci.lt hc hi).trans hi) (lt_nnodes_of_mem_queue hd)]
      exact h.removed hi hci hd
    · rw [child_merged_old hn hj] at hdj
      exact absurd hij (h.earlier_new_of_internal ha hb hn hj hdj.1).asymm
    · exact absurd hij hij.asymm
  case removed =>
    intro i c q hi hci hq
    obtain hi | rfl := old_or_new hn hi
    · rw [child_merged_old hn hi] at hci
      have hcn := (hci.lt hc hi).trans hi
      obtain rfl | hq := (mem_queue_merged hn q).mp hq
      · have hca := freq_le_of_earlier (h.removed hi hci ha.1)
        exact h.earlier_new ha hb hn hcn (by omega)
      · have hq := (mem_others.mp hq).1
        rw [earlier_merged_old hn hcn (lt_nnodes_of_mem_queue hq)]
        exact h.removed hi hci hq
    · exact h.joined_earlier ha hb hn ((child_merged_new hn).mp hci) hq

end

/-! ### The order along a run -/

/-- Of two symbols with a code the one that is counted more often has no longer code (R143). -/
def CodesFollowCounts (s : State) : Prop :=
  ∀ c d, (lookSym s.code d).valid = true → lookSym s.freq d < lookSym s.freq c →
    (lookSym s.code c).bits.length ≤ (lookSym s.code d).bits.length

/-- A run of COMPRESS before its second pass: the Tree Builder keeps the order, and the Code Assigner's table follows it. -/
structure CountOrdered (s : State) : Prop extends Alone s where
  build  : s.phase = .cBuild ∨ s.phase = .cAssign → Huffman s
  header : s.phase = .cHeader → CodesFollowCounts s

theorem countSum_foldl {input : List Byte} (hl : input.length < 2 ^ 64) {freq : Vector Count Config.NSYMVALS}
    (h0 : ∀ c, lookSym freq c = 0) : countSum (input.foldl (fun f b => putSym f b (lookSym f b + 1)) freq) < 2 ^ 64 := by
  have hcount := fun c => toNat_lookSym_count hl (h0 c)
  rw [countSum, List.map_congr_left fun c _ => hcount c, sum_count_of_nodup (nodup_presentSymbols _) fun c hc => ?_]
  · exact hl
  · rw [mem_presentSymbols, ne_eq, ← BitVec.toNat_inj, hcount]
    exact (List.count_pos_iff.mpr hc).ne'

/-- The code table of a tree that keeps the order follows the counts (R136, R137, R143). -/
theorem codesFollowCounts_execCodeAssign {s t : State} (h : CountOrdered s) (hp : s.phase = .cAssign)
    (he : execCodeAssign s = .next t) : CodesFollowCounts t := by
  obtain ⟨-, hF, hq⟩ := (encInv_iff_cAssign hp).mp h.tables
  have htE := encInv_execCodeAssign h.tables hp he
  obtain ⟨C, rfl, hC⟩ := execCodeAssign_next he
  obtain ⟨-, hlaws⟩ := (encInv_iff_coded rfl).mp htE
  intro c d hvalid hlt
  have hc : c ∈ presentSymbols s.freq := (mem_presentSymbols _ _).mpr fun h0 => by
    rw [h0] at hlt
    exact absurd hlt BitVec.not_lt_zero
  have hd : d ∈ presentSymbols s.freq := (mem_presentSymbols _ _).mpr ((hlaws.valid d).mp hvalid)
  obtain ⟨h1, -⟩ | ⟨-, hvis⟩ := hC
  · rw [hlaws.single h1 c hc, hlaws.single h1 d hd]
  · obtain ⟨codes, htree, hperm⟩ := forest_root hF hq
    obtain ⟨-, rfl⟩ := (visit_eq_some_iff htree ..).mp hvis
    have hnodup : (codes.map Prod.fst).Nodup := hperm.nodup_iff.mpr (nodup_presentSymbols _)
    obtain ⟨x, hx, rfl⟩ := List.mem_map.mp (hperm.mem_iff.mpr hc)
    obtain ⟨y, hy, rfl⟩ := List.mem_map.mp (hperm.mem_iff.mpr hd)
    dsimp only
    rw [lookSym_assign_of_mem [] hnodup hx, lookSym_assign_of_mem [] hnodup hy]
    exact (h.build (.inr hp)).length_le_of_count_lt hF hq htree hx hy hlt

/-- No edge leads back from the second pass to the phases that build the code table, nor to its header (R207). -/
theorem successors_of_not_building : ∀ {p : Phase}, buildsTables p = false →
    ∀ q ∈ successors p, q ≠ .cBuild ∧ q ≠ .cAssign ∧ q ≠ .cHeader := by
  intro p
  cases p <;> decide

theorem CountOrdered.of_not_building {s t : State} (ht : Alone t) (hb : buildsTables s.phase = false)
    (hp : t.phase ∈ successors s.phase) : CountOrdered t := by
  obtain ⟨h1, h2, h3⟩ := successors_of_not_building hb _ hp
  exact ⟨ht, fun h => (h.elim h1 h2).elim, fun h => (h3 h).elim⟩

/-- The end of the Tree Builder keeps its phase or goes to `C_ASSIGN` (R125). -/
theorem CountOrdered.of_endBuild {s : State} (ht : Alone (endBuild s)) (hp : s.phase = .cBuild) (h : Huffman s) :
    CountOrdered (endBuild s) := by
  refine ⟨ht, fun _ => h.endBuild, fun hh => ?_⟩
  obtain ⟨_, _, he⟩ | ⟨_, he⟩ := endBuild_cases s <;> rw [he] at hh
  · cases hh
  · rw [hp] at hh; cases hh

theorem CountOrdered.of_execFreqScan {s t : State} (h : CountOrdered s) (hp : s.phase = .cFreq) (ht : Alone t)
    (he : execFreqScan s = .next t) : CountOrdered t := by
  have hclear := (encInv_iff_clear (by rw [hp]; rfl)).mp h.tables
  obtain ⟨hl, F, rfl, rfl⟩ := execFreqScan_next he
  refine ⟨ht, fun _ => huffman_of_empty hclear.nnodes (countSum_foldl hl hclear.freq), fun _ c d hd => ?_⟩
  exact absurd ((hclear.valid d).symm.trans hd) Bool.false_ne_true

theorem CountOrdered.of_execTreeMerge {s t : State} (h : CountOrdered s) (hp : s.phase = .cBuild) (h0 : s.nnodes ≠ 0)
    (ht : Alone t) (he : execTreeMerge s = .next t) : CountOrdered t := by
  obtain ⟨-, hF⟩ := (encInv_iff_cBuild hp).mp h.tables
  obtain ⟨⟨hc, -⟩, -⟩ := hF.resolve_left h0
  have hH := h.build (.inl hp)
  obtain ⟨_, -, -, rfl⟩ | ⟨a, b, hn, ha, hb, rfl⟩ := execTreeMerge_next he
  · exact .of_endBuild ht hp hH
  · exact .of_endBuild (s := merged a b s hn) ht hp (hH.merge (isLowest_of_least ha) (isLowest_of_least hb) hn hc)

theorem CountOrdered.step {s t : State} (h : CountOrdered s) (hstep : step s = .next t) : CountOrdered t := by
  have ht : Alone t := h.toAlone.step hstep
  cases hi : selected s with
  | none =>
    obtain rfl := Host.Outcome.next.inj ((advance_of_none h.free hi).symm.trans ((step_of_inbox_nil h.alone).symm.trans hstep))
    exact h
  | some i =>
    have he : exec i s = .next t := (h.step_eq hi).symm.trans hstep
    have hlater : buildsTables s.phase = false → CountOrdered t := fun hb => .of_not_building ht hb (block_phase hi he)
    cases selected_cases hi with
    | freqScan hp => exact h.of_execFreqScan hp ht he
    | treeSeed hp h0 =>
      obtain ⟨_, _, _, _, hs, rfl, -, -, rfl⟩ := execTreeSeed_next he
      exact .of_endBuild ht hp (huffman_of_seedLeaves h0 hs (h.build (.inl hp)).counts)
    | treeMerge hp h0 => exact h.of_execTreeMerge hp h0 ht he
    | codeAssign hp =>
      have hf := codesFollowCounts_execCodeAssign h hp he
      obtain ⟨_, rfl, -⟩ := execCodeAssign_next he
      exact ⟨ht, fun h => by simp at h, fun _ => hf⟩
    | serHeader hp | serTerm hp | serPayload hp | serFlush hp | desHeader hp | desPayload hp | packBits hp | unpackBits hp =>
      exact hlater (congrArg buildsTables hp)

theorem CountOrdered.reaches {s t : State} (h : CountOrdered s) (hreach : Reaches s t) : CountOrdered t := by
  induction hreach with
  | refl => exact h
  | tail _ hstep ih => exact ih.step hstep

theorem HeaderNext.toNat_freq {s t : State} {input : List Byte} (h : HeaderNext s input t) (hl : input.length < 2 ^ 64) (c : Byte) :
    (lookSym t.freq c).toNat = input.count c := by
  rw [h.freq, BitVec.toNat_ofNat, Nat.mod_eq_of_lt (List.count_le_length.trans_lt hl)]

/-- The code table of COMPRESS follows the counts (R143). -/
theorem HeaderNext.codesFollowCounts {s t : State} {input : List Byte} (hs : Ready s input)
    (hreach : Reaches (commanded s 0x81) t) (ht : HeaderNext s input t) : CodesFollowCounts t := by
  have hstart : CountOrdered (compressStarted s) :=
    ⟨alone_compressStarted hs.free, by simp [compressStarted], by simp [compressStarted]⟩
  obtain rfl | ⟨u, hu, hreach⟩ := hreach.cases_head
  · cases ht.alone
  · obtain rfl := Host.Outcome.next.inj ((step_compress hs).symm.trans hu)
    exact (hstart.reaches hreach).header ht.phase

theorem compressDone_inbox (s : State) : (compressDone s).inbox = s.inbox := by
  simp [compressDone, flushed, afterPayload, beforePayload, afterWrites]

/-- Settles O51: the code table stands when the header begins, and what follows does not write it. -/
theorem moreFrequentSymbolsHaveNoLongerCodes : Obligations.MoreFrequentSymbolsHaveNoLongerCodes := by
  intro s input hready hl
  obtain ⟨u, hreach, hu⟩ := reaches_header hready hl
  have hdata : u.src.data = input := by rw [hu.src]
  have hdone := hu.toAlone.reaches_compressDone hu.phase (by rw [hdata]; exact fun b hb => hu.valid hl hb)
  refine ⟨compressDone u, hreach.trans hdone, compressDone_phase u, (compressDone_inbox u).trans hu.alone, fun c d hlt hd => ?_⟩
  rw [compressDone_code] at hd ⊢
  refine hu.codesFollowCounts hready hreach c d hd ?_
  rwa [BitVec.lt_def, hu.toNat_freq hl, hu.toNat_freq hl]

end Sys2Proof.Machine

/-! The Bit Packer: where `pack` puts each bit, and PACK_BITS on a source of characters and on one with another byte
(43_bit_packer.md, R204). -/

namespace Sys2Proof.Machine

/-! ### The bits of a packed bit-string -/

theorem bitAt_drop (k i : Nat) (s : BitString) : bitAt (s.drop k) i = bitAt s (k + i) := by
  simp only [bitAt, List.getD_eq_getElem?_getD, List.getElem?_drop]

/-- Bit `t` of a bit-string stands in bit `7 - t` of its first byte (R58, R60). -/
theorem getLsbD_byteOf (s : BitString) {t : Nat} (ht : t < 8) : (byteOf s).getLsbD (7 - t) = bitAt s t := by
  have hbits := byteBits_byteOf s
  simp only [byteBits, List.cons.injEq, and_true] at hbits
  obtain ⟨h0, h1, h2, h3, h4, h5, h6, h7⟩ := hbits
  interval_cases t <;> assumption

/-- Bit `8j + t` stands in bit `7 - t` of byte `j`, when there are bytes enough for all the bits; past them both sides are 0. -/
theorem getLsbD_packBytes {n t : Nat} (ht : t < 8) : ∀ {s : BitString} (j : Nat), s.length ≤ 8 * n →
    ((packBytes n s).getD j 0).getLsbD (7 - t) = bitAt s (8 * j + t) := by
  induction n with
  | zero =>
    intro s j hs
    obtain rfl := List.eq_nil_of_length_eq_zero (Nat.le_zero.mp hs)
    simp [packBytes, bitAt]
  | succ n ih =>
    intro s j hs
    cases j with
    | zero => rw [Nat.mul_zero, Nat.zero_add]; exact getLsbD_byteOf s ht
    | succ j =>
      have hdrop : (s.drop 8).length ≤ 8 * n := by rw [List.length_drop]; omega
      calc ((packBytes n (s.drop 8)).getD j 0).getLsbD (7 - t)
        _ = bitAt (s.drop 8) (8 * j + t) := ih j hdrop
        _ = bitAt s (8 * (j + 1) + t) := by rw [bitAt_drop, Nat.mul_succ, Nat.add_right_comm, Nat.add_comm]

theorem pack_length (s : BitString) : (pack s).length = ceil8 s.length := packBytes_length ..

/-- Bit `8j + t` of a bit-string stands in bit `7 - t` of byte `j` of `pack`, pad bits being 0 (R147). -/
theorem getLsbD_pack (s : BitString) (j : Nat) {t : Nat} (ht : t < 8) :
    ((pack s).getD j 0).getLsbD (7 - t) = bitAt s (8 * j + t) :=
  getLsbD_packBytes ht j (by rw [ceil8]; omega)

/-! ### PACK_BITS -/

theorem charBit_eq_none {c : Byte} (h0 : c ≠ 0x30) (h1 : c ≠ 0x31) : charBit c = none := by
  rw [charBit, if_neg h0, if_neg h1]

theorem chars_length (bits : BitString) : (chars bits).length = bits.length := List.length_map ..

/-- A source of characters is read to its end, then their bits are packed and written (R147, R204). -/
theorem execPackBits_of_chars {s : State} {bits : BitString} (h : unread s = chars bits) :
    execPackBits s =
      .next (endedRun { afterWrites (pack bits) (atEos (afterReads (chars bits) s)) with acc := [] }) := by
  have hleft : srcLeft s = bits.length := by rw [srcLeft_eq, h, chars_length]
  have hread := readChars_of_chars bits { s with acc := [] } h
  simp only [execPackBits, hleft, hread, sinkWrites_eq]
  rfl

/-- At the first byte that is no character the run ends with ENC_INTERNAL, nothing written (R148, R204, R230). -/
theorem execPackBits_of_bad {s : State} {bits : BitString} {c : Byte} {rest : List Byte} (hc : charBit c = none)
    (h : unread s = chars bits ++ c :: rest) :
    execPackBits s = .next (failedWith 4 { afterReads (chars bits ++ [c]) s with acc := bits }) := by
  have hread := readChars_of_bad bits c rest hc { s with acc := [] } h
  have hleft : srcLeft s = (unread { s with acc := [] }).length := srcLeft_eq s
  simp only [execPackBits, hleft, hread]
  rfl

/-- Settles O25: where `pack` puts each bit, and the two outcomes of PACK_BITS. -/
theorem packBitsPacksTheSource : Obligations.PackBitsPacksTheSource :=
  ⟨fun bits => ⟨pack_length bits, fun j _ ht => getLsbD_pack bits j ht⟩,
    fun _ _ h => execPackBits_of_chars h,
    fun _ _ _ _ h h0 h1 => execPackBits_of_bad (charBit_eq_none h0 h1) h⟩

end Sys2Proof.Machine

/-! The Bit Unpacker: where `unpack` finds each bit, how it and `pack` undo each other, and UNPACK_BITS on a source long enough
and on a shorter one (44_bit_unpacker.md, R205). -/

namespace Sys2Proof.Machine

/-! ### The bits of an unpacked byte list -/

/-- Whole bytes are packed apart from the bits that follow them (R150). -/
theorem pack_append {s : BitString} (hs : s.length % 8 = 0) (t : BitString) : pack (s ++ t) = pack s ++ pack t := by
  have hcut : 8 * (s.length / 8) = s.length := by omega
  have hs8 : ceil8 s.length = s.length / 8 := by rw [ceil8]; omega
  have hst8 : ceil8 (s ++ t).length = s.length / 8 + ceil8 t.length := by rw [List.length_append, ceil8, ceil8]; omega
  rw [pack, hst8, packBytes_add, packBytes_append t hcut.le, hcut, List.drop_left, pack, hs8, pack]

theorem pack_byteBits (b : Byte) : pack (byteBits b) = [b] := by
  calc pack (byteBits b)
    _ = packBytes (ceil8 8) (byteBits b) := by rw [pack, byteBits_length]
    _ = [byteOf (byteBits b)] := rfl
    _ = [b] := by rw [byteOf_byteBits]

/-- The bits of a byte list pack to that list. -/
theorem pack_flatMap_byteBits (bs : List Byte) : pack (bs.flatMap byteBits) = bs := by
  induction bs with
  | nil => rfl
  | cons b bs ih =>
    have h8 : (byteBits b).length % 8 = 0 := by rw [byteBits_length]
    rw [List.flatMap_cons, pack_append h8, pack_byteBits, ih, List.singleton_append]

theorem bitAt_take (s : BitString) (l i : Nat) : bitAt (s.take l) i = (decide (i < l) && bitAt s i) := by
  by_cases h : i < l <;> simp [bitAt, h]

/-- Bit `8j + t` of what is unpacked is bit `7 - t` of byte `j`, as far as bits were asked for (R156, R158). -/
theorem bitAt_unpack (bs : List Byte) (l j : Nat) {t : Nat} (ht : t < 8) :
    bitAt (unpack bs l) (8 * j + t) = (decide (8 * j + t < l) && (bs.getD j 0).getLsbD (7 - t)) := by
  rw [unpack, bitAt_take, ← getLsbD_pack _ j ht, pack_flatMap_byteBits]

theorem length_unpack_of_ceil8 {bs : List Byte} {l : Nat} (h : ceil8 l ≤ bs.length) : (unpack bs l).length = l :=
  length_unpack (by rw [ceil8] at h; omega)

/-- Bit `i` of what is unpacked, in the form of R156. -/
theorem bitAt_unpack_of_lt (bs : List Byte) {l i : Nat} (hi : i < l) :
    bitAt (unpack bs l) i = (bs.getD (i / 8) 0).getLsbD (7 - i % 8) := by
  have h := bitAt_unpack bs l (i / 8) (Nat.mod_lt i (by decide))
  rwa [Nat.div_add_mod, decide_eq_true hi, Bool.true_and] at h

/-! ### `pack` and `unpack` undo each other -/

theorem eq_of_bitAt {s t : BitString} (hlen : s.length = t.length) (h : ∀ i < t.length, bitAt s i = bitAt t i) : s = t :=
  List.ext_getElem hlen fun i hs ht => by
    have hi := h i ht
    rwa [bitAt, bitAt, List.getD_eq_getElem _ _ hs, List.getD_eq_getElem _ _ ht] at hi

theorem unpack_pack (s : BitString) : unpack (pack s) s.length = s := by
  refine eq_of_bitAt (length_unpack_of_ceil8 (pack_length s).ge) fun i hi => ?_
  calc bitAt (unpack (pack s) s.length) i
    _ = ((pack s).getD (i / 8) 0).getLsbD (7 - i % 8) := bitAt_unpack_of_lt _ hi
    _ = bitAt s (8 * (i / 8) + i % 8) := getLsbD_pack s _ (Nat.mod_lt i (by decide))
    _ = bitAt s i := by rw [Nat.div_add_mod]

/-- Packing what was unpacked gives the bytes back with the ignored bits 0 (R159). -/
theorem getLsbD_pack_unpack (bs : List Byte) (l j : Nat) {t : Nat} (ht : t < 8) :
    ((pack (unpack bs l)).getD j 0).getLsbD (7 - t) = (decide (8 * j + t < l) && (bs.getD j 0).getLsbD (7 - t)) :=
  (getLsbD_pack _ j ht).trans (bitAt_unpack bs l j ht)

theorem length_pack_unpack {bs : List Byte} {l : Nat} (h : ceil8 l ≤ bs.length) : (pack (unpack bs l)).length = ceil8 l := by
  rw [pack_length, length_unpack_of_ceil8 h]

/-- Settles O27: both round trips hold bit by bit, since `pack` and `unpack` place each bit alike. -/
theorem packAndUnpackAreInverse : Obligations.PackAndUnpackAreInverse :=
  ⟨fun _ t hs => pack_append hs t,
    unpack_pack,
    fun bs l h => ⟨length_pack_unpack h, fun j _ _ ht => getLsbD_pack_unpack bs l j ht⟩⟩

/-! ### UNPACK_BITS -/

/-- With bytes enough exactly ceil8(`LEN_ARG`) of them are read and their first bits written as characters (R157, R160, R205). -/
theorem execUnpackBits_of_enough {s : State} {bytes rest : List Byte} (h : unread s = bytes ++ rest)
    (hlen : bytes.length = ceil8 s.lenArg.toNat) :
    execUnpackBits s = .next (endedRun (afterWrites (chars (unpack bytes s.lenArg.toNat)) (afterReads bytes s))) := by
  simp only [execUnpackBits, ← hlen, srcTake_of_unread h, sinkWrites_eq]
  rfl

/-- A shorter source is read to its end and the run fails with FORMAT_TRUNCATED, nothing written (R205, R230). -/
theorem execUnpackBits_of_short {s : State} (h : (unread s).length < ceil8 s.lenArg.toNat) :
    execUnpackBits s = .next (failedWith 2 (atEos (afterReads (unread s) s))) := by
  simp only [execUnpackBits, srcTake_of_short h]
  rfl

/-- Settles O26: where `unpack` finds each bit, and the two outcomes of UNPACK_BITS. -/
theorem unpackBitsUnpacksTheSource : Obligations.UnpackBitsUnpacksTheSource :=
  ⟨fun bs _ h => ⟨length_unpack_of_ceil8 h, fun _ hi => bitAt_unpack_of_lt bs hi⟩,
    fun _ _ _ h hlen => execUnpackBits_of_enough h hlen,
    fun _ h => execUnpackBits_of_short h⟩

end Sys2Proof.Machine

/-! The Stream Serializer: what SER_HEADER, SER_TERM, SER_PAYLOAD and SER_FLUSH do, the payload as the packed codes of the source,
and COMPRESS of the empty input (45_stream_serializer.md). -/

namespace Sys2Proof.Machine

/-! ### The bits of whole bytes -/

theorem bitAt_append_zeros (s : BitString) (n i : Nat) : bitAt (s ++ List.replicate n false) i = bitAt s i := by
  by_cases h : i < s.length
  · exact List.getD_append _ _ _ _ h
  · have hs : s.length ≤ i := Nat.le_of_not_lt h
    rw [bitAt, List.getD_append_right _ _ _ _ hs, bitAt, List.getD_eq_default _ _ hs]
    exact List.getElem?_getD_replicate_default_eq ..

/-- The bits of a packed byte are the next eight bits, zero-padded (R58, R60). -/
theorem byteBits_byteOf_eq_take (s : BitString) : byteBits (byteOf s) = (s ++ List.replicate 8 false).take 8 := by
  refine eq_of_bitAt (by simp) fun i hi => ?_
  have h8 : i < 8 := hi.trans_le (by simp)
  rw [bitAt_take, bitAt_append_zeros, decide_eq_true h8, Bool.true_and, byteBits_byteOf]
  interval_cases i <;> rfl

theorem flatMap_byteBits_packBytes {n : Nat} : ∀ {s : BitString}, 8 * n ≤ s.length → (packBytes n s).flatMap byteBits = s.take (8 * n) := by
  induction n with
  | zero => intro s _; simp [packBytes]
  | succ n ih =>
    intro s h
    have h8 : 8 ≤ s.length := by omega
    rw [packBytes, List.flatMap_cons, byteBits_byteOf_eq_take, List.take_append_of_le_length h8,
      ih (by rw [List.length_drop]; omega), Nat.mul_succ, Nat.add_comm, List.take_add]

/-- The completed bytes and the carried bits are the bit-string, in order (R168). -/
theorem completed_append_carried (s : BitString) : (completed s).flatMap byteBits ++ carried s = s := by
  rw [completed, flatMap_byteBits_packBytes (by omega), carried, List.take_append_drop]

/-! ### SER_HEADER and SER_TERM -/

/-- Settles O28: the header the operation writes is an entry per coded symbol. -/
theorem serHeaderWritesTheEntries : Obligations.SerHeaderWritesTheEntries := fun s => by
  rw [← headerBytes_eq_codedSymbols]
  exact execSerHeader_eq s

/-- Settles O29: one write, the rewind and the two registers are all SER_TERM does. -/
theorem serTermWritesTheTerminator : Obligations.SerTermWritesTheTerminator := fun _ => rfl

/-! ### SER_PAYLOAD -/

/-- The bits SER_PAYLOAD has in the accumulator once the code of `b` is appended (R168). -/
def withCode (b : Byte) (s : State) : BitString := s.acc ++ (lookSym s.code b).bits

/-- The state once SER_PAYLOAD has read `b` and encoded it (R168). -/
def encoded (b : Byte) (s : State) : State :=
  { afterWrites (completed (withCode b s)) (afterReads [b] s) with acc := carried (withCode b s) }

section

variable {s : State} {b : Byte} {rest : List Byte}

theorem execSerPayload_of_eos (h : unread s = []) : execSerPayload s = .next { atEos s with phase := .cFlush } := by
  obtain ⟨_, he⟩ | ⟨_, _, hu, _⟩ | ⟨_, _, hu, _⟩ := execSerPayload_cases s
  · exact he
  · cases h.symm.trans hu
  · cases h.symm.trans hu

theorem execSerPayload_of_code (h : unread s = b :: rest) (hv : (lookSym s.code b).valid = true) :
    execSerPayload s = .next (encoded b s) := by
  obtain ⟨hu, _⟩ | ⟨_, _, hu, hn, _⟩ | ⟨_, _, hu, _, he⟩ := execSerPayload_cases s <;> cases h.symm.trans hu
  · cases hv.symm.trans hn
  · exact he

theorem execSerPayload_of_noCode (h : unread s = b :: rest) (hv : (lookSym s.code b).valid = false) :
    execSerPayload s = .next (failedWith 4 (afterReads [b] s)) := by
  obtain ⟨hu, _⟩ | ⟨_, _, hu, _, he⟩ | ⟨_, _, hu, hc, _⟩ := execSerPayload_cases s <;> cases h.symm.trans hu
  · exact he
  · cases hv.symm.trans hc

end

/-- Settles O30: at EOS, on a byte with a code (the bytes its code completes and the bits carried on), on a byte without one. -/
theorem serPayloadEncodesOneByte : Obligations.SerPayloadEncodesOneByte := by
  refine ⟨fun s h => execSerPayload_of_eos h, fun s b rest h hv => ?_, fun s b rest h hv => execSerPayload_of_noCode h hv⟩
  refine ⟨completed (withCode b s), carried (withCode b s), ?_, (completed_append_carried _).symm, fun hacc hlen => ?_,
    execSerPayload_of_code h hv⟩
  · rw [length_carried]
    exact Nat.mod_lt _ (by decide)
  · rw [length_completed, withCode, List.length_append]
    omega

/-! ### SER_FLUSH -/

/-- Settles O31: the last byte holds the leftover bits and zeros; none is written when there are no such bits. -/
theorem serFlushPadsTheLeftover : Obligations.SerFlushPadsTheLeftover := by
  refine fun s => ⟨fun h => ?_, fun h => ⟨byteOf s.acc, byteBits_byteOf_eq_take s.acc, ?_⟩⟩
  · show execSerFlush s = _
    rw [execSerFlush, if_pos h]
    rfl
  · show execSerFlush s = _
    rw [execSerFlush_eq, if_neg h]
    rfl

/-! ### The payload as a whole -/

theorem step_of_selected {s : State} {i : Instr} (hin : s.inbox = []) (hr : s.rst = false) (hi : selected s = some i) :
    step s = exec i s :=
  (step_of_inbox_nil hin).trans (advance_of_free hr hi)

/-- SER_PAYLOAD byte by byte to EOS: unlike `Alone.payload` from any tables that have a code for each byte left (R168, R170). -/
theorem reaches_afterPayload (input : List Byte) : ∀ {s : State}, s.inbox = [] → s.rst = false → s.phase = .cPayload →
    s.acc.length < 8 → unread s = input → (∀ b ∈ input, (lookSym s.code b).valid = true) → Reaches s (afterPayload input s) := by
  induction input with
  | nil =>
    intro s hin hr hp hacc hu _
    rw [afterPayload_nil hacc]
    exact reaches_of_step ((step_of_selected (i := .serPayload) hin hr (by rw [selected, hp])).trans (execSerPayload_of_eos hu))
  | cons b bs ih =>
    intro s hin hr hp hacc hu hv
    have hstep : step s = .next (encoded b s) :=
      (step_of_selected (i := .serPayload) hin hr (by rw [selected, hp])).trans (execSerPayload_of_code hu (hv b List.mem_cons_self))
    have hcarry : (carried (withCode b s)).length < 8 := (length_carried _).trans_lt (Nat.mod_lt _ (by decide))
    have hrest : unread (encoded b s) = bs := unread_afterReads (xs := [b]) hu
    rw [afterPayload_cons]
    exact .head hstep (ih (s := encoded b s) hin hr hp hcarry hrest fun c hc => hv c (List.mem_cons_of_mem _ hc))

/-- The second pass and the flush write the packed codes, padded once at the very end (R172). -/
theorem flushed_afterPayload_snk (input : List Byte) (s : State) :
    (flushed (afterPayload input s)).snk.data = s.snk.data ++ pack (s.acc ++ codesOf s.code input) := by
  rw [pack_eq_completed, ← List.append_assoc]
  rfl

theorem unread_flushed_afterPayload (s : State) : unread (flushed (afterPayload (unread s) s)) = [] :=
  (unread_afterReads (List.append_nil _).symm : unread (afterReads (unread s) s) = [])

/-- Settles O32: SER_PAYLOAD to EOS, then SER_FLUSH. -/
theorem payloadIsThePackedCodes : Obligations.PayloadIsThePackedCodes := by
  intro s hin hr hp hacc hv
  have hpayload := reaches_afterPayload (unread s) hin hr hp (Nat.lt_succ_of_le hacc) rfl hv
  have hflush : step (afterPayload (unread s) s) = .next (flushed (afterPayload (unread s) s)) :=
    (step_of_selected (s := afterPayload (unread s) s) (i := .serFlush) hin hr rfl).trans (execSerFlush_eq _)
  exact ⟨_, hpayload.tail hflush, rfl, rfl, rfl, rfl, unread_flushed_afterPayload s, rfl, flushed_afterPayload_snk _ s⟩

/-! ### The empty input -/

/-- What COMPRESS has written at its end: header, terminator, packed codes (R163, R172). -/
theorem compressDone_snk (s : State) : (compressDone s).snk.data =
    s.snk.data ++ headerBytes s.code ++ [Config.TERM] ++ pack (codesOf s.code s.src.data) := by
  rw [compressDone, flushed_afterPayload_snk, beforePayload_code, beforePayload_acc, List.nil_append]
  rfl

/-- A byte that does not occur has no code (R112, R139). -/
theorem HeaderNext.not_valid {s t : State} {input : List Byte} (h : HeaderNext s input t) {b : Byte} (hb : b ∉ input) :
    (lookSym t.code b).valid = false := by
  obtain ⟨_, hlaws⟩ := (encInv_iff_coded (by rw [h.phase]; rfl)).mp h.tables
  rw [← Bool.not_eq_true, hlaws.valid, h.freq, List.count_eq_zero.mpr hb]
  exact fun h0 => h0 rfl

/-- Settles O52: without symbols the header is empty, and without bytes the payload is. -/
theorem compressOfTheEmptyInput : Obligations.CompressOfTheEmptyInput := by
  intro s hready
  obtain ⟨u, hreach, hu⟩ := reaches_header hready (by decide)
  have hdata : u.src.data = [] := by rw [hu.src]
  have hheader : headerBytes u.code = [] := by
    simp only [headerBytes, hu.not_valid List.not_mem_nil, Bool.false_eq_true, if_false, List.flatMap_eq_nil_iff, implies_true]
  have hdone := hu.toAlone.reaches_compressDone hu.phase (by rw [hdata]; exact fun _ hb => absurd hb List.not_mem_nil)
  refine ⟨compressDone u, hreach.trans hdone, compressDone_phase u, ?_⟩
  have hpayload : pack (codesOf u.code []) = [] := by simp [codesOf, pack, packBytes]
  rw [compressDone_snk, hu.snk, hready.sink, hheader, hdata, hpayload]
  rfl

end Sys2Proof.Machine

/-! The Stream Deserializer's two operations: DES_HEADER on each record of the header and on one cut short, DES_PAYLOAD on a byte and at
the end, and the matcher on the bits of a key (46_stream_deserializer.md). -/

namespace Sys2Proof.Machine

/-! ### Records of the header -/

/-- Settles O33: the byte is the record HDR_TERM. -/
theorem desHeaderStopsAtTheTerminator : Obligations.DesHeaderStopsAtTheTerminator := fun _ _ h =>
  execDesHeader_record (i := .hdrTerm) (record := [0x00]) rfl rfl h

/-- Settles O34: the three ends of the source before a record is whole. -/
theorem desHeaderReportsTruncation : Obligations.DesHeaderReportsTruncation := by
  refine fun s => ⟨fun h => ?_, fun b h hb => ?_, fun b l cs h hb hl =>
    ⟨putBytes s.eBuf 0 cs, fun j => getElem_putBytes cs s.eBuf 0 j j.isLt, ?_⟩⟩
  · exact (execDesHeader_eq s).trans (by rw [h]; rfl)
  · exact (execDesHeader_eq s).trans (by rw [h, headerStep, if_neg (show b ≠ Config.TERM from hb)]; rfl)
  · exact (execDesHeader_eq s).trans (by rw [h, headerStep, if_neg (show b ≠ Config.TERM from hb)]; exact congrArg _ (if_pos hl))

/-- Settles O35: DES_HEADER executes the record HDR_ENTRY it has read, case by case. -/
theorem desHeaderInsertsOneEntry : Obligations.DesHeaderInsertsOneEntry := by
  intro s b l cs rest hu hb hl
  have hexec : execDesHeader s = exec (.hdrEntry b l cs) (afterReads (b :: l :: cs) s) :=
    execDesHeader_record (wellFormed_hdrEntry_iff.mpr ⟨hb, hl⟩) rfl hu
  exact ⟨putBytes s.eBuf 0 cs, fun j => getElem_putBytes cs s.eBuf 0 j j.isLt,
    fun hd => hexec.trans (exec_hdrEntry_duplicate hl hd),
    fun hn hf => hexec.trans (exec_hdrEntry_full hl hn hf),
    fun hn hf => by
      obtain ⟨D, hD, he⟩ := exec_hdrEntry_inserts (s := afterReads (b :: l :: cs) s) (b := b) hl hn hf
      exact ⟨D, hD, hexec.trans he⟩⟩

/-! ### Records of the payload -/

theorem execDesPayload_of_eos {s : State} (h : unread s = []) :
    execDesPayload s = .next (endedRun { atEos s with cand := [] }) := by
  obtain ⟨_, he⟩ | ⟨_, _, hu, _⟩ := execDesPayload_cases s
  · exact he
  · cases h.symm.trans hu

/-- Settles O38: a byte is the record PAYLOAD_BYTE. -/
theorem desPayloadExecutesOneByte : Obligations.DesPayloadExecutesOneByte := by
  refine ⟨fun s h => execDesPayload_of_eos h, fun s b rest h => ⟨_, ?_, exec_payloadByte b _⟩⟩
  exact (execDesPayload_record (i := .payloadByte b) (record := [b]) rfl h).trans (exec_payloadByte b _)

/-- The bits that complete a key write its symbol and empty the candidate, when no fewer of them complete one (R190). -/
theorem foldl_matchBit_of_key {s : State} {bits : BitString} {e : DecEntry} (hne : bits ≠ []) (he : e ∈ usedEntries s)
    (hk : e.key = s.cand ++ bits) (hkeys : (usedEntries s).Pairwise (fun e f => e.key ≠ f.key))
    (hmin : ∀ m, 1 ≤ m → m < bits.length → ∀ f ∈ usedEntries s, f.key ≠ s.cand ++ bits.take m) :
    bits.foldl matchBit s = { afterWrites [e.sym] s with cand := [] } := by
  obtain ⟨init, last, rfl⟩ := (List.eq_nil_or_concat bits).resolve_left hne
  have hinit : init.foldl matchBit s = { s with cand := s.cand ++ init } := by
    refine foldl_matchBit_of_no_key init s fun n hn hle f hf => ?_
    have h := hmin n hn (by simp; omega) f hf
    rwa [List.concat_eq_append, List.take_append_of_le_length hle] at h
  rw [List.concat_eq_append, List.foldl_append, hinit, List.foldl_cons, List.foldl_nil]
  rw [List.concat_eq_append, ← List.append_assoc] at hk
  obtain ⟨f, hf, hfk, hm⟩ | ⟨hn, _⟩ := matchBit_cases { s with cand := s.cand ++ init } last
  · have hsame : f = e := by
      by_contra hfe
      have : Std.Symm (fun e f : DecEntry => e.key ≠ f.key) := ⟨fun _ _ => Ne.symm⟩
      exact hkeys.forall hf he hfe (hfk.trans hk.symm)
    rw [hm, hsame]
    rfl
  · exact absurd hk (hn e he)

/-- Settles O39: bit by bit, up to the first key. -/
theorem payloadByteMatchesTheShortestKey : Obligations.PayloadByteMatchesTheShortestKey := by
  refine ⟨fun s b => ?_, fun s b hn => ?_, fun s b n e h1 h8 he hk hkeys hmin => ?_⟩
  · obtain ⟨syms, cand, hl, h⟩ := foldl_matchBit (byteBits b) s
    exact ⟨syms, cand, hl, by rw [exec_payloadByte, h]⟩
  · rw [exec_payloadByte, foldl_matchBit_of_no_key (byteBits b) s hn]
  · have hlen : ((byteBits b).take n).length = n := by rw [List.length_take, byteBits_length]; omega
    rw [exec_payloadByte, ← List.take_append_drop n (byteBits b), List.foldl_append,
      foldl_matchBit_of_key (List.length_pos_iff.mp (by omega)) he hk hkeys fun m hm hlt f hf => ?_, List.take_append_drop]
    rw [List.take_take, min_eq_left (by omega)]
    exact hmin m hm (by omega) f hf

end Sys2Proof.Machine

/-! A run of DECOMPRESS from START to its end: the header record by record, the terminator, the payload byte by byte (R181 to R192, R203). -/

namespace Sys2Proof.Machine

/-! ### START of DECOMPRESS -/

/-- The state an accepted DECOMPRESS begins its run in (R201, R203). -/
def decompressStarted (s : State) : State := { initRun (latchOp 2 { s with inbox := [] }) with phase := .dHeader }

theorem step_decompress {s : State} {content : List Byte} (h : Ready s content) :
    step (commanded s 0x82) = .next (decompressStarted s) := by
  rw [step_commanded h.free h.notBusy (by decide), show opField 0x82 = 2 by decide]
  simp [start, firstPhase, h.source, decompressStarted]

theorem alone_decompressStarted {s : State} (hr : s.rst = false) : Alone (decompressStarted s) :=
  ⟨hr, rfl, (encInv_iff_clear rfl).mpr (tablesClear_of_start 2 .dHeader _)⟩

/-! ### The header -/

/-- The fields of a header entry as they stand in the stream: symbol, code length, code bytes (R81). -/
abbrev Record : Type := Byte × Byte × List Byte

/-- The bytes of a header entry (R81). -/
def recordBytes (x : Record) : List Byte := x.1 :: x.2.1 :: x.2.2

/-- The entry of the decode table it becomes (R181). -/
def recordEntry (x : Record) : DecEntry := tableEntry x.1 x.2.1 x.2.2

/-- DES_HEADER has read these records and inserted an entry for each, and written nothing but its own registers (R34, R36, R181). -/
structure HeaderParsed (s : State) (xs : List Record) (t : State) : Prop extends Alone t where
  frame : ∃ eSym eLen eNb eBuf D n, t = { afterReads (xs.flatMap recordBytes) s with
    eSym := eSym, eLen := eLen, eNb := eNb, eBuf := eBuf, dtab := D, dn := n }
  dn    : t.dn = s.dn + xs.length
  table : usedEntries t = usedEntries s ++ xs.map recordEntry

theorem HeaderParsed.trans {s t u : State} {xs ys : List Record} (h : HeaderParsed s xs t) (h' : HeaderParsed t ys u) :
    HeaderParsed s (xs ++ ys) u := by
  refine ⟨h'.toAlone, ?_, ?_, ?_⟩
  · obtain ⟨_, _, _, _, _, _, ht⟩ := h.frame
    obtain ⟨eSym, eLen, eNb, eBuf, D, n, hu⟩ := h'.frame
    refine ⟨eSym, eLen, eNb, eBuf, D, n, ?_⟩
    rw [hu, List.flatMap_append, ← afterReads_append, ht]
    rfl
  · rw [h'.dn, h.dn, List.length_append, Nat.add_assoc]
  · rw [h'.table, h.table, List.map_append, List.append_assoc]

section

variable {s : State} {rest : List Byte}

/-- One record with a new key, in a table with room (R181). -/
theorem Alone.parseRecord {x : Record} (h : Alone s) (hp : s.phase = .dHeader)
    (hw : (Instr.hdrEntry x.1 x.2.1 x.2.2).wellFormed = true) (hd : s.dn < 256)
    (hn : ∀ e ∈ usedEntries s, e.key ≠ (recordEntry x).key) (hu : unread s = recordBytes x ++ rest) :
    ∃ t, Machine.step s = .next t ∧ HeaderParsed s [x] t := by
  obtain ⟨b, l, cs⟩ := x
  obtain ⟨_, hl⟩ := wellFormed_hdrEntry_iff.mp hw
  have hexec : Machine.step s = exec (.hdrEntry b l cs) (afterReads (b :: l :: cs) s) :=
    (h.step_eq (i := .desHeader) (by rw [selected, hp])).trans (execDesHeader_record hw rfl hu)
  obtain ⟨⟨e, he, hk⟩, _⟩ | ⟨_, hf, _⟩ | ⟨_, _, he⟩ :=
    exec_hdrEntry_cases (s := afterReads (b :: l :: cs) s) (b := b) hl
  · exact absurd hk (hn e he)
  · exact absurd hd (Nat.not_lt.mpr hf)
  · refine ⟨_, hexec.trans he, h.step (hexec.trans he), ?_, rfl, usedEntries_insert (s := s) hd _⟩
    rw [List.flatMap_singleton]
    exact ⟨_, _, _, _, _, _, rfl⟩

/-- The records of a header, one after another (R181, R185). -/
theorem Alone.parseRecords (xs : List Record) : ∀ {s : State}, Alone s → s.phase = .dHeader →
    (∀ x ∈ xs, (Instr.hdrEntry x.1 x.2.1 x.2.2).wellFormed = true) → s.dn + xs.length ≤ 256 →
    (usedEntries s ++ xs.map recordEntry).Pairwise (fun e f => e.key ≠ f.key) →
    unread s = xs.flatMap recordBytes ++ rest → ∃ t, Reaches s t ∧ HeaderParsed s xs t := by
  induction xs with
  | nil =>
    intro s h _ _ _ _ _
    exact ⟨s, .refl, h, ⟨s.eSym, s.eLen, s.eNb, s.eBuf, s.dtab, s.dn, by simp⟩, rfl, by simp⟩
  | cons x xs ih =>
    intro s h hp hw hd hkeys hu
    rw [List.flatMap_cons, List.append_assoc] at hu
    rw [List.length_cons] at hd
    obtain ⟨-, -, hnew⟩ := List.pairwise_append.mp hkeys
    obtain ⟨t, hstep, ht⟩ := h.parseRecord hp (hw x List.mem_cons_self) (by omega) (fun e he => hnew e he _ List.mem_cons_self) hu
    obtain ⟨htp, hrest⟩ : t.phase = .dHeader ∧ unread t = xs.flatMap recordBytes ++ rest := by
      obtain ⟨_, _, _, _, _, _, rfl⟩ := ht.frame
      exact ⟨hp, unread_afterReads (by simpa using hu)⟩
    have hdn : t.dn + xs.length ≤ 256 := by rw [ht.dn, List.length_singleton]; omega
    obtain ⟨u, hreach, hu⟩ := ih ht.toAlone htp (fun y hy => hw y (List.mem_cons_of_mem _ hy)) hdn
      (by rw [ht.table]; simpa using hkeys) hrest
    exact ⟨u, .head hstep hreach, ht.trans hu⟩

/-- The terminator (R182). -/
theorem Alone.parseTerminator (h : Alone s) (hp : s.phase = .dHeader) (hu : unread s = Config.TERM :: rest) :
    Machine.step s = .next { afterReads [Config.TERM] s with phase := .dPayload } :=
  (h.step_eq (i := .desHeader) (by rw [selected, hp])).trans (desHeaderStopsAtTheTerminator s rest hu)

/-! ### The payload -/

/-- What some bits give the matcher is what matching begins with on these bits and more (R190). -/
theorem foldl_matchBit_decodes (bits : BitString) : ∀ s : State, ∃ syms cand,
    bits.foldl matchBit s = { afterWrites syms s with cand := cand } ∧
    ∀ rest out, Decodes (usedEntries s) cand rest out → Decodes (usedEntries s) s.cand (bits ++ rest) (syms ++ out) := by
  induction bits with
  | nil => exact fun s => ⟨[], s.cand, by simp, fun _ _ h => h⟩
  | cons bit bits ih =>
    intro s
    obtain ⟨e, he, hk, h⟩ | ⟨hn, h⟩ := matchBit_cases s bit
    · obtain ⟨syms, cand, hf, hd⟩ := ih { afterWrites [e.sym] s with cand := [] }
      refine ⟨e.sym :: syms, cand, ?_, fun rest out hr => .hit _ _ _ e _ he hk (hd rest out hr)⟩
      rw [List.foldl_cons, h, hf]
      simp [afterWrites]
    · obtain ⟨syms, cand, hf, hd⟩ := ih { s with cand := s.cand ++ [bit] }
      refine ⟨syms, cand, ?_, fun rest out hr => .miss _ _ _ _ hn (hd rest out hr)⟩
      rw [List.foldl_cons, h, hf]
      rfl

/-- The state at the end of a run that has read `payload` and written `out` (R191, R208). -/
def payloadDecoded (payload out : List Byte) (trace : List Access) (s : State) : State :=
  endedRun { s with
    src := { s.src with pos := s.src.pos + payload.length }
    snk := { data := s.snk.data ++ out }
    cand := []
    trace := trace }

/-- DES_PAYLOAD byte by byte to EOS writes what matching the payload's bits gives (R189 to R191). -/
theorem Alone.decodePayload (payload : List Byte) : ∀ {s : State}, Alone s → s.phase = .dPayload → unread s = payload →
    ∃ out trace, Decodes (usedEntries s) s.cand (payload.flatMap byteBits) out ∧
      Reaches s (payloadDecoded payload out trace s) := by
  induction payload with
  | nil =>
    intro s h hp hu
    have hstep : Machine.step s = .next (endedRun { atEos s with cand := [] }) :=
      (h.step_eq (i := .desPayload) (by rw [selected, hp])).trans (execDesPayload_of_eos hu)
    refine ⟨[], .eos :: s.trace, .nil _, ?_⟩
    have hend : payloadDecoded [] [] (.eos :: s.trace) s = endedRun { atEos s with cand := [] } := by
      simp [payloadDecoded, atEos]
    rw [hend]
    exact reaches_of_step hstep
  | cons b bs ih =>
    intro s h hp hu
    obtain ⟨syms, cand, hf, hd⟩ := foldl_matchBit_decodes (byteBits b) (afterReads [b] s)
    have hstep : Machine.step s = .next { afterWrites syms (afterReads [b] s) with cand := cand } := by
      rw [h.step_eq (i := .desPayload) (by rw [selected, hp]), ← hf, ← exec_payloadByte]
      exact execDesPayload_record (i := .payloadByte b) (record := [b]) rfl hu
    obtain ⟨out, trace, hdec, hreach⟩ := ih (h.step hstep) hp (unread_afterReads (xs := [b]) hu)
    refine ⟨syms ++ out, trace, hd _ _ hdec, .head hstep ?_⟩
    have hend : payloadDecoded (b :: bs) (syms ++ out) trace s =
        payloadDecoded bs out trace { afterWrites syms (afterReads [b] s) with cand := cand } := by
      simp [payloadDecoded, endedRun, afterWrites, afterReads, Nat.add_assoc, Nat.add_comm]
    rw [hend]
    exact hreach

end

/-! ### The run -/

/-- DECOMPRESS of these records, the terminator and these payload bytes has ended (R192, R203). -/
structure Decompressed (xs : List Record) (payload : List Byte) (t : State) : Prop where
  phase   : t.phase = .done
  status  : t.status = { busy := false, done := true, err := false }
  errcode : t.errcode = 0
  inbox   : t.inbox = []
  pos     : t.src.pos = t.src.data.length
  dn      : t.dn = xs.length
  table   : usedEntries t = xs.map recordEntry
  decodes : Decodes (usedEntries t) [] (payload.flatMap byteBits) t.snk.data

/-- DECOMPRESS of a stream of the format whose entries have different keys and fit the table (R80, R181 to R192). -/
theorem reaches_decompressed {s : State} {xs : List Record} {payload : List Byte}
    (hw : ∀ x ∈ xs, (Instr.hdrEntry x.1 x.2.1 x.2.2).wellFormed = true) (hl : xs.length ≤ 256)
    (hkeys : (xs.map recordEntry).Pairwise (fun e f => e.key ≠ f.key))
    (h : Ready s (xs.flatMap recordBytes ++ Config.TERM :: payload)) :
    ∃ t, Reaches (commanded s 0x82) t ∧ Decompressed xs payload t := by
  have hused : usedEntries (decompressStarted s) = [] := usedEntries_of_dn_zero rfl
  have hunread : unread (decompressStarted s) = xs.flatMap recordBytes ++ Config.TERM :: payload := by
    rw [show unread (decompressStarted s) = s.src.data.drop s.src.pos from rfl, h.source]; rfl
  obtain ⟨t, hheader, ht⟩ := (alone_decompressStarted h.free).parseRecords xs rfl hw
    ((Nat.zero_add _).trans_le hl) (by rwa [hused]) hunread
  have hdn : t.dn = xs.length := ht.dn.trans (Nat.zero_add _)
  have htable : usedEntries t = xs.map recordEntry := ht.table.trans (by rw [hused, List.nil_append])
  have hA : Alone t := ht.toAlone
  obtain ⟨_, _, _, _, _, _, rfl⟩ := ht.frame
  have hrest := unread_afterReads hunread
  have hterm := hA.parseTerminator rfl hrest
  obtain ⟨out, trace, hdec, hpayload⟩ := (hA.step hterm).decodePayload payload rfl (unread_afterReads (xs := [_]) hrest)
  refine ⟨_, .head (step_decompress h) (hheader.trans (.head hterm hpayload)), rfl, rfl, rfl, rfl, ?_, hdn, htable, ?_⟩
  · show s.src.pos + (xs.flatMap recordBytes).length + 1 + payload.length = s.src.data.length
    simp only [h.source, List.length_append, List.length_cons]
    omega
  · show Decodes _ _ _ (s.snk.data ++ out)
    rw [h.sink, List.nil_append]
    exact hdec

end Sys2Proof.Machine

/-! The decode table that the records of a code table make, what it gives for codes and for zeros, and the symbol of the all-zero code
(R140, R142, R190, R192, R260). -/

namespace Sys2Proof.Machine

/-! ### Matching against a decode table -/

section

variable {table : List DecEntry}

/-- With different keys matching is deterministic (R190). -/
theorem Decodes.unique (hkeys : table.Pairwise (fun e f => e.key ≠ f.key)) {cand bits : BitString} {out : List Byte}
    (h : Decodes table cand bits out) : ∀ {out'}, Decodes table cand bits out' → out = out' := by
  have hsymm : Std.Symm (fun e f : DecEntry => e.key ≠ f.key) := ⟨fun _ _ => Ne.symm⟩
  induction h with
  | nil => intro out' h'; cases h'; rfl
  | hit cand bit bits e out he hk _ ih =>
    intro out' h'
    cases h' with
    | hit _ _ _ f _ hf hfk h' =>
      have hsame : e = f := by
        by_contra hne
        exact hkeys.forall he hf hne (hk.trans hfk.symm)
      rw [hsame, ih h']
    | miss _ _ _ _ hn _ => exact absurd hk (hn e he)
  | miss cand bit bits out hn _ ih =>
    intro out' h'
    cases h' with
    | hit _ _ _ f _ hf hfk _ => exact absurd hfk (hn f hf)
    | miss _ _ _ _ _ h' => exact ih h'

/-- Bits that complete no key only make the candidate grow (R190). -/
theorem Decodes.append_of_no_key {rest : BitString} {out : List Byte} (bits : BitString) : ∀ {cand : BitString},
    (∀ n, 1 ≤ n → n ≤ bits.length → ∀ e ∈ table, e.key ≠ cand ++ bits.take n) →
    Decodes table (cand ++ bits) rest out → Decodes table cand (bits ++ rest) out := by
  induction bits with
  | nil => intro cand _ h; simpa using h
  | cons bit bits ih =>
    intro cand hn h
    refine .miss _ _ _ _ (fun e he => hn 1 le_rfl (by simp) e he) (ih (fun n h1 hle e he => ?_) (by simpa using h))
    simpa using hn (n + 1) (by omega) (by simpa using hle) e he

/-- Bits that complete a key, no fewer of them completing one, give its symbol (R190). -/
theorem Decodes.of_key {e : DecEntry} {rest : BitString} {out : List Byte} (he : e ∈ table) (hne : e.key ≠ [])
    (hmin : ∀ m, 1 ≤ m → m < e.key.length → ∀ f ∈ table, f.key ≠ e.key.take m) (h : Decodes table [] rest out) :
    Decodes table [] (e.key ++ rest) (e.sym :: out) := by
  obtain ⟨init, last, hk⟩ := (List.eq_nil_or_concat e.key).resolve_left hne
  rw [List.concat_eq_append] at hk
  rw [hk, List.append_assoc]
  refine .append_of_no_key init (fun n h1 hle f hf => ?_) (.hit _ _ _ e _ he hk h)
  have := hmin n h1 (by rw [hk, List.length_append, List.length_singleton]; omega) f hf
  rwa [hk, List.take_append_of_le_length hle] at this

theorem Decodes.eq_nil_of_no_entries {cand bits : BitString} {out : List Byte} (h : Decodes [] cand bits out) : out = [] := by
  generalize ht : ([] : List DecEntry) = table at h
  induction h with
  | nil => rfl
  | hit _ _ _ _ _ he => subst ht; cases he
  | miss _ _ _ _ _ _ ih => exact ih

end

/-! ### The decode table of a code table -/

/-- The record SER_HEADER writes for a symbol (R164, R165). -/
def codeRecord (code : Vector CodeEntry Config.NSYMVALS) (c : Byte) : Record :=
  (c, (lookSym code c).len, pack (lookSym code c).bits)

/-- The decode table's entry for a symbol's code (R34). -/
def codeEntry (code : Vector CodeEntry Config.NSYMVALS) (c : Byte) : DecEntry :=
  { keylen := (lookSym code c).len, key := (lookSym code c).bits, sym := c }

/-- The decode table of a code table (R34, R164). -/
def codeTable (code : Vector CodeEntry Config.NSYMVALS) : List DecEntry := (codedSymbols code).map (codeEntry code)

theorem mem_codedSymbols {code : Vector CodeEntry Config.NSYMVALS} {c : Byte} :
    c ∈ codedSymbols code ↔ (lookSym code c).valid = true := by
  simp [codedSymbols, mem_allSymbols]

theorem mem_codeTable {code : Vector CodeEntry Config.NSYMVALS} {e : DecEntry} :
    e ∈ codeTable code ↔ ∃ c, (lookSym code c).valid = true ∧ codeEntry code c = e := by
  simp [codeTable, mem_codedSymbols]

theorem headerBytes_eq_records (code : Vector CodeEntry Config.NSYMVALS) :
    headerBytes code = ((codedSymbols code).map (codeRecord code)).flatMap recordBytes := by
  rw [headerBytes_eq_codedSymbols, List.flatMap_map]
  rfl

/-- Only zeros follow the bits in their bytes (R147). -/
theorem flatMap_byteBits_pack (s : BitString) : (pack s).flatMap byteBits = s ++ List.replicate (padBits s.length) false := by
  have hlast : (lastByte (carried s)).flatMap byteBits = carried s ++ List.replicate (padBits s.length) false := by
    have hlen := length_carried s
    unfold lastByte
    split
    · next h =>
      rw [h, List.length_nil] at hlen
      simp [h, padBits, ← hlen]
    · next h =>
      have hpos := List.length_pos_iff.mpr h
      have hpad : padBits s.length = 8 - (carried s).length := by rw [padBits]; omega
      rw [List.flatMap_singleton, byteBits_byteOf_eq_take, List.take_append, List.take_of_length_le (by omega),
        List.take_replicate, hpad, min_eq_left (by omega)]
  rw [pack_eq_completed, List.flatMap_append, hlast, ← List.append_assoc, completed_append_carried]

/-- A symbol whose code is all zeros (R142). -/
structure HasZeroCode (code : Vector CodeEntry Config.NSYMVALS) (z : Byte) : Prop where
  valid : (lookSym code z).valid = true
  zeros : ∀ bit ∈ (lookSym code z).bits, bit = false

theorem HasZeroCode.prefix_replicate {code : Vector CodeEntry Config.NSYMVALS} {z : Byte} (h : HasZeroCode code z) {n : Nat}
    (hn : (lookSym code z).bits.length ≤ n) : (lookSym code z).bits <+: List.replicate n false :=
  List.prefix_replicate_iff.mpr ⟨hn, List.eq_replicate_of_mem h.zeros⟩

namespace CodeLaws

variable {t : State} (h : CodeLaws t)

include h

theorem codedSymbols_eq : codedSymbols t.code = presentSymbols t.freq :=
  List.filter_congr fun c _ => by rw [Bool.eq_iff_iff, h.valid, decide_eq_true_iff]

theorem bits_length_pos {c : Byte} (hc : (lookSym t.code c).valid = true) : 1 ≤ (lookSym t.code c).bits.length := by
  obtain ⟨hlen, hpos⟩ := h.len c hc
  rwa [hlen]

theorem eq_of_prefix {c d : Byte} (hc : (lookSym t.code c).valid = true) (hd : (lookSym t.code d).valid = true)
    (hp : (lookSym t.code c).bits <+: (lookSym t.code d).bits) : c = d := by
  by_contra hne
  exact h.free c d hc hd hne hp

theorem keys_codeTable : (codeTable t.code).Pairwise (fun e f => e.key ≠ f.key) := by
  have hnodup : (codedSymbols t.code).Nodup := h.codedSymbols_eq ▸ nodup_presentSymbols t.freq
  refine List.pairwise_map.mpr (hnodup.imp_of_mem fun hc hd hne hk => ?_)
  exact hne (h.eq_of_prefix (mem_codedSymbols.mp hc) (mem_codedSymbols.mp hd) ⟨[], (List.append_nil _).trans hk⟩)

theorem recordEntry_codeRecord {c : Byte} (hc : (lookSym t.code c).valid = true) :
    recordEntry (codeRecord t.code c) = codeEntry t.code c := by
  simp only [recordEntry, codeRecord, tableEntry, codeEntry, ← (h.len c hc).1, unpack_pack]

theorem table_eq : ((codedSymbols t.code).map (codeRecord t.code)).map recordEntry = codeTable t.code := by
  rw [List.map_map]
  exact List.map_congr_left fun c hc => h.recordEntry_codeRecord (mem_codedSymbols.mp hc)

theorem wellFormed_codeRecord {c : Byte} (hc : (lookSym t.code c).valid = true) (h0 : c ≠ Config.TERM) :
    (Instr.hdrEntry (codeRecord t.code c).1 (codeRecord t.code c).2.1 (codeRecord t.code c).2.2).wellFormed = true :=
  wellFormed_hdrEntry_iff.mpr ⟨h0, by rw [codeRecord, pack_length, (h.len c hc).1]⟩

/-- The code of a symbol gives it back (R140, R190). -/
theorem decodes_bits {c : Byte} {rest : BitString} {out : List Byte} (hc : (lookSym t.code c).valid = true)
    (hrest : Decodes (codeTable t.code) [] rest out) :
    Decodes (codeTable t.code) [] ((lookSym t.code c).bits ++ rest) (c :: out) := by
  refine Decodes.of_key (e := codeEntry t.code c) (mem_codeTable.mpr ⟨c, hc, rfl⟩)
    (List.length_pos_iff.mp (h.bits_length_pos hc)) (fun m _ hm f hf hk => ?_) hrest
  obtain ⟨d, hd, rfl⟩ := mem_codeTable.mp hf
  have hk : (lookSym t.code d).bits = (lookSym t.code c).bits.take m := hk
  obtain rfl := h.eq_of_prefix hd hc (hk ▸ List.take_prefix m _)
  have hm : m < (lookSym t.code d).bits.length := hm
  have := congrArg List.length hk
  rw [List.length_take] at this
  omega

theorem decodes_codesOf {rest : BitString} {out : List Byte} (hrest : Decodes (codeTable t.code) [] rest out)
    (input : List Byte) (hv : ∀ b ∈ input, (lookSym t.code b).valid = true) :
    Decodes (codeTable t.code) [] (codesOf t.code input ++ rest) (input ++ out) := by
  induction input with
  | nil => exact hrest
  | cons b input ih =>
    rw [codesOf_cons, List.append_assoc]
    exact h.decodes_bits (hv b List.mem_cons_self) (ih fun c hc => hv c (List.mem_cons_of_mem _ hc))

theorem zeroCode_unique {c z : Byte} (hc : HasZeroCode t.code c) (hz : HasZeroCode t.code z) : c = z := by
  obtain hp | hp := List.prefix_or_prefix_of_prefix (hc.prefix_replicate (Nat.le_max_left ..))
    (hz.prefix_replicate (Nat.le_max_right ..))
  · exact h.eq_of_prefix hc.valid hz.valid hp
  · exact (h.eq_of_prefix hz.valid hc.valid hp).symm

/-- Zeros give the symbol of the all-zero code, as often as its code fits (R194, R260). -/
theorem decodes_zeros {z : Byte} (hz : HasZeroCode t.code z) (p : Nat) :
    Decodes (codeTable t.code) [] (List.replicate p false) (List.replicate (p / (lookSym t.code z).bits.length) z) := by
  have hpos := h.bits_length_pos hz.valid
  induction p using Nat.strong_induction_on with
  | _ p ih =>
  by_cases hp : p < (lookSym t.code z).bits.length
  · rw [Nat.div_eq_of_lt hp, List.replicate_zero, ← List.append_nil (List.replicate p false)]
    refine Decodes.append_of_no_key _ (fun n h1 hn e he hk => ?_) (.nil _)
    obtain ⟨c, hc, rfl⟩ := mem_codeTable.mp he
    rw [List.length_replicate] at hn
    rw [List.nil_append, List.take_replicate, min_eq_left hn] at hk
    have hk : (lookSym t.code c).bits = List.replicate n false := hk
    obtain rfl := h.zeroCode_unique (c := c) ⟨hc, fun bit hb => List.eq_of_mem_replicate (hk ▸ hb)⟩ hz
    rw [hk, List.length_replicate] at hp
    omega
  · have hle := Nat.le_of_not_lt hp
    have hsplit := List.prefix_iff_eq_append.mp (hz.prefix_replicate hle)
    rw [← hsplit, List.drop_replicate, Nat.div_eq_sub_div hpos hle, List.replicate_succ]
    exact h.decodes_bits hz.valid (ih _ (by omega))

end CodeLaws

/-! ### The symbol of the all-zero code -/

/-- The turns to the leftmost leaf are all left (R142). -/
theorem TreeAt.exists_leftmost {node : Vector Node Config.NODE_CAP} {i : ArenaIx} {l : List (Byte × BitString)}
    (ht : TreeAt node i l) : ∃ x ∈ l, ∀ bit ∈ x.2, bit = false := by
  induction ht with
  | leaf => exact ⟨_, List.mem_cons_self, by simp⟩
  | internal _ l r _ _ _ ihl _ =>
    obtain ⟨x, hx, hzero⟩ := ihl
    exact ⟨_, List.mem_append_left _ (List.mem_map_of_mem hx), by simpa using hzero⟩

theorem exists_zeroCode_of_execCodeAssign {s t : State} (h : Alone s) (hp : s.phase = .cAssign) (he : execCodeAssign s = .next t) :
    ∃ z, HasZeroCode t.code z := by
  obtain ⟨-, hF, hq⟩ := (encInv_iff_cAssign hp).mp h.tables
  obtain ⟨_, rfl, ⟨-, rfl⟩ | ⟨-, hvisit⟩⟩ := execCodeAssign_next he
  · exact ⟨s.node[(0 : ArenaIx)].sym, by simp, by simp⟩
  · obtain ⟨codes, htree, hperm⟩ := forest_root hF hq
    obtain ⟨-, rfl⟩ := (visit_eq_some_iff htree ..).mp hvisit
    obtain ⟨x, hx, hzero⟩ := htree.exists_leftmost
    have hentry := lookSym_assign_of_mem [] (hperm.nodup_iff.mpr (nodup_presentSymbols _)) hx s.code
    exact ⟨x.1, congrArg CodeEntry.valid hentry, by rw [hentry]; exact hzero⟩

theorem Alone.reaches {s t : State} (h : Alone s) (hreach : Reaches s t) : Alone t := by
  induction hreach with
  | refl => exact h
  | tail _ hstep ih => exact ih.step hstep

/-- For an input that is not empty the step before the header is CODE_ASSIGN (R207). -/
theorem HeaderNext.exists_zeroCode {s t : State} {input : List Byte} (hs : Ready s input)
    (hreach : Reaches (commanded s 0x81) t) (ht : HeaderNext s input t) (hl : input.length < 2 ^ 64) (hne : input ≠ []) :
    ∃ z, HasZeroCode t.code z := by
  obtain rfl | ⟨u, hu, hreach⟩ := hreach.cases_head
  · cases ht.alone
  obtain rfl := Host.Outcome.next.inj ((step_compress hs).symm.trans hu)
  obtain rfl | ⟨u, hreach, hstep⟩ := hreach.cases_tail
  · cases ht.phase
  have hu : Alone u := (alone_compressStarted hs.free).reaches hreach
  cases hi : selected u with
  | none =>
    obtain rfl := Host.Outcome.next.inj ((advance_of_none hu.free hi).symm.trans ((step_of_inbox_nil hu.alone).symm.trans hstep))
    rw [selected, ht.phase] at hi
    cases hi
  | some i =>
    have he : exec i u = .next t := (hu.step_eq hi).symm.trans hstep
    have hedge : Phase.cHeader ∈ successors u.phase := ht.phase ▸ block_phase hi he
    cases selected_cases hi with
    | codeAssign hp => exact exists_zeroCode_of_execCodeAssign hu hp he
    | freqScan hp =>
      obtain ⟨b, hb⟩ := List.exists_mem_of_ne_nil _ hne
      have hclear := (encInv_iff_clear (by rw [hp]; rfl)).mp hu.tables
      have hvalid := ht.valid hl hb
      obtain ⟨_, F, _, rfl⟩ := execFreqScan_next he
      exact absurd ((hclear.valid b).symm.trans hvalid) Bool.false_ne_true
    | treeSeed hp | treeMerge hp | serHeader hp | serTerm hp | serPayload hp | serFlush hp | desHeader hp | desPayload hp
    | packBits hp | unpackBits hp => rw [hp] at hedge; exact absurd hedge (by decide)

end Sys2Proof.Machine

/-! COMPRESS, then DECOMPRESS of what it wrote: the round trip, the terminator collision and one repeated byte (R194 to R196). -/

namespace Sys2Proof.Machine

/-! ### The end of COMPRESS -/

/-- COMPRESS of this input has ended: its code table stands and the stream is written (R139, R163, R202). -/
structure Compressed (input : List Byte) (t : State) : Prop where
  phase   : t.phase = .done
  inbox   : t.inbox = []
  errcode : t.errcode = 0
  nsym    : t.nsym = (presentSymbols t.freq).length
  laws    : CodeLaws t
  valid   : ∀ c, (lookSym t.code c).valid = true ↔ c ∈ input
  zero    : input ≠ [] → ∃ z, HasZeroCode t.code z
  snk     : t.snk.data = headerBytes t.code ++ Config.TERM :: pack (codesOf t.code input)

theorem sameTables_beforePayload (s : State) : SameTables s (beforePayload s) := by
  constructor <;> simp [beforePayload, afterWrites]

theorem sameTables_afterPayload (input : List Byte) (s : State) : SameTables s (afterPayload input s) :=
  ⟨rfl, rfl, rfl, rfl, rfl, rfl, rfl⟩

theorem sameTables_flushed (s : State) : SameTables s (flushed s) := ⟨rfl, rfl, rfl, rfl, rfl, rfl, rfl⟩

/-- The second pass and what is written around it leave the encoder's tables (R207). -/
theorem sameTables_compressDone (s : State) : SameTables s (compressDone s) :=
  ((sameTables_beforePayload s).trans (sameTables_afterPayload _ _)).trans (sameTables_flushed _)

theorem compressDone_errcode (s : State) : (compressDone s).errcode = s.errcode := by
  simp [compressDone, flushed, afterPayload, beforePayload, afterWrites]

theorem reaches_compressed {s : State} {input : List Byte} (h : Ready s input) (hl : input.length < 2 ^ 64) :
    ∃ t, Reaches (commanded s 0x81) t ∧ Compressed input t := by
  obtain ⟨u, hreach, hu⟩ := reaches_header h hl
  have hdata : u.src.data = input := by rw [hu.src]
  have hdone := hu.toAlone.reaches_compressDone hu.phase (by rw [hdata]; exact fun b hb => hu.valid hl hb)
  obtain ⟨hnsym, hlaws⟩ := (encInv_iff_coded (by rw [hu.phase]; rfl)).mp hu.tables
  have htables := sameTables_compressDone u
  refine ⟨compressDone u, hreach.trans hdone, compressDone_phase u, (compressDone_inbox u).trans hu.alone,
    (compressDone_errcode u).trans hu.errcode, by rw [htables.nsym, htables.freq, hnsym], htables.codeLaws hlaws, fun c => ?_,
    fun hne => ?_, ?_⟩
  · rw [compressDone_code]
    exact ⟨fun hv => by_contra fun hn => Bool.false_ne_true ((hu.not_valid hn).symm.trans hv), hu.valid hl⟩
  · rw [compressDone_code]
    exact hu.exists_zeroCode h hreach hl hne
  · rw [compressDone_snk, compressDone_code, hu.snk, h.sink, hdata]
    simp

/-! ### DECOMPRESS of what COMPRESS wrote -/

section

variable {input : List Byte} {t s : State} (h : Compressed input t) (h0 : Config.TERM ∉ input) (hs : Ready s t.snk.data)

include h h0 hs

/-- The decoder's table is the code table, and the payload's bits are the input's codes and the pad bits (R172, R192, R194). -/
theorem Compressed.reaches_decompressed :
    ∃ u, Reaches (commanded s 0x82) u ∧ u.phase = .done ∧ u.inbox = [] ∧ u.errcode = 0 ∧
      ∀ out, Decodes (codeTable t.code) [] (List.replicate (padBits (codesOf t.code input).length) false) out →
        u.snk.data = input ++ out := by
  have hstream : t.snk.data =
      ((codedSymbols t.code).map (codeRecord t.code)).flatMap recordBytes ++ Config.TERM :: pack (codesOf t.code input) := by
    rw [h.snk, headerBytes_eq_records]
  have hwf : ∀ x ∈ (codedSymbols t.code).map (codeRecord t.code), (Instr.hdrEntry x.1 x.2.1 x.2.2).wellFormed = true := by
    intro x hx
    obtain ⟨c, hc, rfl⟩ := List.mem_map.mp hx
    have hc := mem_codedSymbols.mp hc
    exact h.laws.wellFormed_codeRecord hc fun hterm => h0 (hterm ▸ (h.valid c).mp hc)
  have hlen : ((codedSymbols t.code).map (codeRecord t.code)).length ≤ 256 := by
    rw [List.length_map, h.laws.codedSymbols_eq]
    exact presentSymbols_length_le _
  have hkeys := h.laws.keys_codeTable
  obtain ⟨u, hreach, hu⟩ := Machine.reaches_decompressed hwf hlen (by rw [h.laws.table_eq]; exact hkeys) (hstream ▸ hs)
  have hdec := hu.decodes
  rw [hu.table, h.laws.table_eq, flatMap_byteBits_pack] at hdec
  exact ⟨u, hreach, hu.phase, hu.inbox, hu.errcode, fun out hout =>
    hdec.unique hkeys (h.laws.decodes_codesOf hout input fun b hb => (h.valid b).mpr hb)⟩

/-- The input comes back, and a symbol more for each time the all-zero code fits in the pad bits (R194, R260). -/
theorem Compressed.roundTrip {z : Byte} (hz : HasZeroCode t.code z) :
    ∃ u, Reaches (commanded s 0x82) u ∧ u.phase = .done ∧ u.inbox = [] ∧ u.errcode = 0 ∧
      u.snk.data = input ++ List.replicate (padBits (codesOf t.code input).length / (lookSym t.code z).bits.length) z := by
  obtain ⟨u, hreach, hphase, hinbox, herr, hout⟩ := h.reaches_decompressed h0 hs
  exact ⟨u, hreach, hphase, hinbox, herr, hout _ (h.laws.decodes_zeros hz _)⟩

end

/-- Settles O55: the encoder's table is the decoder's, so the codes give the input back and the pad bits copies of `z`. -/
theorem roundTripUpToPadding : Obligations.RoundTripUpToPadding := by
  refine ⟨fun s input hready hne h0 hl => ?_, fun s hready => ?_⟩
  · obtain ⟨t, hreach, ht⟩ := reaches_compressed hready hl
    obtain ⟨z, hz⟩ := ht.zero hne
    exact ⟨t, z, hreach, ht.phase, ht.inbox, (ht.valid z).mp hz.valid, hz.zeros, ht.laws.bits_length_pos hz.valid,
      fun c hc hzero => ht.laws.zeroCode_unique ⟨(ht.valid c).mpr hc, hzero⟩ hz, fun s' hs' => ht.roundTrip h0 hs' hz⟩
  · obtain ⟨t, hreach, ht⟩ := reaches_compressed hready (by decide)
    have hheader : headerBytes t.code = [] := by
      rw [headerBytes_eq_codedSymbols, List.flatMap_eq_nil_iff]
      exact fun c hc => absurd ((ht.valid c).mp (mem_codedSymbols.mp hc)) List.not_mem_nil
    have hcodes : codesOf t.code [] = [] := rfl
    refine ⟨t, hreach, ht.phase, ht.inbox, by rw [ht.snk, hheader, hcodes]; rfl, fun s' hs' => ?_⟩
    obtain ⟨u, hreach', hphase, hinbox, herr, hout⟩ := ht.reaches_decompressed List.not_mem_nil hs'
    exact ⟨u, hreach', hphase, hinbox, herr, hout [] (by rw [hcodes]; exact .nil [])⟩

/-! ### The terminator collision -/

/-- The header of a table with a code for 0x00 begins with that byte (R174). -/
theorem headerBytes_of_valid_zero {code : Vector CodeEntry Config.NSYMVALS} (hv : (lookSym code Config.TERM).valid = true) :
    ∃ rest, headerBytes code = Config.TERM :: rest := by
  have hfirst : allSymbols = Config.TERM :: (List.range 255).map (fun i => BitVec.ofNat 8 (i + 1)) := by
    rw [allSymbols, List.range_succ_eq_map, List.map_cons, List.map_map]
    rfl
  rw [headerBytes, hfirst, List.flatMap_cons, if_pos hv, entryBytes]
  exact ⟨_, rfl⟩

/-- Settles O56: the first symbol of the header is taken as its end, and without entries no bit gives a symbol. -/
theorem terminatorCollisionLosesTheInput : Obligations.TerminatorCollisionLosesTheInput := by
  intro s input hready h0 hl
  obtain ⟨t, hreach, ht⟩ := reaches_compressed hready hl
  obtain ⟨header, hheader⟩ := headerBytes_of_valid_zero ((ht.valid Config.TERM).mpr h0)
  have hstream : t.snk.data = Config.TERM :: (header ++ Config.TERM :: pack (codesOf t.code input)) := by
    rw [ht.snk, hheader, List.cons_append]
  refine ⟨t, hreach, ht.phase, ht.errcode, by rw [hstream]; rfl, fun s' hs' => ?_⟩
  obtain ⟨u, hreach', hu⟩ := reaches_decompressed (xs := []) (by simp) (by simp) .nil (hstream ▸ hs')
  have hdec := hu.decodes
  rw [hu.table] at hdec
  exact ⟨u, hreach', hu.phase, hu.errcode, hu.dn, hu.pos, hdec.eq_nil_of_no_entries⟩

/-! ### One symbol -/

theorem byteOf_replicate_false (m : Nat) : byteOf (List.replicate m false) = 0x00 := by
  have hbit : ∀ i, bitAt (List.replicate m false) i = false := fun _ => List.getElem?_getD_replicate_default_eq ..
  simp only [byteOf, hbit]
  rfl

theorem packBytes_replicate_false (n : Nat) : ∀ m, packBytes n (List.replicate m false) = List.replicate n 0x00 := by
  induction n with
  | zero => exact fun _ => rfl
  | succ n ih => intro m; rw [packBytes, byteOf_replicate_false, List.drop_replicate, ih, List.replicate_succ]

theorem pack_replicate_false (n : Nat) : pack (List.replicate n false) = List.replicate (ceil8 n) 0x00 := by
  rw [pack, packBytes_replicate_false, List.length_replicate]

theorem Compressed.codedSymbols_of_replicate {n : Nat} {v : Byte} {t : State} (h : Compressed (List.replicate n v) t)
    (hn : 1 ≤ n) : codedSymbols t.code = [v] := by
  have hnodup : (codedSymbols t.code).Nodup := h.laws.codedSymbols_eq ▸ nodup_presentSymbols t.freq
  have hmem : ∀ c, c ∈ codedSymbols t.code ↔ c ∈ [v] := fun c => by
    rw [mem_codedSymbols, h.valid, List.mem_replicate, List.mem_singleton]
    exact and_iff_right (by omega)
  exact List.perm_singleton.mp ((List.perm_ext_iff_of_nodup hnodup (List.nodup_singleton v)).mpr hmem)

/-- The only symbol has the code 0 (R137). -/
theorem Compressed.code_of_replicate {n : Nat} {v : Byte} {t : State} (h : Compressed (List.replicate n v) t) (hn : 1 ≤ n) :
    lookSym t.code v = { valid := true, len := 1, bits := [false] } := by
  have hpresent : presentSymbols t.freq = [v] := h.laws.codedSymbols_eq ▸ h.codedSymbols_of_replicate hn
  have hv : (lookSym t.code v).valid = true := (h.valid v).mpr (List.mem_replicate.mpr ⟨by omega, rfl⟩)
  have hbits : (lookSym t.code v).bits = [false] :=
    h.laws.single (by rw [h.nsym, hpresent]; rfl) v (by rw [hpresent]; exact List.mem_singleton_self v)
  have hlen : (lookSym t.code v).len = 1 := by
    have := (h.laws.len v hv).1
    rw [hbits] at this
    exact BitVec.eq_of_toNat_eq this.symm
  rw [← hv, ← hbits, ← hlen]

theorem codesOf_replicate {code : Vector CodeEntry Config.NSYMVALS} {v : Byte} (hv : (lookSym code v).bits = [false]) (n : Nat) :
    codesOf code (List.replicate n v) = List.replicate n false := by
  induction n with
  | zero => rfl
  | succ n ih => rw [List.replicate_succ, codesOf_cons, ih, hv]; rfl

/-- Settles O57: the code 0 is one bit, so every pad bit gives a copy more. -/
theorem singleSymbolInput : Obligations.SingleSymbolInput := by
  intro s v n hready hv hn hl
  obtain ⟨t, hreach, ht⟩ := reaches_compressed hready (by rwa [List.length_replicate])
  have hcode := ht.code_of_replicate hn
  have hcodes := codesOf_replicate (code := t.code) (v := v) (by rw [hcode]) n
  refine ⟨t, hreach, ht.phase, hcode, ?_, fun s' hs' => ?_⟩
  · rw [ht.snk, headerBytes_eq_codedSymbols, ht.codedSymbols_of_replicate hn, hcodes, pack_replicate_false, List.flatMap_singleton,
      hcode]
    rfl
  · have hz : HasZeroCode t.code v := ⟨by rw [hcode], by simp [hcode]⟩
    obtain ⟨u, hreach', hphase, -, herr, hout⟩ := ht.roundTrip (fun h => hv (List.eq_of_mem_replicate h).symm) hs' hz
    refine ⟨u, hreach', hphase, herr, ?_⟩
    rw [hout, hcodes, hcode, List.length_replicate, List.length_singleton, Nat.div_one, ← List.replicate_add, padBits]
    congr 1
    omega

end Sys2Proof.Machine

/-! What one step runs: the host's write of `CMD`, or the operation `PHASE` selects (R201, R206, R207, R210, R211). -/

namespace Sys2Proof.Machine

/-! ### The host's write of `CMD` -/

/-- With `rst` released the host's write of `CMD` is the instruction its value decodes to (R201, R211, R250). -/
theorem step_of_writeCmd {s : State} {b : Byte} {rest : List HostAct} (hr : s.rst = false)
    (hin : s.inbox = .writeCmd b :: rest) : step s = exec (decodeCmd b) { s with inbox := rest } := by
  rw [step_of_inbox_cons hin, hostAct, hr, if_neg Bool.false_ne_true]

/-- An opcode-table word that is an instruction is read by its first byte, as a `CMD` value (log 5). -/
theorem exists_cons_of_decodeTableWord {nbits w : Nat} {i : Instr} (h : decodeTableWord nbits w = some i) :
    ∃ b bs, wordBytes ((nbits + 7) / 8) w = b :: bs ∧ decodeCmd b = i := by
  unfold decodeTableWord at h
  cases hw : wordBytes ((nbits + 7) / 8) w with
  | nil => rw [hw] at h; cases h
  | cons b bs => rw [hw] at h; exact ⟨b, bs, rfl, Option.some.inj h⟩

theorem withFetchWord_of_cons {nbits w : Nat} {b : Byte} {bs : List Byte} (h : wordBytes ((nbits + 7) / 8) w = b :: bs)
    (s : State) : s.withFetchWord nbits w = { s with rst := false, inbox := .writeCmd b :: s.inbox } := by
  rw [State.withFetchWord, h]

/-- Settles O5: a `CMD` write in the inbox, and the one a table word puts there. -/
theorem stepRunsTheHostsCommand : Obligations.StepRunsTheHostsCommand := by
  refine ⟨fun s b rest => step_of_writeCmd, fun s nbits w i hi => ?_⟩
  obtain ⟨b, bs, hw, rfl⟩ := exists_cons_of_decodeTableWord hi
  rw [withFetchWord_of_cons hw]
  exact step_of_writeCmd rfl rfl

theorem writeStart_of_busy {s : State} (hb : s.status.busy = true) (op : BitVec 3) : writeStart op s = s := if_pos hb

/-- While busy a write of `CMD` is ignored, with `START` or without (R210). -/
theorem exec_decodeCmd_of_busy {s : State} (hb : s.status.busy = true) (b : Byte) : exec (decodeCmd b) s = .next s := by
  rw [exec_decodeCmd, writeStart_of_busy hb, if_pos hb, ite_self]

/-- Settles O13: a write with `START` does nothing while busy, one without it only latches `OP`, and that while idle. -/
theorem commandWriteWithoutStart : Obligations.CommandWriteWithoutStart := by
  refine ⟨fun s b hb => exec_decodeCmd_of_busy hb b, fun s op hb => ?_, fun s op hb => ?_⟩
  · have hstart : ∀ op, Host.Outcome.next (writeStart op s) = (.next s : Answer) := fun op =>
      congrArg _ (writeStart_of_busy hb op)
    exact ⟨hstart 1, hstart 2, hstart 3, hstart 4, hstart op, congrArg _ (if_pos hb)⟩
  · have hlatch : exec (.cmdNoStart op) s = .next (latchOp op s) := congrArg _ (if_neg (by simp [hb]))
    rw [hlatch, latchOp, encodeCmd_false_eq]

/-! ### The operation `PHASE` selects -/

/-- Settles O6, phase by phase. -/
theorem stepRunsTheOperationOfThePhase : Obligations.StepRunsTheOperationOfThePhase := by
  intro s hin hr
  have hrun : ∀ {i}, selected s = some i → step s = exec i s := step_of_selected hin hr
  refine ⟨fun hp => hrun ?_, fun hp h0 => hrun ?_, fun hp h0 => hrun ?_, fun hp => hrun ?_, fun hp => hrun ?_, fun hp => hrun ?_,
    fun hp => hrun ?_, fun hp => hrun ?_, fun hp => hrun ?_, fun hp => hrun ?_, fun hp => hrun ?_, fun hp => hrun ?_,
    fun hp => (step_of_inbox_nil hin).trans (advance_of_none hr ?_)⟩
  case refine_2 => simp only [selected, hp, if_pos h0]
  case refine_3 => simp only [selected, hp, if_neg h0]
  case refine_13 => obtain hp | hp | hp := hp <;> simp only [selected, hp]
  all_goals simp only [selected, hp]

end Sys2Proof.Machine

/-! The encoder and the decoder share no table: which registers of the one the operations of the other leave (R20, R32 to R36, R200). -/

namespace Sys2Proof.Machine

/-- Two states with the same decode table and entry registers (R34, R36). -/
structure SameHeader (s t : State) : Prop where
  dtab : t.dtab = s.dtab
  dn   : t.dn = s.dn
  eSym : t.eSym = s.eSym
  eLen : t.eLen = s.eLen
  eNb  : t.eNb = s.eNb
  eBuf : t.eBuf = s.eBuf

/-- Two states with the same registers of the decoder (R34 to R36). -/
structure SameDecoder (s t : State) : Prop extends SameHeader s t where
  cand : t.cand = s.cand

section

variable {s t : State} {i : Instr}

theorem SameDecoder.refl (s : State) : SameDecoder s s := ⟨⟨rfl, rfl, rfl, rfl, rfl, rfl⟩, rfl⟩

theorem sameDecoder_endBuild (s : State) : SameDecoder s (endBuild s) where
  dtab := endBuild_dtab s
  dn := endBuild_dn s
  eSym := endBuild_eSym s
  eLen := endBuild_eLen s
  eNb := endBuild_eNb s
  eBuf := endBuild_eBuf s
  cand := endBuild_cand s

/-! ### What each direction leaves of the other's registers -/

/-- The operations of COMPRESS, PACK and UNPACK leave the decoder's registers. -/
theorem sameDecoder_of_selected (hh : s.phase ≠ .dHeader) (hd : s.phase ≠ .dPayload) (hi : selected s = some i)
    (he : exec i s = .next t) : SameDecoder s t := by
  cases selected_cases hi with
  | freqScan =>
    obtain ⟨_, _, _, rfl⟩ := execFreqScan_next he
    exact { SameDecoder.refl s with }
  | treeSeed =>
    obtain ⟨_, N, Q, n, _, rfl, _, _, rfl⟩ := execTreeSeed_next he
    exact { sameDecoder_endBuild { s with node := N, inq := Q, nnodes := n } with }
  | treeMerge =>
    obtain ⟨_, _, _, rfl⟩ | ⟨a, b, hn, _, _, rfl⟩ := execTreeMerge_next he
    · exact sameDecoder_endBuild s
    · exact { sameDecoder_endBuild (merged a b s hn) with }
  | codeAssign =>
    obtain ⟨_, rfl, _⟩ := execCodeAssign_next he
    exact { SameDecoder.refl s with }
  | serHeader =>
    obtain rfl := Host.Outcome.next.inj ((execSerHeader_eq s).symm.trans he)
    exact { SameDecoder.refl s with }
  | serTerm =>
    obtain rfl := Host.Outcome.next.inj he
    exact { SameDecoder.refl s with }
  | serPayload =>
    obtain ⟨_, h1⟩ | ⟨_, _, _, _, h1⟩ | ⟨_, _, _, _, h1⟩ := execSerPayload_cases s <;>
      obtain rfl := Host.Outcome.next.inj (h1.symm.trans he) <;> exact { SameDecoder.refl s with }
  | serFlush =>
    obtain rfl := Host.Outcome.next.inj ((execSerFlush_eq s).symm.trans he)
    exact { SameDecoder.refl s with }
  | desHeader hp => exact absurd hp hh
  | desPayload hp => exact absurd hp hd
  | packBits =>
    obtain ⟨_, _, h1⟩ | ⟨_, _, _, _, _, h1⟩ := execPackBits_cases s <;>
      obtain rfl := Host.Outcome.next.inj (h1.symm.trans he) <;> exact { SameDecoder.refl s with }
  | unpackBits =>
    obtain ⟨_, _, _, _, h1⟩ | ⟨_, h1⟩ := execUnpackBits_cases s <;>
      obtain rfl := Host.Outcome.next.inj (h1.symm.trans he) <;> exact { SameDecoder.refl s with }

theorem insertEntry_cand_acc (s : State) : (insertEntry s).cand = s.cand ∧ (insertEntry s).acc = s.acc := by
  obtain ⟨_, h⟩ | ⟨_, _, h⟩ | ⟨_, _, h⟩ := insertEntry_cases s <;> rw [h] <;> exact ⟨rfl, rfl⟩

/-- DES_HEADER has nothing to do with the candidate and the accumulator (R33, R35). -/
theorem execDesHeader_cand_acc (he : execDesHeader s = .next t) : t.cand = s.cand ∧ t.acc = s.acc := by
  obtain ⟨_, h1⟩ | ⟨_, _, h1⟩ | ⟨_, _, _, h1⟩ | ⟨_, _, _, _, _, _, h1⟩ | ⟨_, _, _, _, _, _, _, h1⟩ :=
    execDesHeader_cases s <;> obtain rfl := Host.Outcome.next.inj (h1.symm.trans he)
  case inr.inr.inr.inr => exact insertEntry_cand_acc _
  all_goals exact ⟨rfl, rfl⟩

/-- DES_PAYLOAD only looks up the decode table, and has nothing to do with the accumulator (R33, R190). -/
theorem execDesPayload_header_acc (he : execDesPayload s = .next t) : SameHeader s t ∧ t.acc = s.acc := by
  obtain ⟨_, h1⟩ | ⟨b, _, _, h1⟩ := execDesPayload_cases s <;> obtain rfl := Host.Outcome.next.inj (h1.symm.trans he)
  · exact ⟨⟨rfl, rfl, rfl, rfl, rfl, rfl⟩, rfl⟩
  · obtain ⟨_, _, _, hm⟩ := matchByte_frame b (afterReads [b] s)
    rw [hm]
    exact ⟨⟨rfl, rfl, rfl, rfl, rfl, rfl⟩, rfl⟩

theorem execUnpackBits_acc (he : execUnpackBits s = .next t) : t.acc = s.acc := by
  obtain ⟨_, _, _, _, h1⟩ | ⟨_, h1⟩ := execUnpackBits_cases s <;> obtain rfl := Host.Outcome.next.inj (h1.symm.trans he) <;> rfl

end

/-! ### The statement -/

/-- Settles O46: DECOMPRESS's two operations each by itself, those of the other commands together. -/
theorem encoderAndDecoderShareNoTable : Obligations.EncoderAndDecoderShareNoTable := by
  intro s t hin hr h
  have hrun : ∀ {i}, selected s = some i → exec i s = .next t := fun hi => (step_of_selected hin hr hi).symm.trans h
  have hother : s.phase ≠ .dHeader → s.phase ≠ .dPayload → SameDecoder s t := fun hh hd => by
    cases hi : selected s with
    | none =>
      obtain rfl := Host.Outcome.next.inj ((step_of_inbox_nil hin).trans (advance_of_none hr hi) |>.symm.trans h)
      exact .refl s
    | some i => exact sameDecoder_of_selected hh hd hi (hrun hi)
  have hheader : s.phase = .dHeader → execDesHeader s = .next t := fun hp => hrun (i := .desHeader) (by rw [selected, hp])
  have hpayload : s.phase = .dPayload → execDesPayload s = .next t := fun hp => hrun (i := .desPayload) (by rw [selected, hp])
  have hpack : s.phase = .pPack → execPackBits s = .next t := fun hp => hrun (i := .packBits) (by rw [selected, hp])
  have hunpack : s.phase = .uUnpack → execUnpackBits s = .next t := fun hp => hrun (i := .unpackBits) (by rw [selected, hp])
  refine ⟨fun hh => ?_, fun hd => ?_, fun hp => ?_, fun hp => ?_⟩
  · have hS : SameHeader s t := by
      by_cases hd : s.phase = .dPayload
      · exact (execDesPayload_header_acc (hpayload hd)).1
      · exact (hother hh hd).toSameHeader
    exact ⟨hS.dtab, hS.dn, hS.eSym, hS.eLen, hS.eNb, hS.eBuf⟩
  · by_cases hh : s.phase = .dHeader
    · exact (execDesHeader_cand_acc (hheader hh)).1
    · exact (hother hh hd).cand
  · have hT : SameTables s t := by
      obtain hp | hp | hp | hp := hp
      · exact sameTables_execDesHeader (hheader hp)
      · exact sameTables_execDesPayload (hpayload hp)
      · exact sameTables_execPackBits (hpack hp)
      · exact sameTables_execUnpackBits (hunpack hp)
    exact ⟨hT.freq, hT.nsym, hT.node, hT.inq, hT.nnodes, hT.root, hT.code⟩
  · obtain hp | hp | hp := hp
    · exact (execDesHeader_cand_acc (hheader hp)).2
    · exact (execDesPayload_header_acc (hpayload hp)).2
    · exact execUnpackBits_acc (hunpack hp)

end Sys2Proof.Machine

/-! Every run ends: each phase's operation leads on along the edges of R207, and those that repeat use up the source or the queue. -/

namespace Sys2Proof.Machine

/-- Steps of the block lead to the end of its run (R208, R230). -/
def RunEnds (s : State) : Prop := ∃ t, Reaches s t ∧ (t.phase = .done ∨ t.phase = .error)

theorem RunEnds.of_reaches {s t : State} (h : RunEnds t) (hreach : Reaches s t) : RunEnds s := by
  obtain ⟨u, hu, hp⟩ := h
  exact ⟨u, hreach.trans hu, hp⟩

theorem runEnds_of_phase {s : State} (hp : s.phase = .done ∨ s.phase = .error) : RunEnds s := ⟨s, .refl, hp⟩

theorem RunEnds.of_step {s t : State} (h : RunEnds t) (hstep : step s = .next t) : RunEnds s :=
  h.of_reaches (reaches_of_step hstep)

section

variable {s : State}

/-! ### COMPRESS -/

theorem Alone.runEnds_cFlush (h : Alone s) (hp : s.phase = .cFlush) : RunEnds s :=
  .of_step (runEnds_of_phase (.inl rfl)) ((h.step_eq (i := .serFlush) (by rw [selected, hp])).trans (execSerFlush_eq s))

/-- The payload phase: each step but the last reads a byte, or ends the run (R168, R169). -/
theorem Alone.runEnds_cPayload (input : List Byte) : ∀ {s : State}, Alone s → s.phase = .cPayload → unread s = input →
    RunEnds s := by
  induction input with
  | nil =>
    intro s h hp hu
    have hstep := (h.step_eq (i := .serPayload) (by rw [selected, hp])).trans (execSerPayload_of_eos hu)
    exact .of_step ((h.step hstep).runEnds_cFlush rfl) hstep
  | cons b bs ih =>
    intro s h hp hu
    have hsel : selected s = some .serPayload := by rw [selected, hp]
    cases hv : (lookSym s.code b).valid with
    | true =>
      have hstep := (h.step_eq hsel).trans (execSerPayload_of_code hu hv)
      exact .of_step (ih (h.step hstep) hp (unread_afterReads (xs := [b]) hu)) hstep
    | false => exact .of_step (runEnds_of_phase (.inr rfl)) ((h.step_eq hsel).trans (execSerPayload_of_noCode hu hv))

theorem Alone.runEnds_cTerm (h : Alone s) (hp : s.phase = .cTerm) : RunEnds s := by
  have hstep : Machine.step s = .next { srcRewind (sinkWrite Config.TERM s) with phase := .cPayload, acc := [] } :=
    h.step_eq (i := .serTerm) (by rw [selected, hp])
  exact .of_step (Alone.runEnds_cPayload _ (h.step hstep) rfl rfl) hstep

theorem Alone.runEnds_cHeader (h : Alone s) (hp : s.phase = .cHeader) : RunEnds s := by
  have hstep := (h.step_eq (i := .serHeader) (by rw [selected, hp])).trans (execSerHeader_eq s)
  exact .of_step ((h.step hstep).runEnds_cTerm rfl) hstep

theorem Alone.runEnds_cAssign (h : Alone s) (hp : s.phase = .cAssign) : RunEnds s := by
  obtain ⟨t, hreach, htp, ht, _⟩ := h.codeAssign hp
  exact (ht.runEnds_cHeader htp).of_reaches hreach

theorem Alone.runEnds_cBuild (h : Alone s) (hp : s.phase = .cBuild) : RunEnds s := by
  have hbuild : ∃ t, Reaches s t ∧ t.phase = .cAssign ∧ Alone t ∧ BuiltFrom s t := by
    by_cases h0 : s.nnodes = 0
    · exact h.build hp h0
    · exact Alone.treeMerges _ h hp h0 le_rfl
  obtain ⟨t, hreach, htp, ht, _⟩ := hbuild
  exact (ht.runEnds_cAssign htp).of_reaches hreach

theorem Alone.runEnds_cFreq (h : Alone s) (hp : s.phase = .cFreq) (hl : s.src.data.length < 2 ^ 64) : RunEnds s := by
  have hunread : (unread s).length < 2 ^ 64 := by
    rw [unread, List.length_drop]; omega
  obtain ⟨t, hreach, htp, ht, _⟩ := h.toHeader hp hunread
  exact (ht.runEnds_cHeader htp).of_reaches hreach

/-! ### DECOMPRESS -/

theorem Alone.runEnds_dPayload (h : Alone s) (hp : s.phase = .dPayload) : RunEnds s := by
  obtain ⟨_, _, _, hreach⟩ := h.decodePayload _ hp rfl
  exact ⟨_, hreach, .inl rfl⟩

/-- The header phase: each step reads the bytes of a record, or ends the run (R181, R184, R229). -/
theorem Alone.runEnds_dHeader (n : Nat) : ∀ {s : State}, Alone s → s.phase = .dHeader → (unread s).length < n →
    RunEnds s := by
  induction n with
  | zero => exact fun _ _ hn => absurd hn (Nat.not_lt_zero _)
  | succ n ih =>
    intro s h hp hn
    have hstep := h.step_eq (i := .desHeader) (by rw [selected, hp])
    obtain ⟨_, he⟩ | ⟨_, _, he⟩ | ⟨_, _, _, he⟩ | ⟨_, _, _, _, _, _, he⟩ | ⟨b, l, cs, rest, hu, _, _, he⟩ :=
      execDesHeader_cases s <;> have hstep := hstep.trans he
    · exact .of_step (runEnds_of_phase (.inr rfl)) hstep
    · exact .of_step ((h.step hstep).runEnds_dPayload rfl) hstep
    · exact .of_step (runEnds_of_phase (.inr rfl)) hstep
    · exact .of_step (runEnds_of_phase (.inr rfl)) hstep
    · refine .of_step ?_ hstep
      have ht := h.step hstep
      obtain ⟨_, hi⟩ | ⟨_, _, hi⟩ | ⟨_, _, hi⟩ := insertEntry_cases _ <;> rw [hi] at ht ⊢
      · exact runEnds_of_phase (.inr rfl)
      · exact runEnds_of_phase (.inr rfl)
      · refine ih ht hp ?_
        have hrest : unread (afterReads (b :: l :: cs) s) = rest := unread_afterReads hu
        have hlen := congrArg List.length hu
        rw [List.length_append, List.length_cons] at hlen
        exact (congrArg List.length hrest).trans_lt (by omega)

/-! ### PACK and UNPACK -/

theorem Alone.runEnds_pPack (h : Alone s) (hp : s.phase = .pPack) : RunEnds s := by
  have hstep := h.step_eq (i := .packBits) (by rw [selected, hp])
  obtain ⟨_, _, he⟩ | ⟨_, _, _, _, _, he⟩ := execPackBits_cases s
  · exact .of_step (runEnds_of_phase (.inl (finish_phase _))) (hstep.trans he)
  · exact .of_step (runEnds_of_phase (.inr rfl)) (hstep.trans he)

theorem Alone.runEnds_uUnpack (h : Alone s) (hp : s.phase = .uUnpack) : RunEnds s := by
  have hstep := h.step_eq (i := .unpackBits) (by rw [selected, hp])
  obtain ⟨_, _, _, _, he⟩ | ⟨_, he⟩ := execUnpackBits_cases s
  · exact .of_step (runEnds_of_phase (.inl rfl)) (hstep.trans he)
  · exact .of_step (runEnds_of_phase (.inr rfl)) (hstep.trans he)

end

/-! ### The statement -/

/-- A busy block is not held in reset (R250, R251). -/
theorem State.Inv.free_of_busy {s : State} (h : s.Inv) (hb : s.status.busy = true) : s.rst = false := by
  by_contra hr
  exact Bool.false_ne_true ((h.held (Bool.eq_true_of_not_eq_false hr)).busy.symm.trans hb)

/-- Settles O48, phase by phase, from the last to the first. -/
theorem everyRunEnds : Obligations.EveryRunEnds := by
  intro s hI hE hin hb hl
  have h : Alone s := ⟨hI.free_of_busy hb, hin, hE⟩
  have hstatus : (statusOf s.phase).busy = true := hI.status ▸ hb
  cases hp : s.phase with
  | idle | done | error => rw [hp] at hstatus; exact absurd hstatus Bool.false_ne_true
  | cFreq => exact h.runEnds_cFreq hp hl
  | cBuild => exact h.runEnds_cBuild hp
  | cAssign => exact h.runEnds_cAssign hp
  | cHeader => exact h.runEnds_cHeader hp
  | cTerm => exact h.runEnds_cTerm hp
  | cPayload => exact Alone.runEnds_cPayload _ h hp rfl
  | cFlush => exact h.runEnds_cFlush hp
  | dHeader => exact Alone.runEnds_dHeader _ h hp (Nat.lt_succ_self _)
  | dPayload => exact h.runEnds_dPayload hp
  | pPack => exact h.runEnds_pPack hp
  | uUnpack => exact h.runEnds_uUnpack hp

end Sys2Proof.Machine

/-! COMPRESS and DECOMPRESS as a whole: the stream the one writes, and what the other makes of any stream of the format (R202, R203). -/

namespace Sys2Proof.Machine

/-! ### COMPRESS -/

theorem compressDone_status (s : State) : (compressDone s).status = Status.ended := rfl

/-- The second pass ends at the end of the source (R168, R171). -/
theorem compressDone_pos (s : State) : (compressDone s).src.pos = s.src.data.length := Nat.zero_add _

/-- A run of COMPRESS goes by the state in which its header begins (R207). -/
theorem reaches_compressDone {s : State} {input : List Byte} (h : Ready s input) (hl : input.length < 2 ^ 64) :
    ∃ u, HeaderNext s input u ∧ Reaches (commanded s 0x81) (compressDone u) := by
  obtain ⟨u, hreach, hu⟩ := reaches_header h hl
  refine ⟨u, hu, hreach.trans (hu.toAlone.reaches_compressDone hu.phase fun b hb => hu.valid hl ?_)⟩
  rwa [hu.src] at hb

/-- Settles O50: the counts and the code table stand when the header begins, and what follows writes the stream. -/
theorem compressWritesHeaderTerminatorPayload : Obligations.CompressWritesHeaderTerminatorPayload := by
  intro s input hready hl
  obtain ⟨u, hu, hreach⟩ := reaches_compressDone hready hl
  have hdata : u.src.data = input := by rw [hu.src]
  have htables := sameTables_compressDone u
  obtain ⟨_, hlaws⟩ := (encInv_iff_coded (by rw [hu.phase]; rfl)).mp hu.tables
  refine ⟨compressDone u, hreach, compressDone_phase u, (compressDone_inbox u).trans hu.alone,
    (compressDone_errcode u).trans hu.errcode, compressDone_status u, (compressDone_pos u).trans (by rw [hdata]), fun c => ?_,
    htables.codeLaws hlaws, ?_⟩
  · rw [htables.freq]
    exact hu.toNat_freq hl c
  · rw [compressDone_snk, compressDone_code, ← headerBytes_eq_codedSymbols, hu.snk, hready.sink, hdata, List.nil_append]
    rfl

/-! ### DECOMPRESS -/

/-- Settles O54: different keys are what the insertion of the entries asks for. -/
theorem decompressParsesThenDecodes : Obligations.DecompressParsesThenDecodes := by
  intro s entries payload hw hl hkeys hready
  have hpairs : (entries.map recordEntry).Pairwise (fun e f => e.key ≠ f.key) :=
    List.pairwise_map.mp (by rwa [List.map_map])
  obtain ⟨t, hreach, ht⟩ := reaches_decompressed hw hl hpairs hready
  exact ⟨t, hreach, ht.phase, ht.errcode, ht.status, ht.pos, ht.table, ht.decodes⟩

end Sys2Proof.Machine

/-! Reset: the values it leaves, and that the block is held in them (R250, R251). -/

namespace Sys2Proof.Machine

/-- Settles O9: power-on and the assertion leave the same registers, and the assertion keeps the streams. -/
theorem resetLeavesTheResetValues : Obligations.ResetLeavesTheResetValues :=
  ⟨resetValues_reset, fun _ _ hin => ⟨_, step_of_inbox_cons hin, resetValues_resetBlock _, rfl, rfl, rfl, rfl, rfl⟩⟩

/-- While `rst` is asserted letting the block run and writing a register come to the same: the block is held in reset (R250). -/
theorem hostAct_of_held {a : HostAct} {s : State} (hr : s.rst = true)
    (ha : a = .pass ∨ (∃ b, a = .writeCmd b) ∨ ∃ v, a = .writeLenArg v) : hostAct a s = .next (resetBlock s) := by
  obtain rfl | ⟨b, rfl⟩ | ⟨v, rfl⟩ := ha
  · exact advance_of_held hr
  · exact if_pos hr
  · exact if_pos hr

/-- Settles O10: with an act of the host or without one the step is `resetBlock`, and the release writes `rst` alone. -/
theorem resetHoldsTheBlock : Obligations.ResetHoldsTheBlock := by
  refine ⟨fun s hr hin => ?_, fun s rest hin => step_of_inbox_cons hin⟩
  obtain hin | ⟨a, rest, hin, ha⟩ := hin
  · refine ⟨resetBlock s, (step_of_inbox_nil hin).trans (advance_of_held hr), resetValues_resetBlock s, hr, rfl, rfl, rfl, ?_⟩
    rw [resetBlock_inbox, hin, List.tail_nil]
  · refine ⟨resetBlock { s with inbox := rest }, (step_of_inbox_cons hin).trans (hostAct_of_held hr ha), resetValues_resetBlock _,
      hr, rfl, rfl, rfl, ?_⟩
    rw [resetBlock_inbox, hin, List.tail_cons]

/-- Settles O23: in `IDLE` the invariant says that the tables are clear. -/
theorem encoderInvariantAtReset : Obligations.EncoderInvariantAtReset :=
  (encInv_iff_clear rfl).mpr resetValues_reset.tablesClear

end Sys2Proof.Machine

/-! No output before the whole input: the operations of the phases that write nothing to the sink (R62, R203, R258). -/

namespace Sys2Proof.Machine

section

variable {s t : State}

theorem execFreqScan_snk (he : execFreqScan s = .next t) : t.snk = s.snk := by
  obtain ⟨_, _, _, rfl⟩ := execFreqScan_next he
  rfl

theorem execTreeSeed_snk (he : execTreeSeed s = .next t) : t.snk = s.snk := by
  obtain ⟨_, _, _, _, _, rfl, _, _, rfl⟩ := execTreeSeed_next he
  exact endBuild_snk _

theorem execTreeMerge_snk (he : execTreeMerge s = .next t) : t.snk = s.snk := by
  obtain ⟨_, _, _, rfl⟩ | ⟨_, _, _, _, _, rfl⟩ := execTreeMerge_next he <;> exact endBuild_snk _

theorem execCodeAssign_snk (he : execCodeAssign s = .next t) : t.snk = s.snk := by
  obtain ⟨_, rfl, _⟩ := execCodeAssign_next he
  rfl

theorem insertEntry_snk (s : State) : (insertEntry s).snk = s.snk := by
  obtain ⟨_, h⟩ | ⟨_, _, h⟩ | ⟨_, _, h⟩ := insertEntry_cases s <;> rw [h] <;> rfl

theorem execDesHeader_snk (he : execDesHeader s = .next t) : t.snk = s.snk := by
  obtain ⟨_, h1⟩ | ⟨_, _, h1⟩ | ⟨_, _, _, h1⟩ | ⟨_, _, _, _, _, _, h1⟩ | ⟨_, _, _, _, _, _, _, h1⟩ :=
    execDesHeader_cases s <;> obtain rfl := Host.Outcome.next.inj (h1.symm.trans he)
  case inr.inr.inr.inr => exact insertEntry_snk _
  all_goals rfl

end

/-- Settles O47: phase by phase, `C_BUILD` having two operations. -/
theorem noOutputBeforeTheWholeInput : Obligations.NoOutputBeforeTheWholeInput := by
  intro s t hin hr h hp
  obtain ⟨hfreq, hseed, hmerge, hassign, _, _, _, _, hheader, _⟩ := stepRunsTheOperationOfThePhase s hin hr
  obtain hp | hp | hp | hp := hp
  · exact execFreqScan_snk ((hfreq hp).symm.trans h)
  · by_cases h0 : s.nnodes = 0
    · exact execTreeSeed_snk ((hseed hp h0).symm.trans h)
    · exact execTreeMerge_snk ((hmerge hp h0).symm.trans h)
  · exact execCodeAssign_snk ((hassign hp).symm.trans h)
  · exact execDesHeader_snk ((hheader hp).symm.trans h)

end Sys2Proof.Machine

/-! Errors are precise: where the block's own operations raise one, and what they have written by then (R227, R230, R231). -/

namespace Sys2Proof.Machine

/-- The errors the component operations raise; the other two are START's (R209, R220, R229). -/
def blockErrors : List Err := [.formatTruncated, .formatDuplicateKey, .encInternal, .formatTableFull]

theorem errCode_of_mem_blockErrors : ∀ e ∈ blockErrors, errCode e = 2 ∨ errCode e = 3 ∨ errCode e = 4 ∨ errCode e = 5 := by
  decide

/-- What an operation that is going to raise an error leaves as it was: the encoder's tables, the decoder's table and candidate, the
sink and the host's registers (R230, R231). -/
structure Untouched (s u : State) : Prop extends SameTables s u where
  dtab   : u.dtab = s.dtab
  dn     : u.dn = s.dn
  cand   : u.cand = s.cand
  snk    : u.snk = s.snk
  cmd    : u.cmd = s.cmd
  lenArg : u.lenArg = s.lenArg

theorem Untouched.refl (s : State) : Untouched s s where
  freq := rfl
  nsym := rfl
  node := rfl
  inq := rfl
  nnodes := rfl
  root := rfl
  code := rfl
  dtab := rfl
  dn := rfl
  cand := rfl
  snk := rfl
  cmd := rfl
  lenArg := rfl

/-- An error raised by an operation that has touched nothing but its input, the entry registers and the accumulator. -/
inductive RaisedFrom (s : State) : State → Prop where
  | raise (e : Err) (u : State) (he : e ∈ blockErrors) (hu : Untouched s u) : RaisedFrom s (raise e u)

/-- An operation that can raise an error is in one of four phases (R207). -/
theorem phase_of_error_successor {p : Phase} (h : .error ∈ successors p) :
    p = .cPayload ∨ p = .dHeader ∨ p = .pPack ∨ p = .uUnpack ∨ p = .error := by
  revert h
  cases p <;> decide

section

variable {s t : State}

/-! ### The operations that raise -/

theorem execSerPayload_raises (hp : s.phase ≠ .error) (he : execSerPayload s = .next t) (ht : t.phase = .error) :
    RaisedFrom s t ∧ t.acc = s.acc := by
  obtain ⟨_, h1⟩ | ⟨b, _, _, _, h1⟩ | ⟨_, _, _, _, h1⟩ := execSerPayload_cases s <;>
    obtain rfl := Host.Outcome.next.inj (h1.symm.trans he)
  · exact absurd ht Phase.noConfusion
  · exact ⟨.raise _ _ (by decide) { Untouched.refl s with }, rfl⟩
  · exact absurd ht hp

theorem insertEntry_raises {u : State} (hu : Untouched s u) (hp : u.phase ≠ .error) (ht : (insertEntry u).phase = .error) :
    RaisedFrom s (insertEntry u) := by
  obtain ⟨_, h⟩ | ⟨_, _, h⟩ | ⟨_, _, h⟩ := insertEntry_cases u <;> rw [h] at ht ⊢
  · exact .raise _ u (by decide) hu
  · exact .raise _ u (by decide) hu
  · exact absurd ht hp

theorem execDesHeader_raises (hp : s.phase ≠ .error) (he : execDesHeader s = .next t) (ht : t.phase = .error) :
    RaisedFrom s t := by
  obtain ⟨_, h1⟩ | ⟨_, _, h1⟩ | ⟨_, _, _, h1⟩ | ⟨_, _, _, _, _, _, h1⟩ | ⟨_, _, _, _, _, _, _, h1⟩ :=
    execDesHeader_cases s <;> obtain rfl := Host.Outcome.next.inj (h1.symm.trans he)
  case inr.inl => exact absurd ht Phase.noConfusion
  case inr.inr.inr.inr => exact insertEntry_raises { Untouched.refl s with } hp ht
  all_goals exact .raise _ _ (by decide) { Untouched.refl s with }

/-- PACK has collected the bits of the characters before the bad one (log 11). -/
theorem execPackBits_raises (he : execPackBits s = .next t) (ht : t.phase = .error) :
    RaisedFrom s t ∧ ∃ c rest, unread s = chars t.acc ++ c :: rest ∧ c ≠ 0x30 ∧ c ≠ 0x31 := by
  obtain ⟨_, _, h1⟩ | ⟨bits, c, rest, hc, hu, h1⟩ := execPackBits_cases s <;>
    obtain rfl := Host.Outcome.next.inj (h1.symm.trans he)
  · exact absurd ht Phase.noConfusion
  · obtain ⟨_, h0, h1⟩ | ⟨b, hb, _⟩ := charBit_cases c
    · exact ⟨.raise _ _ (by decide) { Untouched.refl s with }, c, rest, hu, h0, h1⟩
    · exact absurd (hc.symm.trans hb) nofun

theorem execUnpackBits_raises (he : execUnpackBits s = .next t) (ht : t.phase = .error) : RaisedFrom s t := by
  obtain ⟨_, _, _, _, h1⟩ | ⟨_, h1⟩ := execUnpackBits_cases s <;> obtain rfl := Host.Outcome.next.inj (h1.symm.trans he)
  · exact absurd ht Phase.noConfusion
  · exact .raise _ _ (by decide) { Untouched.refl s with }

end

/-! ### The statement -/

/-- A step of the block takes an edge of R207, and outside a run stays where it is. -/
theorem phase_of_step {s t : State} (hin : s.inbox = []) (hr : s.rst = false) (h : step s = .next t) :
    selected s = none ∧ t = s ∨ t.phase ∈ successors s.phase := by
  rw [step_of_inbox_nil hin] at h
  cases hi : selected s with
  | none => exact .inl ⟨rfl, Host.Outcome.next.inj (h.symm.trans (advance_of_none hr hi))⟩
  | some i => exact .inr (block_phase (l := s.inbox) hi ((advance_of_free hr hi).symm.trans h))

/-- Settles O45: the four phases with an edge to `ERROR`, each by its operation. -/
theorem errorsArePrecise : Obligations.ErrorsArePrecise := by
  intro s t hin hr hne h ht
  obtain ⟨_, _, _, _, _, _, hser, _, hdes, _, hpack, hunpack, _⟩ := stepRunsTheOperationOfThePhase s hin hr
  have hedge : .error ∈ successors s.phase := ht ▸ (phase_of_step hin hr h).resolve_left fun ⟨_, hs⟩ => hne (hs ▸ ht)
  have key : RaisedFrom s t ∧ (s.phase ≠ .pPack → t.acc = s.acc) ∧
      (s.phase = .pPack → ∃ c rest, unread s = chars t.acc ++ c :: rest ∧ c ≠ 0x30 ∧ c ≠ 0x31) := by
    obtain hp | hp | hp | hp | hp := phase_of_error_successor hedge
    · obtain ⟨hraise, hacc⟩ := execSerPayload_raises hne ((hser hp).symm.trans h) ht
      exact ⟨hraise, fun _ => hacc, fun hp' => absurd (hp.symm.trans hp') Phase.noConfusion⟩
    · have he := (hdes hp).symm.trans h
      exact ⟨execDesHeader_raises hne he ht, fun _ => (execDesHeader_cand_acc he).2,
        fun hp' => absurd (hp.symm.trans hp') Phase.noConfusion⟩
    · obtain ⟨hraise, hbad⟩ := execPackBits_raises ((hpack hp).symm.trans h) ht
      exact ⟨hraise, fun hp' => absurd hp hp', fun _ => hbad⟩
    · have he := (hunpack hp).symm.trans h
      exact ⟨execUnpackBits_raises he ht, fun _ => execUnpackBits_acc he,
        fun hp' => absurd (hp.symm.trans hp') Phase.noConfusion⟩
    · exact absurd hp hne
  obtain ⟨⟨e, u, he, hu⟩, hacc, hbad⟩ := key
  exact ⟨rfl, errCode_of_mem_blockErrors e he, hu.snk, hu.cand, hu.freq, hu.nsym, hu.node, hu.inq, hu.nnodes, hu.root, hu.code,
    hu.dtab, hu.dn, hu.cmd, hu.lenArg, hacc, hbad⟩

end Sys2Proof.Machine
